-- ==== Sys2Proof/Word.lean ====
section
/-! DEFINITION. The bit patterns of the core (00_scope.md R4, R5): words, halfwords, bytes, register numbers. -/

namespace Sys2Proof

/-- A 32-bit pattern: registers, addresses, instruction words (00_scope.md R4 `XLEN`, `ILEN`). -/
abbrev Word := BitVec 32

/-- A 16-bit pattern: an immediate field (30_encoding.md R71). -/
abbrev Half := BitVec 16

/-- An 8-bit byte (20_memory.md R40). -/
abbrev Byte := BitVec 8

/-- A 5-bit register number, of a general or a system-control register (30_encoding.md R71). -/
abbrev Reg := BitVec 5

end Sys2Proof
end

