-- ==== Sys2Proof/Syntax.lean ====
section
/-! DEFINITION. The instructions: one constructor for each row of spec/opcode_table.json, its operands in the
assembler's order (30_encoding.md R82). A word that is no row is a reserved instruction and no term here (log 13). -/

namespace Sys2Proof

/-- 30_encoding.md R74 to R78. Register operands are 5-bit fields, immediates 16 bits, jump targets 26 bits (R71);
`code` and `cofun` are the bits the hardware ignores in SYSCALL, BREAK and COPz (R79, 49_system.md R210, R216). -/
inductive Instr where
  -- 41_arithmetic.md
  | add (rd rs rt : Reg)
  | addu (rd rs rt : Reg)
  | sub (rd rs rt : Reg)
  | subu (rd rs rt : Reg)
  | addi (rt rs : Reg) (imm : Half)
  | addiu (rt rs : Reg) (imm : Half)
  -- 42_logical.md
  | and (rd rs rt : Reg)
  | or (rd rs rt : Reg)
  | xor (rd rs rt : Reg)
  | nor (rd rs rt : Reg)
  | andi (rt rs : Reg) (imm : Half)
  | ori (rt rs : Reg) (imm : Half)
  | xori (rt rs : Reg) (imm : Half)
  | lui (rt : Reg) (imm : Half)
  -- 43_shift.md
  | sll (rd rt : Reg) (sa : BitVec 5)
  | srl (rd rt : Reg) (sa : BitVec 5)
  | sra (rd rt : Reg) (sa : BitVec 5)
  | sllv (rd rt rs : Reg)
  | srlv (rd rt rs : Reg)
  | srav (rd rt rs : Reg)
  -- 44_compare.md
  | slt (rd rs rt : Reg)
  | sltu (rd rs rt : Reg)
  | slti (rt rs : Reg) (imm : Half)
  | sltiu (rt rs : Reg) (imm : Half)
  -- 45_branch.md
  | beq (rs rt : Reg) (offset : Half)
  | bne (rs rt : Reg) (offset : Half)
  | blez (rs : Reg) (offset : Half)
  | bgtz (rs : Reg) (offset : Half)
  | bltz (rs : Reg) (offset : Half)
  | bgez (rs : Reg) (offset : Half)
  | bltzal (rs : Reg) (offset : Half)
  | bgezal (rs : Reg) (offset : Half)
  -- 46_jump.md
  | j (target : BitVec 26)
  | jal (target : BitVec 26)
  | jr (rs : Reg)
  | jalr (rd rs : Reg)
  -- 47_load_store.md
  | lb (rt : Reg) (offset : Half) (rs : Reg)
  | lbu (rt : Reg) (offset : Half) (rs : Reg)
  | lh (rt : Reg) (offset : Half) (rs : Reg)
  | lhu (rt : Reg) (offset : Half) (rs : Reg)
  | lw (rt : Reg) (offset : Half) (rs : Reg)
  | lwl (rt : Reg) (offset : Half) (rs : Reg)
  | lwr (rt : Reg) (offset : Half) (rs : Reg)
  | sb (rt : Reg) (offset : Half) (rs : Reg)
  | sh (rt : Reg) (offset : Half) (rs : Reg)
  | sw (rt : Reg) (offset : Half) (rs : Reg)
  | swl (rt : Reg) (offset : Half) (rs : Reg)
  | swr (rt : Reg) (offset : Half) (rs : Reg)
  -- 48_muldiv.md
  | mult (rs rt : Reg)
  | multu (rs rt : Reg)
  | div (rs rt : Reg)
  | divu (rs rt : Reg)
  | mfhi (rd : Reg)
  | mflo (rd : Reg)
  | mthi (rs : Reg)
  | mtlo (rs : Reg)
  -- 49_system.md
  | syscall (code : BitVec 20)
  | brk (code : BitVec 20)
  | mfc0 (rt rd : Reg)
  | mtc0 (rt rd : Reg)
  | rfe
  | cop1 (cofun : BitVec 26)
  | cop2 (cofun : BitVec 26)
  | cop3 (cofun : BitVec 26)
  | lwc0 (rt : Reg) (offset : Half) (rs : Reg)
  | lwc1 (rt : Reg) (offset : Half) (rs : Reg)
  | lwc2 (rt : Reg) (offset : Half) (rs : Reg)
  | lwc3 (rt : Reg) (offset : Half) (rs : Reg)
  | swc0 (rt : Reg) (offset : Half) (rs : Reg)
  | swc1 (rt : Reg) (offset : Half) (rs : Reg)
  | swc2 (rt : Reg) (offset : Half) (rs : Reg)
  | swc3 (rt : Reg) (offset : Half) (rs : Reg)
  deriving DecidableEq, Repr

end Sys2Proof
end

