-- ==== Sys2Proof/Decode.lean ====
section
/-! DEFINITION. Decoding (30_encoding.md R71, R73 to R80), total on every word and on any bytes, refusing by name, and
the encoder written from the same tables. Also the little-endian byte composition of 20_memory.md R48. -/

namespace Sys2Proof

/-! ### Fields (R71) -/

/-- `op`, bits 31:26. -/
def fieldOp (w : Word) : BitVec 6 := w.extractLsb' 26 6
/-- `rs`, bits 25:21. -/
def fieldRs (w : Word) : Reg := w.extractLsb' 21 5
/-- `rt`, bits 20:16. -/
def fieldRt (w : Word) : Reg := w.extractLsb' 16 5
/-- `rd`, bits 15:11. -/
def fieldRd (w : Word) : Reg := w.extractLsb' 11 5
/-- `shamt`, bits 10:6. -/
def fieldShamt (w : Word) : BitVec 5 := w.extractLsb' 6 5
/-- `funct`, bits 5:0. -/
def fieldFunct (w : Word) : BitVec 6 := w.extractLsb' 0 6
/-- `imm`, bits 15:0. -/
def fieldImm (w : Word) : Half := w.extractLsb' 0 16
/-- `target`, bits 25:0. -/
def fieldTarget (w : Word) : BitVec 26 := w.extractLsb' 0 26
/-- `code`, bits 25:6 of SYSCALL and BREAK. -/
def fieldCode (w : Word) : BitVec 20 := w.extractLsb' 6 20

/-! ### Decoding -/

/-- Why a word is a reserved instruction: which table of R74 to R77 gives it no instruction (R80). -/
inductive Reserved where
  /-- `op` is marked reserved in R74. -/
  | op (op : BitVec 6)
  /-- `op = 0x00` and `funct` is marked reserved in R75. -/
  | funct (funct : BitVec 6)
  /-- `op = 0x01` and `rt` is none of R76's four. -/
  | regimm (rt : BitVec 5)
  /-- `op = 0x10` and the word is none of MFC0, MTC0, RFE (R77, 49_system.md R215). -/
  | cop0 (rs : BitVec 5) (funct : BitVec 6)
  deriving DecidableEq, Repr

/-- What a word decodes to: "every operation code maps to exactly one reachable branch and unknown codes are a
single, explicit reserved-instruction case" (R73). -/
inductive Decoded where
  | instr (i : Instr)
  | reserved (why : Reserved)
  deriving DecidableEq, Repr

/-- SPECIAL, `op = 0x00`, by `funct` (R75). -/
def decodeSpecial (w : Word) : Decoded :=
  match fieldFunct w with
  | 0x00#6 => .instr (.sll (fieldRd w) (fieldRt w) (fieldShamt w))
  | 0x02#6 => .instr (.srl (fieldRd w) (fieldRt w) (fieldShamt w))
  | 0x03#6 => .instr (.sra (fieldRd w) (fieldRt w) (fieldShamt w))
  | 0x04#6 => .instr (.sllv (fieldRd w) (fieldRt w) (fieldRs w))
  | 0x06#6 => .instr (.srlv (fieldRd w) (fieldRt w) (fieldRs w))
  | 0x07#6 => .instr (.srav (fieldRd w) (fieldRt w) (fieldRs w))
  | 0x08#6 => .instr (.jr (fieldRs w))
  | 0x09#6 => .instr (.jalr (fieldRd w) (fieldRs w))
  | 0x0C#6 => .instr (.syscall (fieldCode w))
  | 0x0D#6 => .instr (.brk (fieldCode w))
  | 0x10#6 => .instr (.mfhi (fieldRd w))
  | 0x11#6 => .instr (.mthi (fieldRs w))
  | 0x12#6 => .instr (.mflo (fieldRd w))
  | 0x13#6 => .instr (.mtlo (fieldRs w))
  | 0x18#6 => .instr (.mult (fieldRs w) (fieldRt w))
  | 0x19#6 => .instr (.multu (fieldRs w) (fieldRt w))
  | 0x1A#6 => .instr (.div (fieldRs w) (fieldRt w))
  | 0x1B#6 => .instr (.divu (fieldRs w) (fieldRt w))
  | 0x20#6 => .instr (.add (fieldRd w) (fieldRs w) (fieldRt w))
  | 0x21#6 => .instr (.addu (fieldRd w) (fieldRs w) (fieldRt w))
  | 0x22#6 => .instr (.sub (fieldRd w) (fieldRs w) (fieldRt w))
  | 0x23#6 => .instr (.subu (fieldRd w) (fieldRs w) (fieldRt w))
  | 0x24#6 => .instr (.and (fieldRd w) (fieldRs w) (fieldRt w))
  | 0x25#6 => .instr (.or (fieldRd w) (fieldRs w) (fieldRt w))
  | 0x26#6 => .instr (.xor (fieldRd w) (fieldRs w) (fieldRt w))
  | 0x27#6 => .instr (.nor (fieldRd w) (fieldRs w) (fieldRt w))
  | 0x2A#6 => .instr (.slt (fieldRd w) (fieldRs w) (fieldRt w))
  | 0x2B#6 => .instr (.sltu (fieldRd w) (fieldRs w) (fieldRt w))
  | other => .reserved (.funct other)

/-- REGIMM, `op = 0x01`, by the whole `rt` field (R76). -/
def decodeRegimm (w : Word) : Decoded :=
  match fieldRt w with
  | 0x00#5 => .instr (.bltz (fieldRs w) (fieldImm w))
  | 0x01#5 => .instr (.bgez (fieldRs w) (fieldImm w))
  | 0x10#5 => .instr (.bltzal (fieldRs w) (fieldImm w))
  | 0x11#5 => .instr (.bgezal (fieldRs w) (fieldImm w))
  | other => .reserved (.regimm other)

/-- COP0, `op = 0x10`, by the whole `rs` field and, for RFE, `funct` (R77). -/
def decodeCop0 (w : Word) : Decoded :=
  match fieldRs w with
  | 0x00#5 => .instr (.mfc0 (fieldRt w) (fieldRd w))
  | 0x04#5 => .instr (.mtc0 (fieldRt w) (fieldRd w))
  | 0x10#5 =>
    if fieldFunct w = 0x10#6 then .instr .rfe
    else .reserved (.cop0 0x10#5 (fieldFunct w))
  | other => .reserved (.cop0 other (fieldFunct w))

/-- R73, R74, R78: decode is a total function of the 32-bit word. Fields an instruction does not use are ignored (R79). -/
def decode (w : Word) : Decoded :=
  match fieldOp w with
  | 0x00#6 => decodeSpecial w
  | 0x01#6 => decodeRegimm w
  | 0x02#6 => .instr (.j (fieldTarget w))
  | 0x03#6 => .instr (.jal (fieldTarget w))
  | 0x04#6 => .instr (.beq (fieldRs w) (fieldRt w) (fieldImm w))
  | 0x05#6 => .instr (.bne (fieldRs w) (fieldRt w) (fieldImm w))
  | 0x06#6 => .instr (.blez (fieldRs w) (fieldImm w))
  | 0x07#6 => .instr (.bgtz (fieldRs w) (fieldImm w))
  | 0x08#6 => .instr (.addi (fieldRt w) (fieldRs w) (fieldImm w))
  | 0x09#6 => .instr (.addiu (fieldRt w) (fieldRs w) (fieldImm w))
  | 0x0A#6 => .instr (.slti (fieldRt w) (fieldRs w) (fieldImm w))
  | 0x0B#6 => .instr (.sltiu (fieldRt w) (fieldRs w) (fieldImm w))
  | 0x0C#6 => .instr (.andi (fieldRt w) (fieldRs w) (fieldImm w))
  | 0x0D#6 => .instr (.ori (fieldRt w) (fieldRs w) (fieldImm w))
  | 0x0E#6 => .instr (.xori (fieldRt w) (fieldRs w) (fieldImm w))
  | 0x0F#6 => .instr (.lui (fieldRt w) (fieldImm w))
  | 0x10#6 => decodeCop0 w
  | 0x11#6 => .instr (.cop1 (fieldTarget w))
  | 0x12#6 => .instr (.cop2 (fieldTarget w))
  | 0x13#6 => .instr (.cop3 (fieldTarget w))
  | 0x20#6 => .instr (.lb (fieldRt w) (fieldImm w) (fieldRs w))
  | 0x21#6 => .instr (.lh (fieldRt w) (fieldImm w) (fieldRs w))
  | 0x22#6 => .instr (.lwl (fieldRt w) (fieldImm w) (fieldRs w))
  | 0x23#6 => .instr (.lw (fieldRt w) (fieldImm w) (fieldRs w))
  | 0x24#6 => .instr (.lbu (fieldRt w) (fieldImm w) (fieldRs w))
  | 0x25#6 => .instr (.lhu (fieldRt w) (fieldImm w) (fieldRs w))
  | 0x26#6 => .instr (.lwr (fieldRt w) (fieldImm w) (fieldRs w))
  | 0x28#6 => .instr (.sb (fieldRt w) (fieldImm w) (fieldRs w))
  | 0x29#6 => .instr (.sh (fieldRt w) (fieldImm w) (fieldRs w))
  | 0x2A#6 => .instr (.swl (fieldRt w) (fieldImm w) (fieldRs w))
  | 0x2B#6 => .instr (.sw (fieldRt w) (fieldImm w) (fieldRs w))
  | 0x2E#6 => .instr (.swr (fieldRt w) (fieldImm w) (fieldRs w))
  | 0x30#6 => .instr (.lwc0 (fieldRt w) (fieldImm w) (fieldRs w))
  | 0x31#6 => .instr (.lwc1 (fieldRt w) (fieldImm w) (fieldRs w))
  | 0x32#6 => .instr (.lwc2 (fieldRt w) (fieldImm w) (fieldRs w))
  | 0x33#6 => .instr (.lwc3 (fieldRt w) (fieldImm w) (fieldRs w))
  | 0x38#6 => .instr (.swc0 (fieldRt w) (fieldImm w) (fieldRs w))
  | 0x39#6 => .instr (.swc1 (fieldRt w) (fieldImm w) (fieldRs w))
  | 0x3A#6 => .instr (.swc2 (fieldRt w) (fieldImm w) (fieldRs w))
  | 0x3B#6 => .instr (.swc3 (fieldRt w) (fieldImm w) (fieldRs w))
  | other => .reserved (.op other)

/-! ### Bytes (20_memory.md R48) -/

/-- The four bytes of a word in memory order, least significant first. -/
def wordBytes (w : Word) : List Byte :=
  [w.extractLsb' 0 8, w.extractLsb' 8 8, w.extractLsb' 16 8, w.extractLsb' 24 8]

/-- The word whose bytes, lowest address first, are `b0` to `b3`. -/
def bytesWord (b0 b1 b2 b3 : Byte) : Word := b3 ++ b2 ++ b1 ++ b0

/-- What a list of bytes decodes to. -/
inductive BytesDecoded where
  | instr (i : Instr) (rest : List Byte)
  | reserved (why : Reserved) (rest : List Byte)
  /-- Fewer than four bytes: no instruction word (R70: every instruction is one 32-bit word). -/
  | truncated
  deriving DecidableEq, Repr

/-- Decode the instruction at the head of a list of bytes (R70). -/
def decodeBytes : List Byte → BytesDecoded
  | b0 :: b1 :: b2 :: b3 :: rest =>
    match decode (bytesWord b0 b1 b2 b3) with
    | .instr i => .instr i rest
    | .reserved why => .reserved why rest
  | _ => .truncated

/-- The word of an instruction of `nbits` bits whose bits are `w`, every bit above them 0. -/
def tableWord (nbits w : Nat) : Word := BitVec.ofNat 32 (w % 2 ^ nbits)

/-- The instruction the decoder reads from an instruction of opcode_table.json whose bits are `w`: its bytes laid out
as the hardware stores them, given to the decoder. -/
def decodeTableWord (nbits w : Nat) : Option Instr :=
  match decodeBytes (wordBytes (tableWord nbits w)) with
  | .instr i _ => some i
  | .reserved _ _ => none
  | .truncated => none

/-! ### Encoding, with zero in every ignored field (R79) -/

/-- R format (R71). -/
def encodeR (op : BitVec 6) (rs rt rd : Reg) (shamt : BitVec 5) (funct : BitVec 6) : Word :=
  op ++ rs ++ rt ++ rd ++ shamt ++ funct

/-- SPECIAL: R format with `op = 0x00` (R75). -/
def encodeSpecial (funct : BitVec 6) (rs rt rd : Reg) (shamt : BitVec 5) : Word :=
  encodeR 0x00#6 rs rt rd shamt funct

/-- I format (R71). -/
def encodeI (op : BitVec 6) (rs rt : Reg) (imm : Half) : Word :=
  op ++ rs ++ rt ++ imm

/-- J format (R71). -/
def encodeJ (op : BitVec 6) (target : BitVec 26) : Word :=
  op ++ target

/-- SYSCALL and BREAK: `op = 0x00`, a 20-bit code, `funct` (R71). -/
def encodeCode (code : BitVec 20) (funct : BitVec 6) : Word :=
  0x00#6 ++ code ++ funct

/-- The word of an instruction. -/
def encode : Instr → Word
  | .add rd rs rt => encodeSpecial 0x20#6 rs rt rd 0#5
  | .addu rd rs rt => encodeSpecial 0x21#6 rs rt rd 0#5
  | .sub rd rs rt => encodeSpecial 0x22#6 rs rt rd 0#5
  | .subu rd rs rt => encodeSpecial 0x23#6 rs rt rd 0#5
  | .addi rt rs imm => encodeI 0x08#6 rs rt imm
  | .addiu rt rs imm => encodeI 0x09#6 rs rt imm
  | .and rd rs rt => encodeSpecial 0x24#6 rs rt rd 0#5
  | .or rd rs rt => encodeSpecial 0x25#6 rs rt rd 0#5
  | .xor rd rs rt => encodeSpecial 0x26#6 rs rt rd 0#5
  | .nor rd rs rt => encodeSpecial 0x27#6 rs rt rd 0#5
  | .andi rt rs imm => encodeI 0x0C#6 rs rt imm
  | .ori rt rs imm => encodeI 0x0D#6 rs rt imm
  | .xori rt rs imm => encodeI 0x0E#6 rs rt imm
  | .lui rt imm => encodeI 0x0F#6 0#5 rt imm
  | .sll rd rt sa => encodeSpecial 0x00#6 0#5 rt rd sa
  | .srl rd rt sa => encodeSpecial 0x02#6 0#5 rt rd sa
  | .sra rd rt sa => encodeSpecial 0x03#6 0#5 rt rd sa
  | .sllv rd rt rs => encodeSpecial 0x04#6 rs rt rd 0#5
  | .srlv rd rt rs => encodeSpecial 0x06#6 rs rt rd 0#5
  | .srav rd rt rs => encodeSpecial 0x07#6 rs rt rd 0#5
  | .slt rd rs rt => encodeSpecial 0x2A#6 rs rt rd 0#5
  | .sltu rd rs rt => encodeSpecial 0x2B#6 rs rt rd 0#5
  | .slti rt rs imm => encodeI 0x0A#6 rs rt imm
  | .sltiu rt rs imm => encodeI 0x0B#6 rs rt imm
  | .beq rs rt offset => encodeI 0x04#6 rs rt offset
  | .bne rs rt offset => encodeI 0x05#6 rs rt offset
  | .blez rs offset => encodeI 0x06#6 rs 0#5 offset
  | .bgtz rs offset => encodeI 0x07#6 rs 0#5 offset
  | .bltz rs offset => encodeI 0x01#6 rs 0x00#5 offset
  | .bgez rs offset => encodeI 0x01#6 rs 0x01#5 offset
  | .bltzal rs offset => encodeI 0x01#6 rs 0x10#5 offset
  | .bgezal rs offset => encodeI 0x01#6 rs 0x11#5 offset
  | .j target => encodeJ 0x02#6 target
  | .jal target => encodeJ 0x03#6 target
  | .jr rs => encodeSpecial 0x08#6 rs 0#5 0#5 0#5
  | .jalr rd rs => encodeSpecial 0x09#6 rs 0#5 rd 0#5
  | .lb rt offset rs => encodeI 0x20#6 rs rt offset
  | .lbu rt offset rs => encodeI 0x24#6 rs rt offset
  | .lh rt offset rs => encodeI 0x21#6 rs rt offset
  | .lhu rt offset rs => encodeI 0x25#6 rs rt offset
  | .lw rt offset rs => encodeI 0x23#6 rs rt offset
  | .lwl rt offset rs => encodeI 0x22#6 rs rt offset
  | .lwr rt offset rs => encodeI 0x26#6 rs rt offset
  | .sb rt offset rs => encodeI 0x28#6 rs rt offset
  | .sh rt offset rs => encodeI 0x29#6 rs rt offset
  | .sw rt offset rs => encodeI 0x2B#6 rs rt offset
  | .swl rt offset rs => encodeI 0x2A#6 rs rt offset
  | .swr rt offset rs => encodeI 0x2E#6 rs rt offset
  | .mult rs rt => encodeSpecial 0x18#6 rs rt 0#5 0#5
  | .multu rs rt => encodeSpecial 0x19#6 rs rt 0#5 0#5
  | .div rs rt => encodeSpecial 0x1A#6 rs rt 0#5 0#5
  | .divu rs rt => encodeSpecial 0x1B#6 rs rt 0#5 0#5
  | .mfhi rd => encodeSpecial 0x10#6 0#5 0#5 rd 0#5
  | .mflo rd => encodeSpecial 0x12#6 0#5 0#5 rd 0#5
  | .mthi rs => encodeSpecial 0x11#6 rs 0#5 0#5 0#5
  | .mtlo rs => encodeSpecial 0x13#6 rs 0#5 0#5 0#5
  | .syscall code => encodeCode code 0x0C#6
  | .brk code => encodeCode code 0x0D#6
  | .mfc0 rt rd => encodeR 0x10#6 0x00#5 rt rd 0#5 0#6
  | .mtc0 rt rd => encodeR 0x10#6 0x04#5 rt rd 0#5 0#6
  | .rfe => encodeR 0x10#6 0x10#5 0#5 0#5 0#5 0x10#6
  | .cop1 cofun => encodeJ 0x11#6 cofun
  | .cop2 cofun => encodeJ 0x12#6 cofun
  | .cop3 cofun => encodeJ 0x13#6 cofun
  | .lwc0 rt offset rs => encodeI 0x30#6 rs rt offset
  | .lwc1 rt offset rs => encodeI 0x31#6 rs rt offset
  | .lwc2 rt offset rs => encodeI 0x32#6 rs rt offset
  | .lwc3 rt offset rs => encodeI 0x33#6 rs rt offset
  | .swc0 rt offset rs => encodeI 0x38#6 rs rt offset
  | .swc1 rt offset rs => encodeI 0x39#6 rs rt offset
  | .swc2 rt offset rs => encodeI 0x3A#6 rs rt offset
  | .swc3 rt offset rs => encodeI 0x3B#6 rs rt offset

/-- The bytes of an instruction in memory order. -/
def encodeBytes (i : Instr) : List Byte := wordBytes (encode i)

end Sys2Proof
end

