-- ==== Sys2Proof/Machine/Flags.lean ====
section
/-! DEFINITION. The core has no flags (10_state.md R17); what stands in their place: the overflow test of the checked
arithmetic (41_arithmetic.md R120), the comparisons (44_compare.md, 45_branch.md), and the fields of the status and
cause registers (10_state.md R22, R23) with what exception entry, return and the poll write in them. -/

namespace Sys2Proof.Machine

/-! ### Overflow and comparison -/

/-- Signed overflow of `a + b`: `a[31] = b[31]` and `s[31] != a[31]` (R120, R121). -/
def addOverflows (a b : Word) : Bool := a.msb == b.msb && (a + b).msb != a.msb

/-- Signed overflow of `a - b`: `a[31] != b[31]` and `d[31] != a[31]` (R120, R123). -/
def subOverflows (a b : Word) : Bool := a.msb != b.msb && (a - b).msb != a.msb

/-- The value a compare-and-set writes: 1 if true, else 0 (R150). -/
def truthWord (b : Bool) : Word := if b then 1#32 else 0#32

/-- `signed(a) < signed(b)` (R151). -/
def signedLt (a b : Word) : Bool := decide (a.toInt < b.toInt)

/-- `unsigned(a) < unsigned(b)` (R152). -/
def unsignedLt (a b : Word) : Bool := decide (a.toNat < b.toNat)

/-- `signed(a) <= 0` (R163). -/
def lez (a : Word) : Bool := decide (a.toInt ≤ 0)
/-- `signed(a) > 0` (R164). -/
def gtz (a : Word) : Bool := decide (0 < a.toInt)
/-- `signed(a) < 0` (R165). -/
def ltz (a : Word) : Bool := decide (a.toInt < 0)
/-- `signed(a) >= 0` (R166). -/
def gez (a : Word) : Bool := decide (0 ≤ a.toInt)

/-! ### Fields of `SR` (R22) -/

/-- `IEc`, bit 0. -/
def srIEc (sr : Word) : Bool := sr.getLsbD 0
/-- `KUc`, bit 1: 1 is user; no rule reads it (60_exceptions.md R246). -/
def srKUc (sr : Word) : Bool := sr.getLsbD 1
/-- `IM`, bits 15:8. -/
def srIM (sr : Word) : Byte := sr.extractLsb' 8 8
/-- `BEV`, bit 22. -/
def srBEV (sr : Word) : Bool := sr.getLsbD 22

/-- Exception entry: `SR[5:0] <- old[3:0] : 0b00` (60_exceptions.md R240). -/
def pushModes (sr : Word) : Word :=
  sr.extractLsb' 6 26 ++ sr.extractLsb' 0 4 ++ 0b00#2

/-- Return from exception: `SR[3:0] <- SR[5:2]`, `SR[5:4]` and `SR[31:6]` unchanged (49_system.md R214). -/
def popModes (sr : Word) : Word :=
  sr.extractLsb' 4 28 ++ sr.extractLsb' 2 4

/-! ### Fields of `CAUSE` (R23) -/

/-- `ExcCode`, bits 6:2. -/
def causeExcCode (cause : Word) : BitVec 5 := cause.extractLsb' 2 5
/-- `IP`, bits 15:8. -/
def causeIP (cause : Word) : Byte := cause.extractLsb' 8 8
/-- `CE`, bits 29:28. -/
def causeCE (cause : Word) : BitVec 2 := cause.extractLsb' 28 2
/-- `BD`, bit 31. -/
def causeBD (cause : Word) : Bool := cause.getLsbD 31

/-- `CAUSE[31] <- bd` and `CAUSE[6:2] <- code` (R240). -/
def causeWithEntry (cause : Word) (bd : Bool) (code : BitVec 5) : Word :=
  BitVec.ofBool bd ++ cause.extractLsb' 7 24 ++ code ++ cause.extractLsb' 0 2

/-- `CAUSE[29:28] <- ce` (R240, coprocessor-unusable only). -/
def causeWithCE (cause : Word) (ce : BitVec 2) : Word :=
  cause.extractLsb' 30 2 ++ ce ++ cause.extractLsb' 0 28

/-- `CAUSE[10] <- irq` (60_exceptions.md R236). -/
def causeWithIrq (cause : Word) (irq : Bool) : Word :=
  cause.extractLsb' 11 21 ++ BitVec.ofBool irq ++ cause.extractLsb' 0 10

/-- An interrupt is enabled and pending: `SR[0] = 1` and `(SR[15:8] & CAUSE[15:8]) != 0` (60_exceptions.md R234, R236). -/
def interruptTaken (sr cause : Word) : Bool :=
  srIEc sr && (srIM sr &&& causeIP cause) != 0#8

end Sys2Proof.Machine
end

