-- ==== Sys2Proof/Machine/Operands.lean ====
section
/-! DEFINITION. How operands are formed (30_encoding.md R72), effective addresses (47_load_store.md R180), widening of
loaded values, and the byte merges of the unaligned-word instructions (R186, R187, R191, R192). -/

namespace Sys2Proof.Machine

/-- `sext_32(imm)`: bit 15 copied into bits 31:16 (R72). -/
def sextImm (imm : Half) : Word := imm.signExtend 32

/-- `zext_32(imm)` (R72). -/
def zextImm (imm : Half) : Word := imm.setWidth 32

/-- `imm : 0x0000` (R72, LUI). -/
def upperImm (imm : Half) : Word := imm ++ 0x0000#16

/-- `sext_32(imm) << 2`: the signed byte offset of a branch (R72). -/
def branchOffset (imm : Half) : Word := sextImm imm <<< (2 : Nat)

/-- `cur_pc[31:28] : target : 00` (R72; 46_jump.md R170). In a memory map other than the default one, in which the last
word of a 256 MiB block can be fetched, that the four bits are those of `cur_pc` there too and not of the delay slot is
the model's choice (DESIGN CHOICE, unsafe: log 26; 90_conflicts.md C7, D38). -/
def jumpTarget (curPc : Word) (target : BitVec 26) : Word :=
  curPc.extractLsb' 28 4 ++ target ++ 0b00#2

/-- `x[rs][4:0]`: the amount of a variable shift (43_shift.md R140). -/
def varShift (v : Word) : BitVec 5 := v.extractLsb' 0 5

/-- Base plus displacement, modulo 2^32 (47_load_store.md R180). -/
def effAddr (base : Word) (imm : Half) : Word := base + sextImm imm

/-- `ea & 0xFFFFFFFC`: the aligned word that holds `ea` (R186). -/
def alignedWord (ea : Word) : Word := ea &&& 0xFFFFFFFC#32

/-- `ea[1:0]`. -/
def lowBits (ea : Word) : BitVec 2 := ea.extractLsb' 0 2

/-- Bit 7 of a loaded byte copied into bits 31:8 (R181). -/
def sextByte (v : Word) : Word := (v.extractLsb' 0 8).signExtend 32

/-- A loaded byte with bits 31:8 zero (R182). -/
def zextByte (v : Word) : Word := (v.extractLsb' 0 8).setWidth 32

/-- Bit 15 of a loaded halfword copied into bits 31:16 (R183). -/
def sextHalf (v : Word) : Word := (v.extractLsb' 0 16).signExtend 32

/-- A loaded halfword with bits 31:16 zero (R184). -/
def zextHalf (v : Word) : Word := (v.extractLsb' 0 16).setWidth 32

/-- LWL's table (R186): `wv` the aligned memory word, `cur` the register's in-flight value, `k = ea[1:0]`. -/
def lwlMerge (k : BitVec 2) (wv cur : Word) : Word :=
  match k with
  | 0#2 => wv.extractLsb' 0 8 ++ cur.extractLsb' 0 24
  | 1#2 => wv.extractLsb' 0 16 ++ cur.extractLsb' 0 16
  | 2#2 => wv.extractLsb' 0 24 ++ cur.extractLsb' 0 8
  | 3#2 => wv

/-- LWR's table (R187). -/
def lwrMerge (k : BitVec 2) (wv cur : Word) : Word :=
  match k with
  | 0#2 => wv
  | 1#2 => cur.extractLsb' 24 8 ++ wv.extractLsb' 8 24
  | 2#2 => cur.extractLsb' 16 16 ++ wv.extractLsb' 16 16
  | 3#2 => cur.extractLsb' 8 24 ++ wv.extractLsb' 24 8

/-- SWL's table (R191): `wv` the aligned memory word, `v` the register stored. -/
def swlMerge (k : BitVec 2) (wv v : Word) : Word :=
  match k with
  | 0#2 => wv.extractLsb' 8 24 ++ v.extractLsb' 24 8
  | 1#2 => wv.extractLsb' 16 16 ++ v.extractLsb' 16 16
  | 2#2 => wv.extractLsb' 24 8 ++ v.extractLsb' 8 24
  | 3#2 => v

/-- SWR's table (R192). -/
def swrMerge (k : BitVec 2) (wv v : Word) : Word :=
  match k with
  | 0#2 => v
  | 1#2 => v.extractLsb' 0 24 ++ wv.extractLsb' 0 8
  | 2#2 => v.extractLsb' 0 16 ++ wv.extractLsb' 0 16
  | 3#2 => v.extractLsb' 0 8 ++ wv.extractLsb' 0 24

end Sys2Proof.Machine
end

