-- ==== Sys2Proof/Config.lean ====
section
/-! DEFINITION. The parameters of the core (00_scope.md R4) and the one free value, the answer of a peripheral handler. -/

namespace Sys2Proof.Config

/-! ### Fixed parameters: those R4 takes from the source -/

/-- `translate` keeps these 29 bits of a virtual address (20_memory.md R41). -/
def physMask : Word := 0x1FFFFFFF#32
/-- Bytes of the physical address space, 29 bits of address (R4, R41). -/
def physSize : Nat := 0x20000000

/-- First physical address of main memory (R4 `RAM_BASE`). -/
def ramBase : Nat := 0x00000000
/-- Bytes of main memory (R4 `RAM_SIZE`). -/
def ramSize : Nat := 0x00200000
/-- Bytes of scratch memory (R4 `SCRATCH_SIZE`). -/
def scratchSize : Nat := 0x400
/-- Bytes of the I/O window (R4 `IO_SIZE`). -/
def ioSize : Nat := 0x1000
/-- Bytes of boot firmware (R4 `FW_SIZE`, 70_reset_and_hazards.md R261). -/
def fwSize : Nat := 0x80000

/-- R4 `CYCLES_PER_STEP` (40_execution_cycle.md R106): what every step reports, a constant no rule reads. -/
def cyclesPerStep : Nat := 1

/-! ### Parameters the state carries -/

/-- R4 `LOAD_WRITE_PRECEDENCE` (92_eei_decisions.md D19, the one OPEN point): what an immediate write does to a
deferred write to the same register (40_execution_cycle.md R108). -/
inductive Precedence where
  /-- The immediate write discards the pending deferred write (the spec's default). -/
  | directWriteCancels
  /-- The deferred write stays and overwrites the immediate value one step later. -/
  | deferredWriteWins
  deriving DecidableEq, Repr

/-- One sub-range of the I/O window that has a peripheral handler (20_memory.md R46): the physical addresses
`first` to `first + size - 1`. -/
structure IoRange where
  first : Nat
  size : Nat
  deriving DecidableEq, Repr

/-- The physical address `p` lies in the sub-range. -/
def IoRange.covers (r : IoRange) (p : Nat) : Bool :=
  decide (r.first ≤ p) && decide (p < r.first + r.size)

/-- The parameters of the configuration, fixed at construction; no step changes them (R4; log 2, log 3, log 25). R4 asks
for each value it marks as general knowledge to be one of them, with its default. The firmware image is held with the
other memory (log 1, log 11). -/
structure Params where
  /-- `SCRATCH_BASE`: first physical address of scratch memory (D7). -/
  scratchBase : Nat
  /-- `IO_BASE`: first physical address of the I/O window (D7). -/
  ioBase : Nat
  /-- `FW_BASE`: first physical address of boot firmware (D7). -/
  fwBase : Nat
  /-- `RESET_VECTOR` (D8). -/
  resetVector : Word
  /-- `VEC_GENERAL`: taken when the boot-exception-vector bit is 0 (D9). -/
  vecGeneral : Word
  /-- `VEC_BOOT`: taken when the boot-exception-vector bit is 1 (D9). -/
  vecBoot : Word
  /-- `LOAD_WRITE_PRECEDENCE`. -/
  precedence : Precedence
  /-- `PRID_VALUE`. -/
  pridValue : Word
  /-- `SR_RESET`. -/
  srReset : Word
  /-- `IO_MAP`. -/
  ioMap : List IoRange
  deriving DecidableEq, Repr

/-- The values R4 gives as defaults (UNVERIFIED against hardware where R4 marks them general knowledge: log 22), with no
handler registered (DESIGN CHOICE for `ioMap`, unsafe: log 2). -/
def defaults : Params :=
  { scratchBase := 0x1F800000
    ioBase := 0x1F801000
    fwBase := 0x1FC00000
    resetVector := 0xBFC00000#32
    vecGeneral := 0x80000080#32
    vecBoot := 0xBFC00180#32
    precedence := .directWriteCancels
    pridValue := 0x00000002#32
    srReset := 0x00400000#32
    ioMap := [] }

/-! ### What the environment answers -/

/-- What a peripheral handler answers to one call (20_memory.md R55): an integer, of which the bus keeps the low
bits of the access (only 32 bits can be seen: log 12), or a fault. To a write every `value` means `ok` (log 23). -/
inductive IoReply where
  | value (v : Word)
  | fault
  deriving DecidableEq, Repr, Inhabited

/-- FREE VALUE (93_implementation_defined.md U16: "any value of the access width, or a fault, per call"): the answer
to a handler call made after the listed answers of `State.ioIn` ran out, one for each draw. No body: no proof can
use what it is. DESIGN CHOICE, safe: log 4. -/
opaque freeIoReply : Nat → IoReply

end Sys2Proof.Config
end

