-- ==== Sys2Proof/Machine/State.lean ====
section
/-! DEFINITION. The state of the core (10_state.md R10 to R31), as plain data, and its value at reset. -/

namespace Sys2Proof.Machine

/-- What stops the machine: nothing. "The core has no trap-to-host, no stuck state" (00_scope.md R8) and "`Step` is
always enabled and always returns" (70_reset_and_hazards.md R275): every fault of the spec is a guest exception and a
next state, so this type has no constructor and nobody raises it. DEDUCED, safe: log 21. -/
inductive Fault where
  deriving DecidableEq, Repr

/-- Why a step is refused. -/
inductive Refusal where
  /-- Raised by an arm of `exec` whose instruction has no meaning yet, by its mnemonic (safe). No arm does so now. -/
  | notModelled (mnemonic : String)
  deriving DecidableEq, Repr

/-- The memories of the bus (10_state.md R28): `ram`, `scratch` and `fw` as one list of (physical address, byte), in
the canonical form of `Memory.wf`; an unlisted address reads 0 (log 11). -/
abbrev Memory := List Host.Cell

/-- A pending register write of the delay buffer (10_state.md R18). -/
structure Pending where
  reg : Reg
  value : Word
  deriving DecidableEq, Repr

/-- The access width of a bus call (20_memory.md R51). -/
inductive Width where
  | byte
  | half
  | word
  deriving DecidableEq, Repr

/-- A call on a peripheral handler (20_memory.md R55): width in bits, physical address, pass-through marker
`vaddr[31:29]`, and for a write the value truncated to the width. -/
inductive IoCall where
  | read (bits paddr : Nat) (seg : BitVec 3)
  | write (bits paddr : Nat) (seg : BitVec 3) (value : Word)
  deriving DecidableEq, Repr

/-- A diagnostic event (70_reset_and_hazards.md R272). -/
inductive LogEvent where
  | unmappedRead (vaddr : Word) (n : Nat)
  | unmappedWrite (vaddr : Word) (n : Nat) (value : Word)
  | firmwareWrite (vaddr : Word) (n : Nat) (value : Word)
  | reservedInstruction (curPc word : Word)
  deriving DecidableEq, Repr

/-- The state. Between steps `pc` is the next instruction's address and `npc` the one after (10_state.md R13);
inside a step, after the advance, they are the in-step values the instruction rules mean. -/
@[ext]
structure State where
  /-- `x[0]` to `x[31]` (R10); read and written through `State.reg` and `State.setReg` only (R11). -/
  gpr : Vector Word 32
  /-- Program counter (R13). -/
  pc : Word
  /-- Look-ahead program counter (R13). -/
  npc : Word
  /-- Address of the instruction the step executes (R15). -/
  curPc : Word
  /-- High accumulator (R16). -/
  hi : Word
  /-- Low accumulator (R16). -/
  lo : Word
  /-- Delay buffer, just scheduled (R18). -/
  ldArmed : Option Pending
  /-- Delay buffer, about to become visible (R18). -/
  ldCommit : Option Pending
  /-- The executing instruction is in a delay slot (R19). -/
  dsCur : Bool
  /-- The next instruction is in a delay slot (R19). -/
  dsNext : Bool
  /-- The system-control bank `c0[0]` to `c0[31]` (R20). -/
  c0 : Vector Word 32
  /-- `ram`, `scratch`, `fw` (R28). -/
  mem : Memory
  /-- The construction parameters; no step writes them (00_scope.md R4). -/
  params : Config.Params
  /-- Input: the levels `irq` of the coming polls, oldest first; level 0 when empty (R29; log 5). -/
  irqIn : List Bool
  /-- Input: the answers of peripheral handlers to the coming calls, oldest first (20_memory.md R55; log 4). -/
  ioIn : List Config.IoReply
  /-- The model's own: answers drawn from `Config.freeIoReply` so far (log 4). -/
  ioDraws : Nat
  /-- Output: handler calls made, oldest first (70_reset_and_hazards.md R273; log 10). -/
  ioCalls : List IoCall
  /-- Output: diagnostic events, oldest first; no rule reads it (R272; log 10). -/
  log : List LogEvent
  deriving DecidableEq, Repr

/-- Numbers of the meaningful system-control registers (10_state.md R20). -/
def badVAddrNum : Reg := 8#5
def srNum : Reg := 12#5
def causeNum : Reg := 13#5
def epcNum : Reg := 14#5
def prIdNum : Reg := 15#5

/-- The system-control bank after reset (70_reset_and_hazards.md R260). -/
def c0AtReset (p : Config.Params) : Vector Word 32 :=
  ((Vector.replicate 32 0#32).set 12 p.srReset).set 15 p.pridValue

/-- The machine right after `Construct` (R260) with the spec's default parameters, no peripheral handler and an
all-zero firmware image (DESIGN CHOICE for the last two, unsafe: log 1, log 2), before any input. -/
def State.reset : State :=
  { gpr := Vector.replicate 32 0#32
    pc := Config.defaults.resetVector
    npc := Config.defaults.resetVector + 4#32
    curPc := Config.defaults.resetVector
    hi := 0#32
    lo := 0#32
    ldArmed := none
    ldCommit := none
    dsCur := false
    dsNext := false
    c0 := c0AtReset Config.defaults
    mem := []
    params := Config.defaults
    irqIn := []
    ioIn := []
    ioDraws := 0
    ioCalls := []
    log := [] }

end Sys2Proof.Machine
end

