-- ==== Sys2Proof/Machine/Ops.lean ====
section
/-! DEFINITION. The operations the meanings share: memory, the bus and its handlers (20_memory.md), register writes and
control transfer (40_execution_cycle.md R108 to R110), exception entry and return (60_exceptions.md R240, R244). -/

namespace Sys2Proof.Machine

/-- What a meaning answers. -/
abbrev Result := Host.Outcome State Fault Refusal

/-! ### Memory: a list of cells in one canonical form -/

/-- What an unlisted address reads as: 0 (10_state.md R30 for `ram` and `scratch`; for `fw` log 1). -/
abbrev Memory.unlisted : Byte := 0#8

/-- The byte at a physical address. -/
def Memory.read : Memory → Nat → Byte
  | [], _ => Memory.unlisted
  | c :: m, a => if c.1 = a then c.2 else Memory.read m a

/-- Put a cell in its place, over an old one of the same address. -/
def Memory.insert (a : Nat) (v : Byte) : Memory → Memory
  | [] => [(a, v)]
  | c :: m =>
    if a < c.1 then (a, v) :: c :: m
    else if a = c.1 then (a, v) :: m
    else c :: Memory.insert a v m

/-- Write one byte; the value an unlisted address reads as is not listed. -/
def Memory.write (m : Memory) (a : Nat) (v : Byte) : Memory :=
  if v = Memory.unlisted then m.filter (fun c => c.1 != a) else Memory.insert a v m

/-- Canonical form: addresses strictly rising, no entry equal to what an unlisted address reads as. -/
def Memory.wf : Memory → Bool
  | [] => true
  | c :: m => c.2 != Memory.unlisted && m.all (fun d => decide (c.1 < d.1)) && Memory.wf m

/-- `n` bytes at `a`, least significant first, zero-extended (20_memory.md R48). -/
def Memory.readLE (m : Memory) (a : Nat) : Nat → Word
  | 0 => 0#32
  | n + 1 => (Memory.readLE m (a + 1) n <<< (8 : Nat)) ||| (m.read a).setWidth 32

/-- The low `n` bytes of `v` at `a`, least significant first (20_memory.md R48). -/
def Memory.writeLE (m : Memory) (a : Nat) : Nat → Word → Memory
  | 0, _ => m
  | n + 1, v => Memory.writeLE (m.write a (v.extractLsb' 0 8)) (a + 1) n (v >>> (8 : Nat))

/-- The bytes of a list from address `a` on, as canonical cells. -/
def Memory.ofBytes (a : Nat) : List Byte → Memory
  | [] => []
  | b :: bs => if b = Memory.unlisted then Memory.ofBytes (a + 1) bs else (a, b) :: Memory.ofBytes (a + 1) bs

/-! ### Registers -/

/-- `x[i]`, with `x[0] = 0` (10_state.md R11). -/
def State.reg (s : State) (i : Reg) : Word :=
  if i = 0#5 then 0#32 else s.gpr[i.toNat]

/-- A plain register-file write; none for register 0 (10_state.md R11). -/
def State.setReg (s : State) (i : Reg) (v : Word) : State :=
  { s with gpr := if i = 0#5 then s.gpr else s.gpr.set i.toNat v }

/-- `c0[n]` (10_state.md R20, R21). -/
def State.c0Get (s : State) (n : Reg) : Word := s.c0[n.toNat]

/-- `c0[n] <- v`, all 32 bits (10_state.md R21). -/
def State.c0Set (s : State) (n : Reg) (v : Word) : State :=
  { s with c0 := s.c0.set n.toNat v }

/-- `SR`. -/
def State.sr (s : State) : Word := s.c0Get srNum
/-- `CAUSE`. -/
def State.cause (s : State) : Word := s.c0Get causeNum
/-- `EPC`. -/
def State.epc (s : State) : Word := s.c0Get epcNum
/-- `BADVADDR`. -/
def State.badVAddr (s : State) : Word := s.c0Get badVAddrNum
/-- `PRID`. -/
def State.prId (s : State) : Word := s.c0Get prIdNum

/-- The slot of the delay buffer holds a write to register `i`. -/
def pendsOn (slot : Option Pending) (i : Reg) : Bool :=
  match slot with
  | some p => p.reg == i
  | none => false

/-- Discard an entry of `ld_commit` for register `i`. -/
def State.cancelCommit (s : State) (i : Reg) : State :=
  { s with ldCommit := if pendsOn s.ldCommit i then none else s.ldCommit }

/-- `x[i] <- v`, the immediate register write (40_execution_cycle.md R108), for both values of
`LOAD_WRITE_PRECEDENCE` (log 3). -/
def State.writeReg (s : State) (i : Reg) (v : Word) : State :=
  if i = 0#5 then s
  else
    match s.params.precedence with
    | .directWriteCancels => (s.setReg i v).cancelCommit i
    | .deferredWriteWins => s.setReg i v

/-- `x[i] <-delayed v`, the deferred register write (40_execution_cycle.md R109). -/
def State.armReg (s : State) (i : Reg) (v : Word) : State :=
  if i = 0#5 then s
  else { s.cancelCommit i with ldArmed := some ⟨i, v⟩ }

/-- The value LWL and LWR merge into: the in-flight one of a pending load, else the register's (47_load_store.md R186). -/
def State.inFlight (s : State) (i : Reg) : Word :=
  match s.ldCommit with
  | some p => if p.reg = i then p.value else s.reg i
  | none => s.reg i

/-- `npc <- target; ds_next <- 1`, the deferred control transfer (40_execution_cycle.md R110). -/
def State.jumpTo (s : State) (target : Word) : State :=
  { s with npc := target, dsNext := true }

/-- The target every branch computes, from the in-step `pc` (45_branch.md R160). -/
def State.branchTarget (s : State) (imm : Half) : Word := s.pc + branchOffset imm

/-- A branch: the transfer if the condition holds, else nothing (45_branch.md R160). -/
def State.branchIf (s : State) (c : Bool) (imm : Half) : State :=
  if c then s.jumpTo (s.branchTarget imm) else s

/-! ### Exceptions -/

/-- The ten causes (60_exceptions.md R230), each with what it records besides `EPC`, `BD` and `ExcCode`. -/
inductive Exc where
  | int
  | adEL (bad : Word)
  | adES (bad : Word)
  | ibe
  | dbe
  | sys
  | bp
  | ri
  | cpU (ce : BitVec 2)
  | ov
  deriving DecidableEq, Repr

/-- The code written into `CAUSE.ExcCode` (R230). -/
def Exc.code : Exc → BitVec 5
  | .int => 0#5
  | .adEL _ => 4#5
  | .adES _ => 5#5
  | .ibe => 6#5
  | .dbe => 7#5
  | .sys => 8#5
  | .bp => 9#5
  | .ri => 10#5
  | .cpU _ => 11#5
  | .ov => 12#5

/-- `CAUSE` after entry (R240): `ExcCode`, `BD`, and `CE` for coprocessor-unusable only. -/
def Exc.causeAfter (e : Exc) (bd : Bool) (cause : Word) : Word :=
  match e with
  | .cpU ce => causeWithCE (causeWithEntry cause bd e.code) ce
  | _ => causeWithEntry cause bd e.code

/-- `BADVADDR` is written by the address errors only (R241). -/
def Exc.recordBad (e : Exc) (s : State) : State :=
  match e with
  | .adEL bad => s.c0Set badVAddrNum bad
  | .adES bad => s.c0Set badVAddrNum bad
  | _ => s

/-- The vector the boot-exception-vector bit selects (R242). -/
def vector (p : Config.Params) (sr : Word) : Word := if srBEV sr then p.vecBoot else p.vecGeneral

/-- The saved return address: the branch before a delay slot, else the instruction itself (R240). -/
def savedPc (at' : Word) (bd : Bool) : Word := if bd then at' - 4#32 else at'

/-- `Enter(code, at, bd, bad, ce)`, exception entry (R240). -/
def State.enter (s : State) (e : Exc) (at' : Word) (bd : Bool) : State :=
  let vec := vector s.params s.sr
  let t := s.c0Set srNum (pushModes s.sr)
  let t := t.c0Set causeNum (e.causeAfter bd s.cause)
  let t := t.c0Set epcNum (savedPc at' bd)
  { e.recordBad t with pc := vec, npc := vec + 4#32 }

/-- `raise E(info)` inside a step (R240): entry at `cur_pc` with the delay-slot marker. -/
def State.raise (s : State) (e : Exc) : State := s.enter e s.curPc s.dsCur

/-- The return from exception pops the mode stack and writes nothing else (49_system.md R214, 60_exceptions.md R244). -/
def State.popModeStack (s : State) : State := s.c0Set srNum (popModes s.sr)

/-! ### The bus -/

/-- The regions of the physical address space (20_memory.md R42, R43). -/
inductive Region where
  | main
  | scratch
  | io
  | firmware
  | unmapped
  deriving DecidableEq, Repr

/-- `paddr = vaddr & 0x1FFFFFFF` (20_memory.md R41). -/
def translateAddr (vaddr : Word) : Nat := (vaddr &&& Config.physMask).toNat

/-- The pass-through marker `vaddr[31:29]` (20_memory.md R41, R55). -/
def segmentOf (vaddr : Word) : BitVec 3 := vaddr.extractLsb' 29 3

/-- `p` lies in the `size` bytes from `base` on. -/
def within (p base size : Nat) : Bool := decide (base ≤ p) && decide (p < base + size)

/-- `Region(paddr)` (20_memory.md R43), with the bases of the configuration. -/
def region (p : Config.Params) (paddr : Nat) : Region :=
  if within paddr Config.ramBase Config.ramSize then .main
  else if within paddr p.scratchBase Config.scratchSize then .scratch
  else if within paddr p.ioBase Config.ioSize then .io
  else if within paddr p.fwBase Config.fwSize then .firmware
  else .unmapped

/-- Who answers an access. -/
inductive Target where
  /-- Main or scratch memory: read and written (20_memory.md R44). -/
  | storage
  /-- Boot firmware: read only (R45). -/
  | firmware
  /-- A registered peripheral handler (R46). -/
  | handler
  /-- Nobody: unmapped, or I/O with no handler (R46, R47). -/
  | nobody
  deriving DecidableEq, Repr

/-- A registered sub-range covers the physical address (20_memory.md R46). -/
def handled (p : Config.Params) (paddr : Nat) : Bool := p.ioMap.any (fun r => r.covers paddr)

/-- Routing of an access by its physical address (20_memory.md R43, R46). -/
def target (p : Config.Params) (paddr : Nat) : Target :=
  match region p paddr with
  | .main => .storage
  | .scratch => .storage
  | .firmware => .firmware
  | .io => if handled p paddr then .handler else .nobody
  | .unmapped => .nobody

/-- Bytes of an access. -/
def Width.bytes : Width → Nat
  | .byte => 1
  | .half => 2
  | .word => 4

/-- Bits of an access, what a handler is told (20_memory.md R55). -/
def Width.bits (w : Width) : Nat := 8 * w.bytes

/-- The low bits of a value that the access moves: `v[8n-1:0]`, zero-extended (20_memory.md R52, R53). -/
def Width.truncate (w : Width) (v : Word) : Word :=
  match w with
  | .byte => zextByte v
  | .half => zextHalf v
  | .word => v

/-- Alignment (20_memory.md R49), checked on the virtual address. -/
def Width.aligned (w : Width) (vaddr : Word) : Bool :=
  match w with
  | .byte => true
  | .half => !vaddr.getLsbD 0
  | .word => lowBits vaddr == 0#2

/-- Append a diagnostic event (70_reset_and_hazards.md R272). -/
def State.logEvent (s : State) (e : LogEvent) : State := { s with log := s.log ++ [e] }

/-- The answer the handler will give to the next call: the listed one, else a free value (log 4). -/
def State.nextReply (s : State) : Config.IoReply :=
  match s.ioIn with
  | r :: _ => r
  | [] => Config.freeIoReply s.ioDraws

/-- Make one call on a handler: the call is recorded and its answer used up (20_memory.md R55). -/
def State.callHandler (s : State) (c : IoCall) : State :=
  match s.ioIn with
  | _ :: rest => { s with ioIn := rest, ioCalls := s.ioCalls ++ [c] }
  | [] => { s with ioDraws := s.ioDraws + 1, ioCalls := s.ioCalls ++ [c] }

/-- What a bus read answers: the value, or none where the access ends in a bus error; and the state after it. -/
structure BusRead where
  value : Option Word
  state : State
  deriving DecidableEq, Repr

/-- What a bus write answers: whether it was accepted, and the state after it. -/
structure BusWrite where
  ok : Bool
  state : State
  deriving DecidableEq, Repr

/-- Reading through a handler (20_memory.md R52, R55, R56). -/
def State.readHandler (s : State) (vaddr : Word) (w : Width) : BusRead :=
  let t := s.callHandler (.read w.bits (translateAddr vaddr) (segmentOf vaddr))
  match s.nextReply with
  | .value v => ⟨some (w.truncate v), t⟩
  | .fault => ⟨none, t⟩

/-- `MemRead(vaddr, n)` (20_memory.md R52); the caller has checked alignment (log 15). -/
def State.memRead (s : State) (vaddr : Word) (w : Width) : BusRead :=
  match target s.params (translateAddr vaddr) with
  | .storage => ⟨some (s.mem.readLE (translateAddr vaddr) w.bytes), s⟩
  | .firmware => ⟨some (s.mem.readLE (translateAddr vaddr) w.bytes), s⟩
  | .handler => s.readHandler vaddr w
  | .nobody => ⟨some 0#32, s.logEvent (.unmappedRead vaddr w.bytes)⟩

/-- `MemWrite(vaddr, n, v)` (20_memory.md R53); the caller has checked alignment (log 15). -/
def State.memWrite (s : State) (vaddr : Word) (w : Width) (v : Word) : BusWrite :=
  match target s.params (translateAddr vaddr) with
  | .storage => ⟨true, { s with mem := s.mem.writeLE (translateAddr vaddr) w.bytes v }⟩
  | .firmware => ⟨true, s.logEvent (.firmwareWrite vaddr w.bytes (w.truncate v))⟩
  | .handler =>
    let t := s.callHandler (.write w.bits (translateAddr vaddr) (segmentOf vaddr) (w.truncate v))
    match s.nextReply with
    | .value _ => ⟨true, t⟩
    | .fault => ⟨false, t⟩
  | .nobody => ⟨true, s.logEvent (.unmappedWrite vaddr w.bytes (w.truncate v))⟩

/-- `MemFetch(vaddr)` (20_memory.md R54): none where the instruction-bus-error exception is raised. -/
def State.memFetch (s : State) (vaddr : Word) : BusRead :=
  match target s.params (translateAddr vaddr) with
  | .storage => ⟨some (s.mem.readLE (translateAddr vaddr) 4), s⟩
  | .firmware => ⟨some (s.mem.readLE (translateAddr vaddr) 4), s⟩
  | .handler => s.readHandler vaddr .word
  | .nobody => ⟨none, s⟩

/-! ### What loads and stores share (47_load_store.md R180) -/

/-- The effective address of a load or store. -/
def State.ea (s : State) (rs : Reg) (offset : Half) : Word := effAddr (s.reg rs) offset

/-- The end of a load: a handler fault raises DBE and arms nothing, else the deferred write (R180; 20_memory.md R56). -/
def BusRead.deliver (r : BusRead) (rt : Reg) (widen : Word → Word) : State :=
  match r.value with
  | some v => r.state.armReg rt (widen v)
  | none => r.state.raise .dbe

/-- The end of a store: a handler fault raises DBE (20_memory.md R56). -/
def BusWrite.finish (r : BusWrite) : State :=
  if r.ok then r.state else r.state.raise .dbe

/-- An aligned load: alignment first, then the bus, then the deferred write (R180). -/
def State.load (s : State) (w : Width) (widen : Word → Word) (rt : Reg) (offset : Half) (rs : Reg) : State :=
  if w.aligned (s.ea rs offset) then (s.memRead (s.ea rs offset) w).deliver rt widen
  else s.raise (.adEL (s.ea rs offset))

/-- An aligned store: alignment first, then the bus (R180). -/
def State.store (s : State) (w : Width) (rt : Reg) (offset : Half) (rs : Reg) : State :=
  if w.aligned (s.ea rs offset) then (s.memWrite (s.ea rs offset) w (s.reg rt)).finish
  else s.raise (.adES (s.ea rs offset))

/-- LWL and LWR: the aligned word merged into the in-flight value (R186, R187). -/
def State.loadMerge (s : State) (merge : BitVec 2 → Word → Word → Word) (rt : Reg) (offset : Half) (rs : Reg) : State :=
  (s.memRead (alignedWord (s.ea rs offset)) .word).deliver rt
    (fun wv => merge (lowBits (s.ea rs offset)) wv (s.inFlight rt))

/-- SWL and SWR: one aligned read, then one aligned write of the merged word (R191, R192); the first fault wins
(60_exceptions.md R238). -/
def State.storeMerge (s : State) (merge : BitVec 2 → Word → Word → Word) (rt : Reg) (offset : Half) (rs : Reg) : State :=
  let r := s.memRead (alignedWord (s.ea rs offset)) .word
  match r.value with
  | some wv =>
    (r.state.memWrite (alignedWord (s.ea rs offset)) .word (merge (lowBits (s.ea rs offset)) wv (s.reg rt))).finish
  | none => r.state.raise .dbe

end Sys2Proof.Machine
end

