-- ==== Sys2Proof/Machine/Cycle.lean ====
section
/-! DEFINITION. What a step does around the execution of an instruction: the interrupt poll (60_exceptions.md R236), the
phases 0 to 4 of the step (40_execution_cycle.md R100 to R104), and where the next instruction word stands. -/

namespace Sys2Proof.Machine

/-! ### The interrupt poll -/

/-- `Poll(irq)` (60_exceptions.md R236). -/
def State.poll (s : State) (irq : Bool) : State :=
  let t := s.c0Set causeNum (causeWithIrq s.cause irq)
  if interruptTaken t.sr t.cause then { t.enter .int t.pc t.dsNext with dsNext := false } else t

/-- The level the driver presents at the coming poll; 0 once the listed levels ran out (log 5). -/
def State.irqLevel (s : State) : Bool :=
  match s.irqIn with
  | l :: _ => l
  | [] => false

/-- The poll the driver makes before every step (60_exceptions.md R235), with the listed level used up. -/
def State.pollInput (s : State) : State :=
  { s with irqIn := s.irqIn.tail }.poll s.irqLevel

/-! ### Phases 0 to 4 -/

/-- Phase 0 (40_execution_cycle.md R101). -/
def State.ageMarker (s : State) : State := { s with dsCur := s.dsNext, dsNext := false }

/-- Phase 1: commit `ld_commit` by a plain register-file write (R102). -/
def State.commitPending (s : State) : State :=
  match s.ldCommit with
  | some p => { s.setReg p.reg p.value with ldCommit := none }
  | none => s

/-- Phase 2: age the delay buffer (R102). -/
def State.ageBuffer (s : State) : State := { s with ldCommit := s.ldArmed, ldArmed := none }

/-- Phases 0 to 2, which happen in every step (R102, R107). -/
def State.beginStep (s : State) : State := s.ageMarker.commitPending.ageBuffer

/-- What phase 3 ends in. -/
inductive Fetched where
  /-- The instruction word, and the state after the fetch. -/
  | word (w : Word) (s : State)
  /-- An exception was entered; phases 4 and 5 are not performed (R103, 90_conflicts.md C6). -/
  | raised (s : State)
  deriving DecidableEq, Repr

/-- Phase 3, first part: `cur_pc <- pc` (R103). -/
def State.latch (s : State) : State := { s with curPc := s.pc }

/-- What the bus's answer to a fetch means: a word, or the instruction bus error (20_memory.md R54). -/
def BusRead.fetched (r : BusRead) : Fetched :=
  match r.value with
  | some w => .word w r.state
  | none => .raised (r.state.raise .ibe)

/-- Phase 3: latch `cur_pc`, check alignment, fetch (R103; 20_memory.md R50, R54). -/
def State.fetch (s : State) : Fetched :=
  if lowBits s.pc = 0#2 then (s.latch.memFetch s.pc).fetched else .raised (s.latch.raise (.adEL s.pc))

/-- Phase 4: advance (R104). -/
def State.advance (s : State) : State := { s with pc := s.npc, npc := s.npc + 4#32 }

/-- Phase 6: what a step reports to the driver (R106; log 9). -/
def stepCycles (_s : State) : Nat := Config.cyclesPerStep

/-! ### Placing an instruction where the next step fetches it -/

/-- The address the next step fetches from: `pc` after its poll. -/
def State.fetchAddr (s : State) : Word := s.pollInput.pc

/-- An instruction word stands at the virtual address for the coming fetch: in its memory, or as the answer the handler
will give; nowhere if nobody answers there (log 18). -/
def State.placeAt (s : State) (vaddr w : Word) : State :=
  match target s.params (translateAddr vaddr) with
  | .storage => { s with mem := s.mem.writeLE (translateAddr vaddr) 4 w }
  | .firmware => { s with mem := s.mem.writeLE (translateAddr vaddr) 4 w }
  | .handler => { s with ioIn := .value w :: s.ioIn }
  | .nobody => s

/-- A word can be fetched from the virtual address. -/
def State.fetchable (s : State) (vaddr : Word) : Bool :=
  lowBits vaddr == 0#2 && target s.params (translateAddr vaddr) != .nobody

/-- The coming poll takes an interrupt (60_exceptions.md R236). -/
def State.pollTakes (s : State) : Bool := interruptTaken s.sr (causeWithIrq s.cause s.irqLevel)

/-- The first address of main memory, where a word can be fetched under every configuration (00_scope.md R4 `RAM_BASE`). -/
def mainStart : Word := BitVec.ofNat 32 Config.ramBase

/-- The next step fetches from main memory: the program counter moves there, and an interrupt that the coming poll would
take is disabled (log 18). -/
def State.toMainMemory (s : State) : State :=
  { (if s.pollTakes then s.c0Set srNum (s.sr &&& ~~~1#32) else s) with pc := mainStart, npc := mainStart + 4#32 }

/-- The instruction word stands where the next step fetches it; where nothing can be fetched there, the fetch moves to
main memory first (log 18). -/
def State.placeNext (s : State) (w : Word) : State :=
  if s.fetchable s.fetchAddr then s.placeAt s.fetchAddr w else s.toMainMemory.placeAt mainStart w

end Sys2Proof.Machine
end

