-- ==== Sys2Proof/Machine/Arithmetic.lean ====
section
/-! DEFINITION. Add and subtract (41_arithmetic.md). -/

namespace Sys2Proof.Machine

/-- What ADD, ADDI and SUB share: overflow raises before the write, which then does not happen (R120). -/
def checkedWrite (overflow : Bool) (rd : Reg) (v : Word) (s : State) : Result :=
  if overflow then .next (s.raise .ov) else .next (s.writeReg rd v)

/-- ADD (R121). -/
def execAdd (rd rs rt : Reg) (s : State) : Result :=
  checkedWrite (addOverflows (s.reg rs) (s.reg rt)) rd (s.reg rs + s.reg rt) s

/-- ADDU (R122). -/
def execAddu (rd rs rt : Reg) (s : State) : Result :=
  .next (s.writeReg rd (s.reg rs + s.reg rt))

/-- SUB (R123). -/
def execSub (rd rs rt : Reg) (s : State) : Result :=
  checkedWrite (subOverflows (s.reg rs) (s.reg rt)) rd (s.reg rs - s.reg rt) s

/-- SUBU (R124). -/
def execSubu (rd rs rt : Reg) (s : State) : Result :=
  .next (s.writeReg rd (s.reg rs - s.reg rt))

/-- ADDI (R125). -/
def execAddi (rt rs : Reg) (imm : Half) (s : State) : Result :=
  checkedWrite (addOverflows (s.reg rs) (sextImm imm)) rt (s.reg rs + sextImm imm) s

/-- ADDIU (R126): the immediate is sign-extended. -/
def execAddiu (rt rs : Reg) (imm : Half) (s : State) : Result :=
  .next (s.writeReg rt (s.reg rs + sextImm imm))


end Sys2Proof.Machine
end

