-- ==== Sys2Proof/Machine/Branch.lean ====
section
/-! DEFINITION. Conditional branches (45_branch.md), on the in-step `pc` and `npc`. -/

namespace Sys2Proof.Machine

/-- Register 31, the link register (45_branch.md R167, 46_jump.md R172, D29). -/
def linkReg : Reg := 31#5

/-- The and-link branches: condition and target are taken before the link write, and the link is written whether or
not the branch is taken (R167, R168). -/
def branchLink (c : Bool) (imm : Half) (s : State) : State :=
  (s.writeReg linkReg s.npc).branchIf c imm

/-- BEQ (R161). -/
def execBeq (rs rt : Reg) (offset : Half) (s : State) : Result :=
  .next (s.branchIf (s.reg rs == s.reg rt) offset)

/-- BNE (R162). -/
def execBne (rs rt : Reg) (offset : Half) (s : State) : Result :=
  .next (s.branchIf (s.reg rs != s.reg rt) offset)

/-- BLEZ (R163). -/
def execBlez (rs : Reg) (offset : Half) (s : State) : Result :=
  .next (s.branchIf (lez (s.reg rs)) offset)

/-- BGTZ (R164). -/
def execBgtz (rs : Reg) (offset : Half) (s : State) : Result :=
  .next (s.branchIf (gtz (s.reg rs)) offset)

/-- BLTZ (R165). -/
def execBltz (rs : Reg) (offset : Half) (s : State) : Result :=
  .next (s.branchIf (ltz (s.reg rs)) offset)

/-- BGEZ (R166). -/
def execBgez (rs : Reg) (offset : Half) (s : State) : Result :=
  .next (s.branchIf (gez (s.reg rs)) offset)

/-- BLTZAL (R167). -/
def execBltzal (rs : Reg) (offset : Half) (s : State) : Result :=
  .next (branchLink (ltz (s.reg rs)) offset s)

/-- BGEZAL (R168). -/
def execBgezal (rs : Reg) (offset : Half) (s : State) : Result :=
  .next (branchLink (gez (s.reg rs)) offset s)


end Sys2Proof.Machine
end

