-- ==== Sys2Proof/Machine/Compare.lean ====
section
/-! DEFINITION. Compare-and-set (44_compare.md). -/

namespace Sys2Proof.Machine

/-- SLT (R151). -/
def execSlt (rd rs rt : Reg) (s : State) : Result :=
  .next (s.writeReg rd (truthWord (signedLt (s.reg rs) (s.reg rt))))

/-- SLTU (R152). -/
def execSltu (rd rs rt : Reg) (s : State) : Result :=
  .next (s.writeReg rd (truthWord (unsignedLt (s.reg rs) (s.reg rt))))

/-- SLTI (R153). -/
def execSlti (rt rs : Reg) (imm : Half) (s : State) : Result :=
  .next (s.writeReg rt (truthWord (signedLt (s.reg rs) (sextImm imm))))

/-- SLTIU (R154): sign-extended, then compared unsigned. -/
def execSltiu (rt rs : Reg) (imm : Half) (s : State) : Result :=
  .next (s.writeReg rt (truthWord (unsignedLt (s.reg rs) (sextImm imm))))


end Sys2Proof.Machine
end

