-- ==== Sys2Proof/Machine/Jump.lean ====
section
/-! DEFINITION. Jumps (46_jump.md), on the in-step `npc` and `cur_pc`. -/

namespace Sys2Proof.Machine

/-- J (R171). -/
def execJ (target : BitVec 26) (s : State) : Result :=
  .next (s.jumpTo (jumpTarget s.curPc target))

/-- JAL (R172): the link is the in-step `npc`. -/
def execJal (target : BitVec 26) (s : State) : Result :=
  .next ((s.writeReg linkReg s.npc).jumpTo (jumpTarget s.curPc target))

/-- JR (R173): the register value is neither checked nor truncated. -/
def execJr (rs : Reg) (s : State) : Result :=
  .next (s.jumpTo (s.reg rs))

/-- JALR (R174): the source is read before the link is written to `rd`. -/
def execJalr (rd rs : Reg) (s : State) : Result :=
  .next ((s.writeReg rd s.npc).jumpTo (s.reg rs))


end Sys2Proof.Machine
end

