-- ==== Sys2Proof/Machine/LoadStore.lean ====
section
/-! DEFINITION. Loads and stores (47_load_store.md). -/

namespace Sys2Proof.Machine

/-- LB (R181). -/
def execLb (rt : Reg) (offset : Half) (rs : Reg) (s : State) : Result :=
  .next (s.load .byte sextByte rt offset rs)

/-- LBU (R182). -/
def execLbu (rt : Reg) (offset : Half) (rs : Reg) (s : State) : Result :=
  .next (s.load .byte zextByte rt offset rs)

/-- LH (R183). -/
def execLh (rt : Reg) (offset : Half) (rs : Reg) (s : State) : Result :=
  .next (s.load .half sextHalf rt offset rs)

/-- LHU (R184). -/
def execLhu (rt : Reg) (offset : Half) (rs : Reg) (s : State) : Result :=
  .next (s.load .half zextHalf rt offset rs)

/-- LW (R185). -/
def execLw (rt : Reg) (offset : Half) (rs : Reg) (s : State) : Result :=
  .next (s.load .word id rt offset rs)

/-- LWL (R186). -/
def execLwl (rt : Reg) (offset : Half) (rs : Reg) (s : State) : Result :=
  .next (s.loadMerge lwlMerge rt offset rs)

/-- LWR (R187). -/
def execLwr (rt : Reg) (offset : Half) (rs : Reg) (s : State) : Result :=
  .next (s.loadMerge lwrMerge rt offset rs)

/-- SB (R188). -/
def execSb (rt : Reg) (offset : Half) (rs : Reg) (s : State) : Result :=
  .next (s.store .byte rt offset rs)

/-- SH (R189). -/
def execSh (rt : Reg) (offset : Half) (rs : Reg) (s : State) : Result :=
  .next (s.store .half rt offset rs)

/-- SW (R190). -/
def execSw (rt : Reg) (offset : Half) (rs : Reg) (s : State) : Result :=
  .next (s.store .word rt offset rs)

/-- SWL (R191). -/
def execSwl (rt : Reg) (offset : Half) (rs : Reg) (s : State) : Result :=
  .next (s.storeMerge swlMerge rt offset rs)

/-- SWR (R192). -/
def execSwr (rt : Reg) (offset : Half) (rs : Reg) (s : State) : Result :=
  .next (s.storeMerge swrMerge rt offset rs)


end Sys2Proof.Machine
end

