-- ==== Sys2Proof/Machine/Logical.lean ====
section
/-! DEFINITION. Logical instructions and LUI (42_logical.md). -/

namespace Sys2Proof.Machine

/-- AND (R131). -/
def execAnd (rd rs rt : Reg) (s : State) : Result :=
  .next (s.writeReg rd (s.reg rs &&& s.reg rt))

/-- OR (R132). -/
def execOr (rd rs rt : Reg) (s : State) : Result :=
  .next (s.writeReg rd (s.reg rs ||| s.reg rt))

/-- XOR (R133). -/
def execXor (rd rs rt : Reg) (s : State) : Result :=
  .next (s.writeReg rd (s.reg rs ^^^ s.reg rt))

/-- NOR (R134). -/
def execNor (rd rs rt : Reg) (s : State) : Result :=
  .next (s.writeReg rd (~~~(s.reg rs ||| s.reg rt)))

/-- ANDI (R135): the immediate is zero-extended. -/
def execAndi (rt rs : Reg) (imm : Half) (s : State) : Result :=
  .next (s.writeReg rt (s.reg rs &&& zextImm imm))

/-- ORI (R136): the immediate is zero-extended. -/
def execOri (rt rs : Reg) (imm : Half) (s : State) : Result :=
  .next (s.writeReg rt (s.reg rs ||| zextImm imm))

/-- XORI (R137): the immediate is zero-extended. -/
def execXori (rt rs : Reg) (imm : Half) (s : State) : Result :=
  .next (s.writeReg rt (s.reg rs ^^^ zextImm imm))

/-- LUI (R138): an immediate write, not a deferred one. -/
def execLui (rt : Reg) (imm : Half) (s : State) : Result :=
  .next (s.writeReg rt (upperImm imm))


end Sys2Proof.Machine
end

