-- ==== Sys2Proof/Machine/MulDiv.lean ====
section
/-! DEFINITION. Multiply, divide and accumulator moves (48_muldiv.md). -/

namespace Sys2Proof.Machine

/-- A 64-bit product split across the accumulators (R200). -/
def State.setProduct (s : State) (p : BitVec 64) : State :=
  { s with hi := p.extractLsb' 32 32, lo := p.extractLsb' 0 32 }

/-- Quotient to `lo`, remainder to `hi` (R200). -/
def State.setQuotient (s : State) (q r : Word) : State := { s with hi := r, lo := q }

/-- The quotient DIV writes, its two corners included (R203). -/
def divQuotient (n d : Word) : Word :=
  if d = 0#32 then (if 0 ≤ n.toInt then 0xFFFFFFFF#32 else 1#32)
  else if n = 0x80000000#32 ∧ d = 0xFFFFFFFF#32 then 0x80000000#32
  else BitVec.ofInt 32 (n.toInt.tdiv d.toInt)

/-- The remainder DIV writes (R203). -/
def divRemainder (n d : Word) : Word :=
  if d = 0#32 then n
  else if n = 0x80000000#32 ∧ d = 0xFFFFFFFF#32 then 0#32
  else BitVec.ofInt 32 (n.toInt.tmod d.toInt)

/-- The quotient DIVU writes (R204). -/
def divuQuotient (n d : Word) : Word :=
  if d = 0#32 then 0xFFFFFFFF#32 else BitVec.ofNat 32 (n.toNat / d.toNat)

/-- The remainder DIVU writes (R204). -/
def divuRemainder (n d : Word) : Word :=
  if d = 0#32 then n else BitVec.ofNat 32 (n.toNat % d.toNat)

/-- MULT (R201): the exact signed product. -/
def execMult (rs rt : Reg) (s : State) : Result :=
  .next (s.setProduct (BitVec.ofInt 64 ((s.reg rs).toInt * (s.reg rt).toInt)))

/-- MULTU (R202): the exact unsigned product. -/
def execMultu (rs rt : Reg) (s : State) : Result :=
  .next (s.setProduct (BitVec.ofNat 64 ((s.reg rs).toNat * (s.reg rt).toNat)))

/-- DIV (R203): `rs` the numerator, `rt` the denominator. -/
def execDiv (rs rt : Reg) (s : State) : Result :=
  .next (s.setQuotient (divQuotient (s.reg rs) (s.reg rt)) (divRemainder (s.reg rs) (s.reg rt)))

/-- DIVU (R204). -/
def execDivu (rs rt : Reg) (s : State) : Result :=
  .next (s.setQuotient (divuQuotient (s.reg rs) (s.reg rt)) (divuRemainder (s.reg rs) (s.reg rt)))

/-- MFHI (R205): an immediate write. -/
def execMfhi (rd : Reg) (s : State) : Result :=
  .next (s.writeReg rd s.hi)

/-- MFLO (R206): an immediate write. -/
def execMflo (rd : Reg) (s : State) : Result :=
  .next (s.writeReg rd s.lo)

/-- MTHI (R207). -/
def execMthi (rs : Reg) (s : State) : Result :=
  .next { s with hi := s.reg rs }

/-- MTLO (R208). -/
def execMtlo (rs : Reg) (s : State) : Result :=
  .next { s with lo := s.reg rs }


end Sys2Proof.Machine
end

