-- ==== Sys2Proof/Machine/Shift.lean ====
section
/-! DEFINITION. Shifts (43_shift.md). -/

namespace Sys2Proof.Machine

/-- SLL (R141). -/
def execSll (rd rt : Reg) (sa : BitVec 5) (s : State) : Result :=
  .next (s.writeReg rd (s.reg rt <<< sa.toNat))

/-- SRL (R142). -/
def execSrl (rd rt : Reg) (sa : BitVec 5) (s : State) : Result :=
  .next (s.writeReg rd (s.reg rt >>> sa.toNat))

/-- SRA (R143). -/
def execSra (rd rt : Reg) (sa : BitVec 5) (s : State) : Result :=
  .next (s.writeReg rd ((s.reg rt).sshiftRight sa.toNat))

/-- SLLV (R144): the amount is `x[rs][4:0]`. -/
def execSllv (rd rt rs : Reg) (s : State) : Result :=
  .next (s.writeReg rd (s.reg rt <<< (varShift (s.reg rs)).toNat))

/-- SRLV (R145): the amount is `x[rs][4:0]`. -/
def execSrlv (rd rt rs : Reg) (s : State) : Result :=
  .next (s.writeReg rd (s.reg rt >>> (varShift (s.reg rs)).toNat))

/-- SRAV (R146): the amount is `x[rs][4:0]`. -/
def execSrav (rd rt rs : Reg) (s : State) : Result :=
  .next (s.writeReg rd ((s.reg rt).sshiftRight (varShift (s.reg rs)).toNat))


end Sys2Proof.Machine
end

