-- ==== Sys2Proof/Machine/System.lean ====
section
/-! DEFINITION. System instructions, coprocessor encodings and reserved words (49_system.md). -/

namespace Sys2Proof.Machine

/-- SYSCALL (R210): the code field is ignored and stored nowhere. -/
def execSyscall (_code : BitVec 20) (s : State) : Result :=
  .next (s.raise .sys)

/-- BREAK (R211). -/
def execBrk (_code : BitVec 20) (s : State) : Result :=
  .next (s.raise .bp)

/-- MFC0 (R212): a deferred write; no privilege check. -/
def execMfc0 (rt rd : Reg) (s : State) : Result :=
  .next (s.armReg rt (s.c0Get rd))

/-- MTC0 (R213): a raw write of all 32 bits; no privilege check. -/
def execMtc0 (rt rd : Reg) (s : State) : Result :=
  .next (s.c0Set rd (s.reg rt))

/-- RFE (R214). -/
def execRfe (s : State) : Result :=
  .next s.popModeStack

/-- COP1 (R216): coprocessor 1 is unusable whatever `SR[31:28]` hold. -/
def execCop1 (_cofun : BitVec 26) (s : State) : Result :=
  .next (s.raise (.cpU 1#2))

/-- COP2 (R216): coprocessor 2 is unusable whatever `SR[31:28]` hold. -/
def execCop2 (_cofun : BitVec 26) (s : State) : Result :=
  .next (s.raise (.cpU 2#2))

/-- COP3 (R216): coprocessor 3 is unusable whatever `SR[31:28]` hold. -/
def execCop3 (_cofun : BitVec 26) (s : State) : Result :=
  .next (s.raise (.cpU 3#2))

/-- LWC0 (R217): no address is computed and the bus is not touched. -/
def execLwc0 (_rt : Reg) (_offset : Half) (_rs : Reg) (s : State) : Result :=
  .next (s.raise (.cpU 0#2))

/-- LWC1 (R217): no address is computed and the bus is not touched. -/
def execLwc1 (_rt : Reg) (_offset : Half) (_rs : Reg) (s : State) : Result :=
  .next (s.raise (.cpU 1#2))

/-- LWC2 (R217): no address is computed and the bus is not touched. -/
def execLwc2 (_rt : Reg) (_offset : Half) (_rs : Reg) (s : State) : Result :=
  .next (s.raise (.cpU 2#2))

/-- LWC3 (R217): no address is computed and the bus is not touched. -/
def execLwc3 (_rt : Reg) (_offset : Half) (_rs : Reg) (s : State) : Result :=
  .next (s.raise (.cpU 3#2))

/-- SWC0 (R218): nothing is stored. -/
def execSwc0 (_rt : Reg) (_offset : Half) (_rs : Reg) (s : State) : Result :=
  .next (s.raise (.cpU 0#2))

/-- SWC1 (R218): nothing is stored. -/
def execSwc1 (_rt : Reg) (_offset : Half) (_rs : Reg) (s : State) : Result :=
  .next (s.raise (.cpU 1#2))

/-- SWC2 (R218): nothing is stored. -/
def execSwc2 (_rt : Reg) (_offset : Half) (_rs : Reg) (s : State) : Result :=
  .next (s.raise (.cpU 2#2))

/-- SWC3 (R218): nothing is stored. -/
def execSwc3 (_rt : Reg) (_offset : Half) (_rs : Reg) (s : State) : Result :=
  .next (s.raise (.cpU 3#2))

/-- A reserved word (R219; R215): logged, then RI. It is no constructor of `Instr`: the step performs it where the decoder
refuses the word (log 13). -/
def execReserved (w : Word) (s : State) : Result :=
  .next ((s.logEvent (.reservedInstruction s.curPc w)).raise .ri)


end Sys2Proof.Machine
end

