-- ==== Sys2Proof/Machine/Dispatch.lean ====
section
/-! DEFINITION. One arm for each instruction: phase 5 of the step (40_execution_cycle.md R105). -/

namespace Sys2Proof.Machine

def exec (i : Instr) (s : State) : Host.Outcome State Fault Refusal :=
  match i with
  -- 41_arithmetic.md
  | .add rd rs rt => Sys2Proof.Machine.execAdd rd rs rt s
  | .addu rd rs rt => Sys2Proof.Machine.execAddu rd rs rt s
  | .sub rd rs rt => Sys2Proof.Machine.execSub rd rs rt s
  | .subu rd rs rt => Sys2Proof.Machine.execSubu rd rs rt s
  | .addi rt rs imm => Sys2Proof.Machine.execAddi rt rs imm s
  | .addiu rt rs imm => Sys2Proof.Machine.execAddiu rt rs imm s
  -- 42_logical.md
  | .and rd rs rt => Sys2Proof.Machine.execAnd rd rs rt s
  | .or rd rs rt => Sys2Proof.Machine.execOr rd rs rt s
  | .xor rd rs rt => Sys2Proof.Machine.execXor rd rs rt s
  | .nor rd rs rt => Sys2Proof.Machine.execNor rd rs rt s
  | .andi rt rs imm => Sys2Proof.Machine.execAndi rt rs imm s
  | .ori rt rs imm => Sys2Proof.Machine.execOri rt rs imm s
  | .xori rt rs imm => Sys2Proof.Machine.execXori rt rs imm s
  | .lui rt imm => Sys2Proof.Machine.execLui rt imm s
  -- 43_shift.md
  | .sll rd rt sa => Sys2Proof.Machine.execSll rd rt sa s
  | .srl rd rt sa => Sys2Proof.Machine.execSrl rd rt sa s
  | .sra rd rt sa => Sys2Proof.Machine.execSra rd rt sa s
  | .sllv rd rt rs => Sys2Proof.Machine.execSllv rd rt rs s
  | .srlv rd rt rs => Sys2Proof.Machine.execSrlv rd rt rs s
  | .srav rd rt rs => Sys2Proof.Machine.execSrav rd rt rs s
  -- 44_compare.md
  | .slt rd rs rt => Sys2Proof.Machine.execSlt rd rs rt s
  | .sltu rd rs rt => Sys2Proof.Machine.execSltu rd rs rt s
  | .slti rt rs imm => Sys2Proof.Machine.execSlti rt rs imm s
  | .sltiu rt rs imm => Sys2Proof.Machine.execSltiu rt rs imm s
  -- 45_branch.md
  | .beq rs rt offset => Sys2Proof.Machine.execBeq rs rt offset s
  | .bne rs rt offset => Sys2Proof.Machine.execBne rs rt offset s
  | .blez rs offset => Sys2Proof.Machine.execBlez rs offset s
  | .bgtz rs offset => Sys2Proof.Machine.execBgtz rs offset s
  | .bltz rs offset => Sys2Proof.Machine.execBltz rs offset s
  | .bgez rs offset => Sys2Proof.Machine.execBgez rs offset s
  | .bltzal rs offset => Sys2Proof.Machine.execBltzal rs offset s
  | .bgezal rs offset => Sys2Proof.Machine.execBgezal rs offset s
  -- 46_jump.md
  | .j target => Sys2Proof.Machine.execJ target s
  | .jal target => Sys2Proof.Machine.execJal target s
  | .jr rs => Sys2Proof.Machine.execJr rs s
  | .jalr rd rs => Sys2Proof.Machine.execJalr rd rs s
  -- 47_load_store.md
  | .lb rt offset rs => Sys2Proof.Machine.execLb rt offset rs s
  | .lbu rt offset rs => Sys2Proof.Machine.execLbu rt offset rs s
  | .lh rt offset rs => Sys2Proof.Machine.execLh rt offset rs s
  | .lhu rt offset rs => Sys2Proof.Machine.execLhu rt offset rs s
  | .lw rt offset rs => Sys2Proof.Machine.execLw rt offset rs s
  | .lwl rt offset rs => Sys2Proof.Machine.execLwl rt offset rs s
  | .lwr rt offset rs => Sys2Proof.Machine.execLwr rt offset rs s
  | .sb rt offset rs => Sys2Proof.Machine.execSb rt offset rs s
  | .sh rt offset rs => Sys2Proof.Machine.execSh rt offset rs s
  | .sw rt offset rs => Sys2Proof.Machine.execSw rt offset rs s
  | .swl rt offset rs => Sys2Proof.Machine.execSwl rt offset rs s
  | .swr rt offset rs => Sys2Proof.Machine.execSwr rt offset rs s
  -- 48_muldiv.md
  | .mult rs rt => Sys2Proof.Machine.execMult rs rt s
  | .multu rs rt => Sys2Proof.Machine.execMultu rs rt s
  | .div rs rt => Sys2Proof.Machine.execDiv rs rt s
  | .divu rs rt => Sys2Proof.Machine.execDivu rs rt s
  | .mfhi rd => Sys2Proof.Machine.execMfhi rd s
  | .mflo rd => Sys2Proof.Machine.execMflo rd s
  | .mthi rs => Sys2Proof.Machine.execMthi rs s
  | .mtlo rs => Sys2Proof.Machine.execMtlo rs s
  -- 49_system.md
  | .syscall code => Sys2Proof.Machine.execSyscall code s
  | .brk code => Sys2Proof.Machine.execBrk code s
  | .mfc0 rt rd => Sys2Proof.Machine.execMfc0 rt rd s
  | .mtc0 rt rd => Sys2Proof.Machine.execMtc0 rt rd s
  | .rfe => Sys2Proof.Machine.execRfe s
  | .cop1 cofun => Sys2Proof.Machine.execCop1 cofun s
  | .cop2 cofun => Sys2Proof.Machine.execCop2 cofun s
  | .cop3 cofun => Sys2Proof.Machine.execCop3 cofun s
  | .lwc0 rt offset rs => Sys2Proof.Machine.execLwc0 rt offset rs s
  | .lwc1 rt offset rs => Sys2Proof.Machine.execLwc1 rt offset rs s
  | .lwc2 rt offset rs => Sys2Proof.Machine.execLwc2 rt offset rs s
  | .lwc3 rt offset rs => Sys2Proof.Machine.execLwc3 rt offset rs s
  | .swc0 rt offset rs => Sys2Proof.Machine.execSwc0 rt offset rs s
  | .swc1 rt offset rs => Sys2Proof.Machine.execSwc1 rt offset rs s
  | .swc2 rt offset rs => Sys2Proof.Machine.execSwc2 rt offset rs s
  | .swc3 rt offset rs => Sys2Proof.Machine.execSwc3 rt offset rs s

end Sys2Proof.Machine
end

