-- ==== Sys2Proof/Machine/Step.lean ====
section
/-! DEFINITION. One turn of the driver's loop, `Poll(irq); Step()` (60_exceptions.md R235; log 6), and the placing of an
instruction for the host. -/

namespace Sys2Proof.Machine

/-- Phases 4 and 5 on a fetched word: advance, decode, execute (40_execution_cycle.md R104, R105). -/
def runWord (w : Word) (s : State) : Host.Outcome State Fault Refusal :=
  match decode w with
  | .instr i => exec i s.advance
  | .reserved _ => execReserved w s.advance

/-- `Step()` (40_execution_cycle.md R100). -/
def stepOnly (s : State) : Host.Outcome State Fault Refusal :=
  match s.beginStep.fetch with
  | .word w t => runWord w t
  | .raised t => .next t

/-- The poll before the step, then the step. -/
def step (s : State) : Host.Outcome State Fault Refusal := stepOnly s.pollInput

/-- The state with an instruction of opcode_table.json, of `nbits` bits `w`, stored where `step` fetches next (log 18). -/
def State.withFetchWord (s : State) (nbits w : Nat) : State := s.placeNext (tableWord nbits w)

end Sys2Proof.Machine
end

