-- ==== Sys2Proof/WellFormed.lean ====
section
/-! DEFINITION. Well-formedness. Every field of an `Instr` has exactly its width by its type (30_encoding.md R71), so
every term is an encodable instruction; what is left to check is stated here: the uses the spec tells a portable
program to avoid, and the parameters a core may be constructed from. -/

namespace Sys2Proof

/-- 93_implementation_defined.md U4: uses of an instruction that this core defines and the architecture does not
(link register equal to the source). `false` for those. -/
def Instr.portable : Instr → Bool
  | .jalr rd rs => rd != rs
  | .bltzal rs _ => rs != 31#5
  | .bgezal rs _ => rs != 31#5
  | _ => true

namespace Config

/-- 20_memory.md R46, R55, D23: a sub-range lies in the I/O window, which begins at `ioBase`, and its bounds are
multiples of 4 (log 17). -/
def IoRange.wellFormed (ioBase : Nat) (r : IoRange) : Bool :=
  decide (r.first % 4 = 0) && decide (r.size % 4 = 0) && decide (0 < r.size) &&
    decide (ioBase ≤ r.first) && decide (r.first + r.size ≤ ioBase + ioSize)

/-- Two sub-ranges share no address (R46 "disjoint"). -/
def IoRange.disjoint (a b : IoRange) : Bool :=
  decide (a.first + a.size ≤ b.first) || decide (b.first + b.size ≤ a.first)

/-- No two sub-ranges of the list share an address. -/
def disjointRanges : List IoRange → Bool
  | [] => true
  | r :: rs => rs.all r.disjoint && disjointRanges rs

/-- The bases give a memory map as 20_memory.md R42 and R43 describe it: main memory, scratch memory, the I/O window and
firmware in this order, without overlap, in the 29-bit physical space, with bounds that are multiples of 4 (log 25).
Some of these maps claim the last word of a 256 MiB block, which the default one does not: where a J or JAL there goes
is log 26. -/
def Params.mapWellFormed (p : Params) : Bool :=
  decide (p.scratchBase % 4 = 0) && decide (p.ioBase % 4 = 0) && decide (p.fwBase % 4 = 0) &&
    decide (ramBase + ramSize ≤ p.scratchBase) && decide (p.scratchBase + scratchSize ≤ p.ioBase) &&
    decide (p.ioBase + ioSize ≤ p.fwBase) && decide (p.fwBase + fwSize ≤ physSize)

/-- The parameters a core may be constructed from: the memory map as R42 says, `IO_MAP` as R46 says, and interrupts
disabled at reset (92_eei_decisions.md, parameter table: "bit 0 must be 0"). -/
def Params.wellFormed (p : Params) : Bool :=
  p.mapWellFormed && p.ioMap.all (IoRange.wellFormed p.ioBase) && disjointRanges p.ioMap && !p.srReset.getLsbD 0

/-- 70_reset_and_hazards.md R261: a firmware image is exactly 524288 bytes. -/
def firmwareWellFormed (image : List Byte) : Bool :=
  decide (image.length = fwSize)

end Config

end Sys2Proof
end

