-- ==== Sys2Proof/Machine/Driver.lean ====
section
/-! DEFINITION. The driver's moves besides polling and stepping: construction and the reset call
(70_reset_and_hazards.md R260, R261, R273), and presenting inputs. -/

namespace Sys2Proof.Machine

/-- `Reset()` on an existing core (R260): the registers only; memories, parameters, inputs and outputs stay (log 16). -/
def State.resetCall (s : State) : State :=
  { s with
    gpr := Vector.replicate 32 0#32
    pc := s.params.resetVector
    npc := s.params.resetVector + 4#32
    curPc := s.params.resetVector
    hi := 0#32
    lo := 0#32
    ldArmed := none
    ldCommit := none
    dsCur := false
    dsNext := false
    c0 := c0AtReset s.params }

/-- `Construct(FIRMWARE, IO_MAP)` (R260), with the other parameters of 00_scope.md R4; none where the firmware is not
exactly 524288 bytes (R261) or a parameter is outside what R4 admits (log 16). -/
def State.construct (p : Config.Params) (firmware : List Byte) : Option State :=
  if Config.firmwareWellFormed firmware && p.wellFormed then
    some { State.reset with params := p, mem := Memory.ofBytes p.fwBase firmware }.resetCall
  else none

/-- The driver presents levels at the coming polls, after those already listed (R273). -/
def State.presentIrq (s : State) (levels : List Bool) : State := { s with irqIn := s.irqIn ++ levels }

/-- The peripherals give answers to the coming calls, after those already listed (20_memory.md R55). -/
def State.presentReplies (s : State) (replies : List Config.IoReply) : State := { s with ioIn := s.ioIn ++ replies }

end Sys2Proof.Machine
end

