-- ==== Sys2Proof/Safety.lean ====
section
/-! DEFINITION. The terms the statements use: what it is for parts of the state to be unchanged, for a register to be
written now or later, for an exception to have been entered; where an address lies; and the invariant of the core. The
numbers here are written out from the spec, not taken from the model's definitions; the parameters that R4 makes
configuration fields are those of the state. -/

namespace Sys2Proof.Machine

/-! ### Frames: parts of the state that are unchanged from `s` to `t` -/

/-- Every general register. -/
def SameRegs (s t : State) : Prop := ∀ r, t.reg r = s.reg r

/-- Every system-control register. -/
def SameC0 (s t : State) : Prop := ∀ n, t.c0Get n = s.c0Get n

/-- Every byte of memory. -/
def SameMem (s t : State) : Prop := ∀ a, t.mem.read a = s.mem.read a

/-- Both accumulators. -/
def SameAcc (s t : State) : Prop := t.hi = s.hi ∧ t.lo = s.lo

/-- Both slots of the delay buffer. -/
def SameBuffer (s t : State) : Prop := t.ldArmed = s.ldArmed ∧ t.ldCommit = s.ldCommit

/-- The latch of the executing instruction's address, and both delay-slot markers. -/
def SameMarks (s t : State) : Prop := t.curPc = s.curPc ∧ t.dsCur = s.dsCur ∧ t.dsNext = s.dsNext

/-- The in-step program counters, the latch and the markers. -/
def SameFlow (s t : State) : Prop := t.pc = s.pc ∧ t.npc = s.npc ∧ SameMarks s t

/-- The parameters, the interrupt input, and what the core and its peripherals exchanged. -/
def SameIo (s t : State) : Prop :=
  t.params = s.params ∧ t.irqIn = s.irqIn ∧ t.ioIn = s.ioIn ∧ t.ioDraws = s.ioDraws ∧ t.ioCalls = s.ioCalls

/-- All of that and the diagnostic log. -/
def SameOutside (s t : State) : Prop := SameIo s t ∧ t.log = s.log

/-- Exactly these events were logged, and nothing else happened outside the core. -/
def Logged (s t : State) (es : List LogEvent) : Prop := SameIo s t ∧ t.log = s.log ++ es

/-- Exactly one call was made on a peripheral handler, and its answer, the listed one or a free one, was used up. -/
def CalledOnce (s t : State) (c : IoCall) : Prop :=
  t.params = s.params ∧ t.irqIn = s.irqIn ∧ t.log = s.log ∧ t.ioCalls = s.ioCalls ++ [c] ∧ t.ioIn = s.ioIn.tail ∧
    t.ioDraws = if s.ioIn = [] then s.ioDraws + 1 else s.ioDraws

/-! ### Register writes -/

/-- An immediate write to `rd` discards the entry of `ld_commit` (40_execution_cycle.md R108). -/
def Cancels (s : State) (rd : Reg) : Prop :=
  rd ≠ 0#5 ∧ s.params.precedence = .directWriteCancels ∧ ∃ v, s.ldCommit = some ⟨rd, v⟩

/-- From `s` to `t` register `rd` was written with `v` at once, and nothing else changed but the pending write that R108
discards. Register 0 keeps reading 0. -/
def WrittenFrom (s t : State) (rd : Reg) (v : Word) : Prop :=
  (∀ r, t.reg r = if r = rd ∧ rd ≠ 0#5 then v else s.reg r) ∧
    t.ldArmed = s.ldArmed ∧ (Cancels s rd → t.ldCommit = none) ∧ (¬ Cancels s rd → t.ldCommit = s.ldCommit) ∧
    SameAcc s t ∧ SameC0 s t ∧ SameMem s t

/-- The instruction answers a next state, in which `rd` was written with `v` at once and nothing else changed. -/
def WritesNow (i : Instr) (s : State) (rd : Reg) (v : Word) : Prop :=
  ∃ t, exec i s = .next t ∧ WrittenFrom s t rd v ∧ SameFlow s t ∧ SameOutside s t

/-- From `s` to `t` a write of `v` to `rt` was scheduled through the delay buffer (40_execution_cycle.md R109), and
nothing else inside the core changed: no register yet, and for register 0 nothing at all. -/
def ArmedFrom (s t : State) (rt : Reg) (v : Word) : Prop :=
  SameRegs s t ∧
    (rt ≠ 0#5 → t.ldArmed = some ⟨rt, v⟩ ∧
      ((∃ w, s.ldCommit = some ⟨rt, w⟩) → t.ldCommit = none) ∧
      ((∀ w, s.ldCommit ≠ some ⟨rt, w⟩) → t.ldCommit = s.ldCommit)) ∧
    (rt = 0#5 → SameBuffer s t) ∧
    SameAcc s t ∧ SameC0 s t ∧ SameMem s t ∧ SameFlow s t

/-- From `s` to `t` only the deferred control transfer to `a` happened (40_execution_cycle.md R110). -/
def TransferFrom (s t : State) (a : Word) : Prop :=
  t.npc = a ∧ t.dsNext = true ∧ t.pc = s.pc ∧ t.curPc = s.curPc ∧ t.dsCur = s.dsCur ∧ SameOutside s t

/-! ### Exception entry (60_exceptions.md R230, R240 to R242) -/

/-- The codes of R230. -/
def excNumber : Exc → Nat
  | .int => 0
  | .adEL _ => 4
  | .adES _ => 5
  | .ibe => 6
  | .dbe => 7
  | .sys => 8
  | .bp => 9
  | .ri => 10
  | .cpU _ => 11
  | .ov => 12

/-- Bit `k` of `CAUSE` after entry (R240): `ExcCode` in bits 6:2, `BD` in bit 31, `CE` in bits 29:28 for
coprocessor-unusable only, every other bit as before. -/
def causeBitAfter (s : State) (e : Exc) (bd : Bool) (k : Nat) : Bool :=
  if 2 ≤ k ∧ k ≤ 6 then (excNumber e).testBit (k - 2)
  else if k = 31 then bd
  else if 28 ≤ k ∧ k ≤ 29 then
    match e with
    | .cpU ce => ce.getLsbD (k - 28)
    | _ => s.cause.getLsbD k
  else s.cause.getLsbD k

/-- From `s` to `t` the exception `e` was entered for the instruction at `at'`, `bd` telling that it is in a delay slot;
nothing else inside the core changed (R240). -/
def EnteredFrom (s t : State) (e : Exc) (at' : Word) (bd : Bool) : Prop :=
  t.pc = (if s.sr.getLsbD 22 then s.params.vecBoot else s.params.vecGeneral) ∧ t.npc = t.pc + 4#32 ∧
    (∀ k, k < 32 → t.sr.getLsbD k =
      if k < 2 then false else if k < 6 then s.sr.getLsbD (k - 2) else s.sr.getLsbD k) ∧
    (∀ k, k < 32 → t.cause.getLsbD k = causeBitAfter s e bd k) ∧
    t.epc = (if bd then at' - 4#32 else at') ∧
    t.badVAddr = (match e with
      | .adEL bad => bad
      | .adES bad => bad
      | _ => s.badVAddr) ∧
    (∀ n, n ≠ 8#5 → n ≠ 12#5 → n ≠ 13#5 → n ≠ 14#5 → t.c0Get n = s.c0Get n) ∧
    SameRegs s t ∧ SameAcc s t ∧ SameBuffer s t ∧ SameMem s t ∧ SameMarks s t

/-- The instruction answers a next state in which it raised `e` and nothing else happened. -/
def Raises (i : Instr) (s : State) (e : Exc) : Prop :=
  ∃ t, exec i s = .next t ∧ EnteredFrom s t e s.curPc s.dsCur ∧ SameOutside s t

/-! ### Addresses (20_memory.md R41, R42, R46) -/

/-- The physical address of a virtual one (R41). -/
def physical (a : Word) : Nat := (a &&& 0x1FFFFFFF#32).toNat

/-- Main memory. -/
def InMain (p : Nat) : Prop := p < 0x200000
/-- Scratch memory. -/
def InScratch (s : State) (p : Nat) : Prop := s.params.scratchBase ≤ p ∧ p < s.params.scratchBase + 0x400
/-- The I/O window. -/
def InIo (s : State) (p : Nat) : Prop := s.params.ioBase ≤ p ∧ p < s.params.ioBase + 0x1000
/-- Boot firmware. -/
def InFirmware (s : State) (p : Nat) : Prop := s.params.fwBase ≤ p ∧ p < s.params.fwBase + 0x80000

/-- The configured memory map is one of R42 and R43: the regions in their order, without overlap, in 29 bits, with bounds
that are multiples of 4. -/
def MapOrdered (s : State) : Prop :=
  s.params.scratchBase % 4 = 0 ∧ s.params.ioBase % 4 = 0 ∧ s.params.fwBase % 4 = 0 ∧
    0x200000 ≤ s.params.scratchBase ∧ s.params.scratchBase + 0x400 ≤ s.params.ioBase ∧
    s.params.ioBase + 0x1000 ≤ s.params.fwBase ∧ s.params.fwBase + 0x80000 ≤ 2 ^ 29

/-- A registered handler answers there (R46). -/
def Handled (s : State) (p : Nat) : Prop :=
  InIo s p ∧ ∃ r ∈ s.params.ioMap, r.first ≤ p ∧ p < r.first + r.size

/-- Nobody answers there: unmapped, or in the I/O window with no handler (R46, R47). -/
def Unclaimed (s : State) (p : Nat) : Prop :=
  ¬ InMain p ∧ ¬ InScratch s p ∧ ¬ InFirmware s p ∧ ¬ Handled s p

/-- The value of the `n` bytes at `p`, least significant first (R48). -/
def leValue (m : Memory) (p : Nat) : Nat → Nat
  | 0 => 0
  | n + 1 => (m.read p).toNat + 256 * leValue m (p + 1) n

/-! ### What each instruction may write -/

/-- The general register an instruction writes in its own step, if any: loads and MFC0 write none yet (R105, R109). -/
def writesReg : Instr → Option Reg
  | .add rd _ _ => some rd | .addu rd _ _ => some rd | .sub rd _ _ => some rd | .subu rd _ _ => some rd
  | .addi rt _ _ => some rt | .addiu rt _ _ => some rt
  | .and rd _ _ => some rd | .or rd _ _ => some rd | .xor rd _ _ => some rd | .nor rd _ _ => some rd
  | .andi rt _ _ => some rt | .ori rt _ _ => some rt | .xori rt _ _ => some rt | .lui rt _ => some rt
  | .sll rd _ _ => some rd | .srl rd _ _ => some rd | .sra rd _ _ => some rd
  | .sllv rd _ _ => some rd | .srlv rd _ _ => some rd | .srav rd _ _ => some rd
  | .slt rd _ _ => some rd | .sltu rd _ _ => some rd | .slti rt _ _ => some rt | .sltiu rt _ _ => some rt
  | .bltzal .. => some 31#5 | .bgezal .. => some 31#5 | .jal _ => some 31#5 | .jalr rd _ => some rd
  | .mfhi rd => some rd | .mflo rd => some rd
  | _ => none

/-- The general register an instruction schedules a write to: that of a load or MFC0 (R105, R109). -/
def schedules : Instr → Option Reg
  | .lb rt _ _ => some rt | .lbu rt _ _ => some rt | .lh rt _ _ => some rt | .lhu rt _ _ => some rt
  | .lw rt _ _ => some rt | .lwl rt _ _ => some rt | .lwr rt _ _ => some rt | .mfc0 rt _ => some rt
  | _ => none

/-- The instructions that write an accumulator (48_muldiv.md). -/
def writesAcc : Instr → Bool
  | .mult .. => true | .multu .. => true | .div .. => true | .divu .. => true | .mthi .. => true | .mtlo .. => true
  | _ => false

/-- The instructions that may store to memory (47_load_store.md). -/
def stores : Instr → Bool
  | .sb .. => true | .sh .. => true | .sw .. => true | .swl .. => true | .swr .. => true
  | _ => false

/-- The branches and jumps. -/
def transfers : Instr → Bool
  | .beq .. => true | .bne .. => true | .blez .. => true | .bgtz .. => true | .bltz .. => true | .bgez .. => true
  | .bltzal .. => true | .bgezal .. => true | .j .. => true | .jal .. => true | .jr .. => true | .jalr .. => true
  | _ => false

/-! ### The rows of spec/opcode_table.json -/

/-- The row's "mask": the bits that tell the instruction from every other. -/
def rowMask : Instr → Word
  | .add .. => 0xFC00003F#32 | .addu .. => 0xFC00003F#32 | .sub .. => 0xFC00003F#32 | .subu .. => 0xFC00003F#32
  | .addi .. => 0xFC000000#32 | .addiu .. => 0xFC000000#32 | .and .. => 0xFC00003F#32 | .or .. => 0xFC00003F#32
  | .xor .. => 0xFC00003F#32 | .nor .. => 0xFC00003F#32 | .andi .. => 0xFC000000#32 | .ori .. => 0xFC000000#32
  | .xori .. => 0xFC000000#32 | .lui .. => 0xFC000000#32 | .sll .. => 0xFC00003F#32 | .srl .. => 0xFC00003F#32
  | .sra .. => 0xFC00003F#32 | .sllv .. => 0xFC00003F#32 | .srlv .. => 0xFC00003F#32 | .srav .. => 0xFC00003F#32
  | .slt .. => 0xFC00003F#32 | .sltu .. => 0xFC00003F#32 | .slti .. => 0xFC000000#32 | .sltiu .. => 0xFC000000#32
  | .beq .. => 0xFC000000#32 | .bne .. => 0xFC000000#32 | .blez .. => 0xFC000000#32 | .bgtz .. => 0xFC000000#32
  | .bltz .. => 0xFC1F0000#32 | .bgez .. => 0xFC1F0000#32 | .bltzal .. => 0xFC1F0000#32 | .bgezal .. => 0xFC1F0000#32
  | .j .. => 0xFC000000#32 | .jal .. => 0xFC000000#32 | .jr .. => 0xFC00003F#32 | .jalr .. => 0xFC00003F#32
  | .lb .. => 0xFC000000#32 | .lbu .. => 0xFC000000#32 | .lh .. => 0xFC000000#32 | .lhu .. => 0xFC000000#32
  | .lw .. => 0xFC000000#32 | .lwl .. => 0xFC000000#32 | .lwr .. => 0xFC000000#32 | .sb .. => 0xFC000000#32
  | .sh .. => 0xFC000000#32 | .sw .. => 0xFC000000#32 | .swl .. => 0xFC000000#32 | .swr .. => 0xFC000000#32
  | .mult .. => 0xFC00003F#32 | .multu .. => 0xFC00003F#32 | .div .. => 0xFC00003F#32 | .divu .. => 0xFC00003F#32
  | .mfhi .. => 0xFC00003F#32 | .mflo .. => 0xFC00003F#32 | .mthi .. => 0xFC00003F#32 | .mtlo .. => 0xFC00003F#32
  | .syscall .. => 0xFC00003F#32 | .brk .. => 0xFC00003F#32 | .mfc0 .. => 0xFFE00000#32 | .mtc0 .. => 0xFFE00000#32
  | .rfe => 0xFFE0003F#32 | .cop1 .. => 0xFC000000#32 | .cop2 .. => 0xFC000000#32 | .cop3 .. => 0xFC000000#32
  | .lwc0 .. => 0xFC000000#32 | .lwc1 .. => 0xFC000000#32 | .lwc2 .. => 0xFC000000#32 | .lwc3 .. => 0xFC000000#32
  | .swc0 .. => 0xFC000000#32 | .swc1 .. => 0xFC000000#32 | .swc2 .. => 0xFC000000#32 | .swc3 .. => 0xFC000000#32

/-- The row's "match": what those bits are. -/
def rowMatch : Instr → Word
  | .add .. => 0x00000020#32 | .addu .. => 0x00000021#32 | .sub .. => 0x00000022#32 | .subu .. => 0x00000023#32
  | .addi .. => 0x20000000#32 | .addiu .. => 0x24000000#32 | .and .. => 0x00000024#32 | .or .. => 0x00000025#32
  | .xor .. => 0x00000026#32 | .nor .. => 0x00000027#32 | .andi .. => 0x30000000#32 | .ori .. => 0x34000000#32
  | .xori .. => 0x38000000#32 | .lui .. => 0x3C000000#32 | .sll .. => 0x00000000#32 | .srl .. => 0x00000002#32
  | .sra .. => 0x00000003#32 | .sllv .. => 0x00000004#32 | .srlv .. => 0x00000006#32 | .srav .. => 0x00000007#32
  | .slt .. => 0x0000002A#32 | .sltu .. => 0x0000002B#32 | .slti .. => 0x28000000#32 | .sltiu .. => 0x2C000000#32
  | .beq .. => 0x10000000#32 | .bne .. => 0x14000000#32 | .blez .. => 0x18000000#32 | .bgtz .. => 0x1C000000#32
  | .bltz .. => 0x04000000#32 | .bgez .. => 0x04010000#32 | .bltzal .. => 0x04100000#32 | .bgezal .. => 0x04110000#32
  | .j .. => 0x08000000#32 | .jal .. => 0x0C000000#32 | .jr .. => 0x00000008#32 | .jalr .. => 0x00000009#32
  | .lb .. => 0x80000000#32 | .lbu .. => 0x90000000#32 | .lh .. => 0x84000000#32 | .lhu .. => 0x94000000#32
  | .lw .. => 0x8C000000#32 | .lwl .. => 0x88000000#32 | .lwr .. => 0x98000000#32 | .sb .. => 0xA0000000#32
  | .sh .. => 0xA4000000#32 | .sw .. => 0xAC000000#32 | .swl .. => 0xA8000000#32 | .swr .. => 0xB8000000#32
  | .mult .. => 0x00000018#32 | .multu .. => 0x00000019#32 | .div .. => 0x0000001A#32 | .divu .. => 0x0000001B#32
  | .mfhi .. => 0x00000010#32 | .mflo .. => 0x00000012#32 | .mthi .. => 0x00000011#32 | .mtlo .. => 0x00000013#32
  | .syscall .. => 0x0000000C#32 | .brk .. => 0x0000000D#32 | .mfc0 .. => 0x40000000#32 | .mtc0 .. => 0x40800000#32
  | .rfe => 0x42000010#32 | .cop1 .. => 0x44000000#32 | .cop2 .. => 0x48000000#32 | .cop3 .. => 0x4C000000#32
  | .lwc0 .. => 0xC0000000#32 | .lwc1 .. => 0xC4000000#32 | .lwc2 .. => 0xC8000000#32 | .lwc3 .. => 0xCC000000#32
  | .swc0 .. => 0xE0000000#32 | .swc1 .. => 0xE4000000#32 | .swc2 .. => 0xE8000000#32 | .swc3 .. => 0xEC000000#32

/-! ### The invariant -/

/-- What holds of the core between any two steps. -/
structure Invariant (s : State) : Prop where
  /-- Memory is in canonical form. -/
  memWf : s.mem.wf = true
  /-- Only addresses of the three memories are listed (10_state.md R28, 20_memory.md R42). -/
  memPlace : ∀ c ∈ s.mem, InMain c.1 ∨ InScratch s c.1 ∨ InFirmware s c.1
  /-- The register file holds 0 for register 0 (10_state.md R11). -/
  zeroReg : s.gpr[0] = 0#32
  /-- A slot of the delay buffer holds a register index 1 to 31 (10_state.md R18). -/
  armedReg : ∀ v, s.ldArmed ≠ some ⟨0#5, v⟩
  commitReg : ∀ v, s.ldCommit ≠ some ⟨0#5, v⟩
  /-- Two pending writes never target the same register (10_state.md R18 "never both applied"). -/
  oneWrite : ∀ r v w, ¬ (s.ldArmed = some ⟨r, v⟩ ∧ s.ldCommit = some ⟨r, w⟩)
  /-- `npc = pc + 4` but between a taken transfer and its delay slot (10_state.md R13). -/
  lookAhead : s.dsNext = false → s.npc = s.pc + 4#32
  /-- The memory map is one of 20_memory.md R42 and R43. -/
  mapOrdered : MapOrdered s
  /-- The parameters are ones a core can be constructed from (00_scope.md R4). -/
  paramsWf : s.params.wellFormed = true

end Sys2Proof.Machine
end

