-- ==== Sys2Proof/Certificates/Slice0/Obligations.lean ====
section
/-! DEFINITION. The statements for the provers, from the numbered rules of the spec, in the terms of Safety.lean. -/

open Sys2Proof Sys2Proof.Machine

/-! ### Vocabulary: loads and stores of one shape -/

namespace Sys2Proof.Claims

/-- The five loads that deliver what they read. -/
inductive LoadOp where
  | lb | lbu | lh | lhu | lw
  deriving DecidableEq, Repr

def LoadOp.instr (op : LoadOp) (rt : Reg) (offset : Half) (rs : Reg) : Instr :=
  match op with
  | .lb => .lb rt offset rs
  | .lbu => .lbu rt offset rs
  | .lh => .lh rt offset rs
  | .lhu => .lhu rt offset rs
  | .lw => .lw rt offset rs

/-- Bytes moved (20_memory.md R51); the address must be a multiple of it (R49). -/
def LoadOp.bytes : LoadOp → Nat
  | .lb => 1 | .lbu => 1 | .lh => 2 | .lhu => 2 | .lw => 4

/-- The 32-bit value the low bytes of `v` are widened to (47_load_store.md R181 to R185). -/
def LoadOp.widen (op : LoadOp) (v : Word) : Word :=
  match op with
  | .lb => (v.setWidth 8).signExtend 32
  | .lbu => (v.setWidth 8).setWidth 32
  | .lh => (v.setWidth 16).signExtend 32
  | .lhu => (v.setWidth 16).setWidth 32
  | .lw => v

/-- The three stores that write what the register holds. -/
inductive StoreOp where
  | sb | sh | sw
  deriving DecidableEq, Repr

def StoreOp.instr (op : StoreOp) (rt : Reg) (offset : Half) (rs : Reg) : Instr :=
  match op with
  | .sb => .sb rt offset rs
  | .sh => .sh rt offset rs
  | .sw => .sw rt offset rs

def StoreOp.bytes : StoreOp → Nat
  | .sb => 1 | .sh => 2 | .sw => 4

/-- The low `8n` bits of the register, zero-extended (20_memory.md R53). -/
def StoreOp.value (op : StoreOp) (v : Word) : Word :=
  match op with
  | .sb => (v.setWidth 8).setWidth 32
  | .sh => (v.setWidth 16).setWidth 32
  | .sw => v

/-- LWL and LWR (`left` tells which). -/
def mergeLoad (left : Bool) (rt : Reg) (offset : Half) (rs : Reg) : Instr :=
  if left then .lwl rt offset rs else .lwr rt offset rs

/-- SWL and SWR. -/
def mergeStore (left : Bool) (rt : Reg) (offset : Half) (rs : Reg) : Instr :=
  if left then .swl rt offset rs else .swr rt offset rs

/-- Base plus sign-extended displacement, modulo 2^32 (47_load_store.md R180). -/
def address (s : State) (offset : Half) (rs : Reg) : Word := s.reg rs + BitVec.ofInt 32 offset.toInt

/-- The aligned word that holds an address. -/
def wordOf (a : Word) : Word := a &&& 0xFFFFFFFC#32

/-- Byte `j` of a word, 0 the least significant. -/
def byteOf (w : Word) (j : Nat) : Byte := w.extractLsb' (8 * j) 8

/-- The value in flight to a register: of the load about to commit, else the register's (47_load_store.md R186). -/
def InFlight (s : State) (rt : Reg) (cur : Word) : Prop :=
  s.ldCommit = some ⟨rt, cur⟩ ∨ ((∀ w, s.ldCommit ≠ some ⟨rt, w⟩) ∧ cur = s.reg rt)

/-- What LWL (R186) and LWR (R187) make of the aligned word's bytes `mem` and the register's in-flight value: LWL copies
the bytes from the word's start up to the address into the top of the register, LWR those from the address to the
word's end into its bottom; the rest of the register is kept. `k = ea[1:0]`. -/
def MergedLoad (left : Bool) (k : Nat) (mem : Nat → Byte) (cur v : Word) : Prop :=
  ∀ j, j < 4 → byteOf v j =
    if left then (if 3 - k ≤ j then mem (j - (3 - k)) else byteOf cur j)
    else (if j < 4 - k then mem (k + j) else byteOf cur j)

/-- What SWL (R191) and SWR (R192) make of the aligned word: SWL puts the most significant `k + 1` bytes of the register
at the word's start, SWR its least significant `4 - k` bytes at the word's end; the other bytes are kept. -/
def MergedStore (left : Bool) (k : Nat) (mem : Nat → Byte) (reg : Word) (after : Nat → Byte) : Prop :=
  ∀ j, j < 4 → after j =
    if left then (if j ≤ k then byteOf reg (3 - k + j) else mem j)
    else (if k ≤ j then byteOf reg (j - k) else mem j)

/-- Two calls on a handler, SWL's and SWR's (R191). -/
def CalledTwice (s t : State) (c d : IoCall) : Prop :=
  t.params = s.params ∧ t.irqIn = s.irqIn ∧ t.log = s.log ∧ t.ioCalls = s.ioCalls ++ [c, d] ∧
    t.ioIn = s.ioIn.drop 2 ∧ t.ioDraws = s.ioDraws + (2 - s.ioIn.length)

/-- The handler's second answer from `s` on. -/
def secondReply (s : State) : Config.IoReply :=
  match s.ioIn with
  | _ :: r :: _ => r
  | [_] => Config.freeIoReply s.ioDraws
  | [] => Config.freeIoReply (s.ioDraws + 1)

/-- Nothing inside the core changed but memory. -/
def OnlyMemory (s t : State) : Prop :=
  SameRegs s t ∧ SameC0 s t ∧ SameAcc s t ∧ SameBuffer s t ∧ SameFlow s t

/-- Nothing inside the core changed. -/
def SameCore (s t : State) : Prop := OnlyMemory s t ∧ SameMem s t

/-! ### Vocabulary: instructions -/

/-- R format with `op = 0` (30_encoding.md R71). -/
def wordR (rs rt rd shamt : BitVec 5) (funct : BitVec 6) : Word := 0#6 ++ rs ++ rt ++ rd ++ shamt ++ funct

/-- I format. -/
def wordI (op : BitVec 6) (rs rt : BitVec 5) (imm : Half) : Word := op ++ rs ++ rt ++ imm

/-- J format. -/
def wordJ (op : BitVec 6) (low : BitVec 26) : Word := op ++ low

/-- SYSCALL and BREAK. -/
def wordCode (code : BitVec 20) (funct : BitVec 6) : Word := 0#6 ++ code ++ funct

/-- MFC0 and MTC0 (49_system.md R212, R213). -/
def wordMove (rs rt rd : BitVec 5) (low : BitVec 11) : Word := 0x10#6 ++ rs ++ rt ++ rd ++ low

/-- RFE (49_system.md R214). -/
def wordReturn (low : BitVec 15) : Word := 0x10#6 ++ 0x10#5 ++ low ++ 0x10#6

/-- The word is an encoding of the instruction. -/
def Encodes (w : Word) (i : Instr) : Prop := decode w = .instr i

/-- The bits of a word that decoding reads or keeps: those of the row's mask and of its fields in opcode_table.json, and
the code bits of SYSCALL, BREAK and COPz that this syntax keeps as operands (log 14; 30_encoding.md R79 and 49_system.md
R216 list them among the ignored ones). -/
def usedBits : Instr → Word
  | .add .. => 0xFFFFF83F#32 | .addu .. => 0xFFFFF83F#32 | .sub .. => 0xFFFFF83F#32 | .subu .. => 0xFFFFF83F#32
  | .addi .. => 0xFFFFFFFF#32 | .addiu .. => 0xFFFFFFFF#32
  | .and .. => 0xFFFFF83F#32 | .or .. => 0xFFFFF83F#32 | .xor .. => 0xFFFFF83F#32 | .nor .. => 0xFFFFF83F#32
  | .andi .. => 0xFFFFFFFF#32 | .ori .. => 0xFFFFFFFF#32 | .xori .. => 0xFFFFFFFF#32 | .lui .. => 0xFC1FFFFF#32
  | .sll .. => 0xFC1FFFFF#32 | .srl .. => 0xFC1FFFFF#32 | .sra .. => 0xFC1FFFFF#32
  | .sllv .. => 0xFFFFF83F#32 | .srlv .. => 0xFFFFF83F#32 | .srav .. => 0xFFFFF83F#32
  | .slt .. => 0xFFFFF83F#32 | .sltu .. => 0xFFFFF83F#32 | .slti .. => 0xFFFFFFFF#32 | .sltiu .. => 0xFFFFFFFF#32
  | .beq .. => 0xFFFFFFFF#32 | .bne .. => 0xFFFFFFFF#32 | .blez .. => 0xFFE0FFFF#32 | .bgtz .. => 0xFFE0FFFF#32
  | .bltz .. => 0xFFFFFFFF#32 | .bgez .. => 0xFFFFFFFF#32 | .bltzal .. => 0xFFFFFFFF#32 | .bgezal .. => 0xFFFFFFFF#32
  | .j .. => 0xFFFFFFFF#32 | .jal .. => 0xFFFFFFFF#32 | .jr .. => 0xFFE0003F#32 | .jalr .. => 0xFFE0F83F#32
  | .lb .. => 0xFFFFFFFF#32 | .lbu .. => 0xFFFFFFFF#32 | .lh .. => 0xFFFFFFFF#32 | .lhu .. => 0xFFFFFFFF#32
  | .lw .. => 0xFFFFFFFF#32 | .lwl .. => 0xFFFFFFFF#32 | .lwr .. => 0xFFFFFFFF#32
  | .sb .. => 0xFFFFFFFF#32 | .sh .. => 0xFFFFFFFF#32 | .sw .. => 0xFFFFFFFF#32
  | .swl .. => 0xFFFFFFFF#32 | .swr .. => 0xFFFFFFFF#32
  | .mult .. => 0xFFFF003F#32 | .multu .. => 0xFFFF003F#32 | .div .. => 0xFFFF003F#32 | .divu .. => 0xFFFF003F#32
  | .mfhi .. => 0xFC00F83F#32 | .mflo .. => 0xFC00F83F#32 | .mthi .. => 0xFFE0003F#32 | .mtlo .. => 0xFFE0003F#32
  | .syscall .. => 0xFFFFFFFF#32 | .brk .. => 0xFFFFFFFF#32
  | .mfc0 .. => 0xFFFFF800#32 | .mtc0 .. => 0xFFFFF800#32 | .rfe => 0xFFE0003F#32
  | .cop1 .. => 0xFFFFFFFF#32 | .cop2 .. => 0xFFFFFFFF#32 | .cop3 .. => 0xFFFFFFFF#32
  | .lwc0 .. => 0xFFFFFFFF#32 | .lwc1 .. => 0xFFFFFFFF#32 | .lwc2 .. => 0xFFFFFFFF#32 | .lwc3 .. => 0xFFFFFFFF#32
  | .swc0 .. => 0xFFFFFFFF#32 | .swc1 .. => 0xFFFFFFFF#32 | .swc2 .. => 0xFFFFFFFF#32 | .swc3 .. => 0xFFFFFFFF#32

/-- The words R80 lists as reserved. -/
def ReservedWord (w : Word) : Prop :=
  let op := w.toNat / 2 ^ 26
  let rs := w.toNat / 2 ^ 21 % 32
  let rt := w.toNat / 2 ^ 16 % 32
  let funct := w.toNat % 64
  (0x14 ≤ op ∧ op ≤ 0x1F) ∨ op = 0x27 ∨ op = 0x2C ∨ op = 0x2D ∨ op = 0x2F ∨ (0x34 ≤ op ∧ op ≤ 0x37) ∨
    (0x3C ≤ op ∧ op ≤ 0x3F) ∨
    (op = 0 ∧ (funct = 0x01 ∨ funct = 0x05 ∨ funct = 0x0A ∨ funct = 0x0B ∨ funct = 0x0E ∨ funct = 0x0F ∨
      (0x14 ≤ funct ∧ funct ≤ 0x17) ∨ (0x1C ≤ funct ∧ funct ≤ 0x1F) ∨ funct = 0x28 ∨ funct = 0x29 ∨
      (0x2C ≤ funct ∧ funct ≤ 0x3F))) ∨
    (op = 1 ∧ rt ≠ 0x00 ∧ rt ≠ 0x01 ∧ rt ≠ 0x10 ∧ rt ≠ 0x11) ∨
    (op = 0x10 ∧ rs ≠ 0x00 ∧ rs ≠ 0x04 ∧ ¬ (rs = 0x10 ∧ funct = 0x10))

/-- The state in which a fetched instruction executes (40_execution_cycle.md R103, R104): `cur_pc` latched, then
`pc <- npc ; npc <- npc + 4`. -/
def inStep (s : State) : State := { s with curPc := s.pc, pc := s.npc, npc := s.npc + 4#32 }

/-- The word `w` stands in a memory of the core at the aligned address in `pc`. -/
def WordAtPc (s : State) (w : Word) : Prop :=
  s.pc.toNat % 4 = 0 ∧
    (InMain (physical s.pc) ∨ InScratch s (physical s.pc) ∨ InFirmware s (physical s.pc)) ∧
    w = bytesWord (s.mem.read (physical s.pc)) (s.mem.read (physical s.pc + 1)) (s.mem.read (physical s.pc + 2))
      (s.mem.read (physical s.pc + 3))

/-- Two states that agree but for the privilege bit `SR[1]`. -/
def flipMode (s : State) : State := s.c0Set 12#5 (s.sr ^^^ 2#32)

end Sys2Proof.Claims

open Sys2Proof.Claims

/-! ### Construction, reset, the invariant -/

/-- What `Construct` and `Reset` leave, and that a core exists for a 524288-byte image only (R260, R261). The clauses that
inputs and outputs survive `Reset`, that `SR` and `PRID` take the parameters, and that ill-formed parameters are refused
are the model's (log 16, DEDUCED; log 25). -/
def Obligations.ConstructAndResetLeaveBootState : Prop :=
  (∀ s : State,
    let t := s.resetCall
    t.pc = s.params.resetVector ∧ t.npc = t.pc + 4#32 ∧ t.curPc = t.pc ∧ (∀ r, t.reg r = 0#32) ∧
      t.hi = 0#32 ∧ t.lo = 0#32 ∧ t.ldArmed = none ∧ t.ldCommit = none ∧ t.dsCur = false ∧ t.dsNext = false ∧
      (∀ n, t.c0Get n = if n = 12#5 then s.params.srReset else if n = 15#5 then s.params.pridValue else 0#32) ∧
      (s.params.resetVector = Config.defaults.resetVector → t.pc = 0xBFC00000#32 ∧ t.npc = 0xBFC00004#32) ∧
      (s.params.srReset = Config.defaults.srReset → t.sr = 0x00400000#32) ∧
      (s.params.pridValue = Config.defaults.pridValue → t.prId = 0x00000002#32) ∧
      SameMem s t ∧ SameOutside s t) ∧
  (∀ (p : Config.Params) (firmware : List Byte), firmware.length = 524288 → p.wellFormed = true →
    ∃ t, State.construct p firmware = some t ∧ t = t.resetCall ∧ t.params = p ∧ t.sr.getLsbD 0 = false ∧
      (∀ k, k < 524288 → t.mem.read (p.fwBase + k) = firmware.getD k 0#8) ∧
      (∀ a, ¬ InFirmware t a → t.mem.read a = 0#8)) ∧
  (∀ (p : Config.Params) (firmware : List Byte), firmware.length ≠ 524288 ∨ p.wellFormed = false →
    State.construct p firmware = none)

/-- The reset state meets the invariant. (Its firmware and handler map are the model's choice: log 1, log 2.) -/
def Obligations.ResetMeetsInvariant : Prop := Invariant State.reset

/-- Every constructed core meets the invariant. -/
def Obligations.ConstructedCoreMeetsInvariant : Prop :=
  ∀ (p : Config.Params) (firmware : List Byte) (t : State), State.construct p firmware = some t → Invariant t

/-- The invariant holds along every run, whatever the driver presents at the polls and the handlers answer: memory stays
canonical and in its places, register 0 stays 0, the delay buffer holds at most one write to a register and none to
register 0, and `npc = pc + 4` but before a delay slot (10_state.md R11, R13, R18). -/
def Obligations.EveryStepKeepsInvariant : Prop :=
  ∀ s t : State, Invariant s → step s = .next t → Invariant t

/-! ### Encoding -/

/-- No bit of an operand is dropped. -/
def Obligations.DecodeOfEncodeIsTheInstruction : Prop := ∀ i : Instr, decode (encode i) = .instr i

/-- A decoded word differs from the encoding of its instruction only in ignored bits that the syntax drops (30_encoding.md
R79). The code bits of SYSCALL, BREAK and COPz, which R79 and R216 call ignored too, are operands of the model's syntax
and are kept (log 14, DESIGN CHOICE). -/
def Obligations.EncodeOfDecodeKeepsTheUsedBits : Prop :=
  ∀ (w : Word) (i : Instr), decode w = .instr i → encode i = w &&& usedBits i

/-- R79: fields an instruction does not use may hold any value. (The code bits of SYSCALL, BREAK and COPz are operands of
the syntax, log 14.) -/
def Obligations.IgnoredBitsMayHoldAnyValue : Prop :=
  ∀ (w x : Word) (i : Instr), decode w = .instr i → decode (w ^^^ (x &&& ~~~usedBits i)) = .instr i

/-- The decoder follows the rows of opcode_table.json: a word decodes to an instruction of a row exactly when the row's
fixed bits match, so no two rows claim one word. -/
def Obligations.WordsDecodeByTheirTableRow : Prop :=
  (∀ (w : Word) (i : Instr), decode w = .instr i → w &&& rowMask i = rowMatch i) ∧
  (∀ (w : Word) (i : Instr), w &&& rowMask i = rowMatch i →
    ∃ j, decode w = .instr j ∧ rowMask j = rowMask i ∧ rowMatch j = rowMatch i) ∧
  (∀ i j : Instr, rowMatch i = rowMatch j ↔ i.ctorIdx = j.ctorIdx)

/-- R80, R219: the reserved words are exactly the listed ones; executing one logs it and raises RI. -/
def Obligations.ReservedWordsAreThoseListedAndRaiseRI : Prop :=
  (∀ w : Word, (∃ why, decode w = .reserved why) ↔ ReservedWord w) ∧
  (∀ (w : Word) (s : State), ReservedWord w →
    ∃ t, runWord w s = .next t ∧ EnteredFrom s.advance t .ri s.curPc s.dsCur ∧
      Logged s t [.reservedInstruction s.curPc w])

/-- Words written out from the spec's encodings decode to the instructions they stand for, one of each family. -/
def Obligations.WordsOfTheSpecDecode : Prop :=
  decode 0x00221820#32 = .instr (.add 3#5 1#5 2#5) ∧ decode 0x2442FFFF#32 = .instr (.addiu 2#5 2#5 0xFFFF#16) ∧
  decode 0x3C021F80#32 = .instr (.lui 2#5 0x1F80#16) ∧ decode 0x00011103#32 = .instr (.sra 2#5 1#5 4#5) ∧
  decode 0x00411804#32 = .instr (.sllv 3#5 1#5 2#5) ∧ decode 0x2C22FFFF#32 = .instr (.sltiu 2#5 1#5 0xFFFF#16) ∧
  decode 0x04300004#32 = .instr (.bltzal 1#5 4#16) ∧ decode 0x0C000080#32 = .instr (.jal 0x80#26) ∧
  decode 0x0040F809#32 = .instr (.jalr 31#5 2#5) ∧ decode 0x8FA2FFFC#32 = .instr (.lw 2#5 0xFFFC#16 29#5) ∧
  decode 0x0022001A#32 = .instr (.div 1#5 2#5) ∧ decode 0x40826000#32 = .instr (.mtc0 2#5 12#5) ∧
  decode 0x42000010#32 = .instr .rfe ∧ decode 0xC8000001#32 = .instr (.lwc2 0#5 1#16 0#5)

/-! ### The step -/

/-- A step polls, ages (phases 0 to 2), latches `cur_pc`, fetches, advances, and executes the instruction the fetched
word decodes to; the word comes from a memory, or is the answer of a handler to one 32-bit read. -/
def Obligations.StepRunsTheDecodedInstruction : Prop :=
  (∀ (s : State) (w : Word) (i : Instr), let b := s.pollInput.beginStep
    MapOrdered s → WordAtPc b w → decode w = .instr i → step s = exec i (inStep b)) ∧
  (∀ (s : State) (w : Word) (i : Instr), let b := s.pollInput.beginStep
    MapOrdered s → b.pc.toNat % 4 = 0 → Handled b (physical b.pc) → b.nextReply = .value w → decode w = .instr i →
    ∃ c, step s = exec i (inStep c) ∧ SameCore b c ∧
      CalledOnce b c (.read 32 (physical b.pc) (b.pc.extractLsb' 29 3)))

/-- R101, R102: what phases 0 to 2 do in every step. -/
def Obligations.AgeingMovesTheDelayBufferAndMarker : Prop :=
  ∀ s : State, let t := s.beginStep
    t.dsCur = s.dsNext ∧ t.dsNext = false ∧ t.ldCommit = s.ldArmed ∧ t.ldArmed = none ∧
    (∀ r v, s.ldCommit = some ⟨r, v⟩ → ∀ x, t.reg x = if x = r ∧ r ≠ 0#5 then v else s.reg x) ∧
    (s.ldCommit = none → SameRegs s t) ∧
    t.pc = s.pc ∧ t.npc = s.npc ∧ t.curPc = s.curPc ∧ SameC0 s t ∧ SameAcc s t ∧ SameMem s t ∧ SameOutside s t

/-- 20_memory.md R50, R54, 40_execution_cycle.md R103: a misaligned fetch raises AdEL with no bus access; an aligned one
from an address nobody answers, or whose handler faults, raises IBE; neither advances nor executes. -/
def Obligations.FaultingFetchRaisesAndExecutesNothing : Prop :=
  ∀ s : State, let b := s.pollInput.beginStep; let c := { b with curPc := b.pc }
    (b.pc.toNat % 4 ≠ 0 →
      ∃ t, step s = .next t ∧ EnteredFrom c t (.adEL b.pc) b.pc b.dsCur ∧ SameOutside b t) ∧
    (b.pc.toNat % 4 = 0 → Unclaimed b (physical b.pc) →
      ∃ t, step s = .next t ∧ EnteredFrom c t .ibe b.pc b.dsCur ∧ SameOutside b t) ∧
    (MapOrdered s → b.pc.toNat % 4 = 0 → Handled b (physical b.pc) → b.nextReply = .fault →
      ∃ t, step s = .next t ∧ EnteredFrom c t .ibe b.pc b.dsCur ∧
        CalledOnce b t (.read 32 (physical b.pc) (b.pc.extractLsb' 29 3)))

/-- 70_reset_and_hazards.md R275: `Step` is always enabled and always returns, from every state. -/
def Obligations.EveryStepAnswers : Prop := ∀ s : State, ∃ t, step s = .next t

/-- 60_exceptions.md R235, R236: before each step the poll copies the next presented level into `CAUSE[10]` (with no level
presented, 0: log 5), and enters Int at `pc` exactly when interrupts are enabled and a pending one is not masked. -/
def Obligations.PollTakesAnEnabledPendingInterrupt : Prop :=
  (∀ s : State, step s = stepOnly (State.poll { s with irqIn := s.irqIn.tail } (s.irqIn.headD false))) ∧
  ∀ (s : State) (irq : Bool),
    let c := s.c0Set 13#5 ((s.cause &&& ~~~0x400#32) ||| (if irq then 0x400#32 else 0#32))
    let takes := c.sr.getLsbD 0 = true ∧ ∃ k, 8 ≤ k ∧ k < 16 ∧ c.sr.getLsbD k = true ∧ c.cause.getLsbD k = true
    (takes → EnteredFrom { c with dsNext := false } (s.poll irq) .int s.pc s.dsNext ∧ SameOutside s (s.poll irq)) ∧
    (¬ takes → s.poll irq = c)

/-- 10_state.md R14: after every step `pc` and `npc` are a vector and its successor, or `pc` is the old `npc` and `npc` is
the address after it or the target a branch or jump of this step wrote. -/
def Obligations.ProgramCounterFlow : Prop :=
  ∀ s t : State, stepOnly s = .next t →
    t.dsCur = s.dsNext ∧ t.curPc = s.pc ∧
    (((t.pc = s.params.vecBoot ∨ t.pc = s.params.vecGeneral) ∧ t.npc = t.pc + 4#32 ∧ t.dsNext = false ∧
        t.epc = (if s.dsNext then s.pc - 4#32 else s.pc) ∧ t.cause.getLsbD 31 = s.dsNext) ∨
      (t.pc = s.npc ∧ (t.dsNext = false → t.npc = s.npc + 4#32)))

/-- 40_execution_cycle.md R112 (the spec derives it): the step after a taken branch or jump runs the delay slot with the
marker set; the step after that fetches from the target, unless the delay slot raised an exception, which records the
branch's address and `BD`. -/
def Obligations.DelaySlotRunsBeforeTheTarget : Prop :=
  ∀ (s t : State) (w : Word) (i : Instr), MapOrdered s → s.dsNext = true → WordAtPc s.beginStep w →
    decode w = .instr i → transfers i = false → stepOnly s = .next t →
    t.dsCur = true ∧ t.curPc = s.pc ∧ t.dsNext = false ∧
    ((t.pc = s.npc ∧ t.npc = s.npc + 4#32) ∨
      ((t.pc = s.params.vecBoot ∨ t.pc = s.params.vecGeneral) ∧ t.npc = t.pc + 4#32 ∧ t.epc = s.pc - 4#32 ∧
        t.cause.getLsbD 31 = true))

/-- 40_execution_cycle.md R111 (the spec derives it): a value scheduled in one step is not seen by the instruction of the
next step; the one after sees it, unless the instruction in between wrote or scheduled the same register. -/
def Obligations.LoadedValueIsSeenTwoStepsLater : Prop :=
  ∀ (s t : State) (r : Reg) (v w : Word) (i : Instr), MapOrdered s → r ≠ 0#5 → s.ldArmed = some ⟨r, v⟩ →
    (∀ x, s.ldCommit ≠ some ⟨r, x⟩) → WordAtPc s.beginStep w → decode w = .instr i → stepOnly s = .next t →
    exec i (inStep s.beginStep) = .next t ∧ (inStep s.beginStep).reg r = s.reg r ∧
    ((t.ldCommit = some ⟨r, v⟩ ∧ t.beginStep.reg r = v) ∨
      (t.ldCommit = none ∧ t.beginStep.reg r = t.reg r ∧ (writesReg i = some r ∨ schedules i = some r)))

/-! ### Exceptions -/

/-- 60_exceptions.md R240, R242: entry pushes the mode stack, writes `CAUSE`, `EPC` and, for an address error,
`BADVADDR`, goes to the vector that the boot-exception-vector bit selects (with the default vectors one of the two addresses
of R242), and changes nothing else. -/
def Obligations.ExceptionEntrySavesAndVectors : Prop :=
  ∀ (s : State) (e : Exc) (at' : Word) (bd : Bool),
    (let t := s.enter e at' bd; EnteredFrom s t e at' bd ∧ SameOutside s t ∧
      (s.params.vecBoot = Config.defaults.vecBoot → s.params.vecGeneral = Config.defaults.vecGeneral →
        t.pc = if s.sr.getLsbD 22 then 0xBFC00180#32 else 0x80000080#32)) ∧
    (let t := s.raise e; EnteredFrom s t e s.curPc s.dsCur ∧ SameOutside s t)

/-! ### Add and subtract -/

/-- R122, R124, R126: wrapping arithmetic, never a trap. -/
def Obligations.UncheckedArithmeticWraps : Prop :=
  ∀ (s : State) (rd rs rt : Reg) (imm : Half) (z : BitVec 5),
    Encodes (wordR rs rt rd z 0x21#6) (.addu rd rs rt) ∧ Encodes (wordR rs rt rd z 0x23#6) (.subu rd rs rt) ∧
    Encodes (wordI 0x09#6 rs rd imm) (.addiu rd rs imm) ∧
    (∃ v, WritesNow (.addu rd rs rt) s rd v ∧ v.toNat = ((s.reg rs).toNat + (s.reg rt).toNat) % 2 ^ 32) ∧
    (∃ v, WritesNow (.subu rd rs rt) s rd v ∧ v.toNat = (2 ^ 32 + (s.reg rs).toNat - (s.reg rt).toNat) % 2 ^ 32) ∧
    (∃ v, WritesNow (.addiu rd rs imm) s rd v ∧ (v.toNat : Int) = ((s.reg rs).toNat + imm.toInt) % 2 ^ 32)

/-- R121, R123, R125: the exact signed result if it fits, else Ov and no write; register 0 included. -/
def Obligations.CheckedArithmeticWritesOrTraps : Prop :=
  ∀ (s : State) (rd rs rt : Reg) (imm : Half) (z : BitVec 5),
    let fits := fun e : Int => -2 ^ 31 ≤ e ∧ e ≤ 2 ^ 31 - 1
    let sum := (s.reg rs).toInt + (s.reg rt).toInt
    let dif := (s.reg rs).toInt - (s.reg rt).toInt
    let imd := (s.reg rs).toInt + imm.toInt
    Encodes (wordR rs rt rd z 0x20#6) (.add rd rs rt) ∧ Encodes (wordR rs rt rd z 0x22#6) (.sub rd rs rt) ∧
    Encodes (wordI 0x08#6 rs rd imm) (.addi rd rs imm) ∧
    (fits sum → ∃ v, WritesNow (.add rd rs rt) s rd v ∧ v.toInt = sum) ∧
    (¬ fits sum → Raises (.add rd rs rt) s .ov) ∧
    (fits dif → ∃ v, WritesNow (.sub rd rs rt) s rd v ∧ v.toInt = dif) ∧
    (¬ fits dif → Raises (.sub rd rs rt) s .ov) ∧
    (fits imd → ∃ v, WritesNow (.addi rd rs imm) s rd v ∧ v.toInt = imd) ∧
    (¬ fits imd → Raises (.addi rd rs imm) s .ov)

/-! ### Logical -/

/-- R131 to R134, bit by bit. -/
def Obligations.LogicalCombinesBits : Prop :=
  ∀ (s : State) (rd rs rt : Reg) (z : BitVec 5),
    let a := s.reg rs
    let b := s.reg rt
    Encodes (wordR rs rt rd z 0x24#6) (.and rd rs rt) ∧ Encodes (wordR rs rt rd z 0x25#6) (.or rd rs rt) ∧
    Encodes (wordR rs rt rd z 0x26#6) (.xor rd rs rt) ∧ Encodes (wordR rs rt rd z 0x27#6) (.nor rd rs rt) ∧
    (∃ v, WritesNow (.and rd rs rt) s rd v ∧ ∀ k, k < 32 → v.getLsbD k = (a.getLsbD k && b.getLsbD k)) ∧
    (∃ v, WritesNow (.or rd rs rt) s rd v ∧ ∀ k, k < 32 → v.getLsbD k = (a.getLsbD k || b.getLsbD k)) ∧
    (∃ v, WritesNow (.xor rd rs rt) s rd v ∧ ∀ k, k < 32 → v.getLsbD k = (a.getLsbD k != b.getLsbD k)) ∧
    (∃ v, WritesNow (.nor rd rs rt) s rd v ∧ ∀ k, k < 32 → v.getLsbD k = !(a.getLsbD k || b.getLsbD k))

/-- R135 to R138: zero-extended immediates, and LUI. -/
def Obligations.LogicalImmediatesZeroExtend : Prop :=
  ∀ (s : State) (rt rs : Reg) (imm : Half) (z : BitVec 5),
    let a := s.reg rs
    Encodes (wordI 0x0C#6 rs rt imm) (.andi rt rs imm) ∧ Encodes (wordI 0x0D#6 rs rt imm) (.ori rt rs imm) ∧
    Encodes (wordI 0x0E#6 rs rt imm) (.xori rt rs imm) ∧ Encodes (wordI 0x0F#6 z rt imm) (.lui rt imm) ∧
    (∃ v, WritesNow (.andi rt rs imm) s rt v ∧ ∀ k, k < 32 → v.getLsbD k = (a.getLsbD k && decide (k < 16) && imm.getLsbD k)) ∧
    (∃ v, WritesNow (.ori rt rs imm) s rt v ∧ ∀ k, k < 32 → v.getLsbD k = (a.getLsbD k || (decide (k < 16) && imm.getLsbD k))) ∧
    (∃ v, WritesNow (.xori rt rs imm) s rt v ∧ ∀ k, k < 32 → v.getLsbD k = (a.getLsbD k != (decide (k < 16) && imm.getLsbD k))) ∧
    (∃ v, WritesNow (.lui rt imm) s rt v ∧ v.toNat = imm.toNat * 2 ^ 16)

/-! ### Shifts -/

/-- R141 to R143: fixed amounts, 0 to 31. -/
def Obligations.FixedShifts : Prop :=
  ∀ (s : State) (rd rt : Reg) (sa z : BitVec 5),
    Encodes (wordR z rt rd sa 0x00#6) (.sll rd rt sa) ∧ Encodes (wordR z rt rd sa 0x02#6) (.srl rd rt sa) ∧
    Encodes (wordR z rt rd sa 0x03#6) (.sra rd rt sa) ∧
    (∃ v, WritesNow (.sll rd rt sa) s rd v ∧ v.toNat = (s.reg rt).toNat * 2 ^ sa.toNat % 2 ^ 32) ∧
    (∃ v, WritesNow (.srl rd rt sa) s rd v ∧ v.toNat = (s.reg rt).toNat / 2 ^ sa.toNat) ∧
    (∃ v, WritesNow (.sra rd rt sa) s rd v ∧ v.toInt = (s.reg rt).toInt / 2 ^ sa.toNat)

/-- R144 to R146: the amount is the low 5 bits of `x[rs]`. -/
def Obligations.VariableShiftsUseFiveBits : Prop :=
  ∀ (s : State) (rd rt rs : Reg) (z : BitVec 5),
    let n := (s.reg rs).toNat % 32
    Encodes (wordR rs rt rd z 0x04#6) (.sllv rd rt rs) ∧ Encodes (wordR rs rt rd z 0x06#6) (.srlv rd rt rs) ∧
    Encodes (wordR rs rt rd z 0x07#6) (.srav rd rt rs) ∧
    (∃ v, WritesNow (.sllv rd rt rs) s rd v ∧ v.toNat = (s.reg rt).toNat * 2 ^ n % 2 ^ 32) ∧
    (∃ v, WritesNow (.srlv rd rt rs) s rd v ∧ v.toNat = (s.reg rt).toNat / 2 ^ n) ∧
    (∃ v, WritesNow (.srav rd rt rs) s rd v ∧ v.toInt = (s.reg rt).toInt / 2 ^ n)

/-! ### Compare-and-set -/

/-- R151 to R154: 1 or 0, signed or unsigned; SLTIU compares with the sign-extended immediate read as unsigned. -/
def Obligations.CompareAndSetWritesOneOrZero : Prop :=
  ∀ (s : State) (rd rs rt : Reg) (imm : Half) (z : BitVec 5),
    Encodes (wordR rs rt rd z 0x2A#6) (.slt rd rs rt) ∧ Encodes (wordR rs rt rd z 0x2B#6) (.sltu rd rs rt) ∧
    Encodes (wordI 0x0A#6 rs rd imm) (.slti rd rs imm) ∧ Encodes (wordI 0x0B#6 rs rd imm) (.sltiu rd rs imm) ∧
    WritesNow (.slt rd rs rt) s rd (if (s.reg rs).toInt < (s.reg rt).toInt then 1#32 else 0#32) ∧
    WritesNow (.sltu rd rs rt) s rd (if (s.reg rs).toNat < (s.reg rt).toNat then 1#32 else 0#32) ∧
    WritesNow (.slti rd rs imm) s rd (if (s.reg rs).toInt < imm.toInt then 1#32 else 0#32) ∧
    WritesNow (.sltiu rd rs imm) s rd (if ((s.reg rs).toNat : Int) < imm.toInt % 2 ^ 32 then 1#32 else 0#32)

/-! ### Branches and jumps -/

/-- R161 to R166: taken, only the deferred transfer to the delay slot's address plus four times the signed offset; not
taken, nothing at all. -/
def Obligations.BranchesTransferOnTheirCondition : Prop :=
  ∀ (s : State) (rs rt : Reg) (offset : Half) (z : BitVec 5),
    let goes := fun (i : Instr) (c : Prop) =>
      (c → ∃ t, exec i s = .next t ∧ TransferFrom s t (s.pc + BitVec.ofInt 32 (4 * offset.toInt)) ∧
        SameRegs s t ∧ SameC0 s t ∧ SameAcc s t ∧ SameBuffer s t ∧ SameMem s t) ∧
      (¬ c → exec i s = .next s)
    Encodes (wordI 0x04#6 rs rt offset) (.beq rs rt offset) ∧ Encodes (wordI 0x05#6 rs rt offset) (.bne rs rt offset) ∧
    Encodes (wordI 0x06#6 rs z offset) (.blez rs offset) ∧ Encodes (wordI 0x07#6 rs z offset) (.bgtz rs offset) ∧
    Encodes (wordI 0x01#6 rs 0x00#5 offset) (.bltz rs offset) ∧ Encodes (wordI 0x01#6 rs 0x01#5 offset) (.bgez rs offset) ∧
    goes (.beq rs rt offset) (s.reg rs = s.reg rt) ∧ goes (.bne rs rt offset) (s.reg rs ≠ s.reg rt) ∧
    goes (.blez rs offset) ((s.reg rs).toInt ≤ 0) ∧ goes (.bgtz rs offset) ((s.reg rs).toInt > 0) ∧
    goes (.bltz rs offset) ((s.reg rs).toInt < 0) ∧ goes (.bgez rs offset) ((s.reg rs).toInt ≥ 0)

/-- R167, R168: register 31 gets the in-step `npc` whether or not the branch is taken; the condition is that of the old
register. -/
def Obligations.LinkingBranchesAlwaysLink : Prop :=
  ∀ (s : State) (rs : Reg) (offset : Half),
    let goes := fun (i : Instr) (c : Prop) =>
      ∃ t, exec i s = .next t ∧ WrittenFrom s t 31#5 s.npc ∧
        (c → TransferFrom s t (s.pc + BitVec.ofInt 32 (4 * offset.toInt))) ∧
        (¬ c → SameFlow s t ∧ SameOutside s t)
    Encodes (wordI 0x01#6 rs 0x10#5 offset) (.bltzal rs offset) ∧
    Encodes (wordI 0x01#6 rs 0x11#5 offset) (.bgezal rs offset) ∧
    goes (.bltzal rs offset) ((s.reg rs).toInt < 0) ∧ goes (.bgezal rs offset) ((s.reg rs).toInt ≥ 0)

/-- R171 to R174: the absolute target from the jump's own address, the register target as it is, and the link. (The
statement covers every configuration; for a J or JAL in the last word of a 256 MiB block, which the default memory map
cannot fetch and another may, the four bits of its own address are the model's choice: log 26, DESIGN CHOICE.) -/
def Obligations.JumpsTransferAndLink : Prop :=
  ∀ (s : State) (rd rs : Reg) (target : BitVec 26) (x y z : BitVec 5),
    Encodes (wordJ 0x02#6 target) (.j target) ∧ Encodes (wordJ 0x03#6 target) (.jal target) ∧
    Encodes (wordR rs x y z 0x08#6) (.jr rs) ∧ Encodes (wordR rs x rd z 0x09#6) (.jalr rd rs) ∧
    (∃ a t, exec (.j target) s = .next t ∧ a.toNat = s.curPc.toNat / 2 ^ 28 * 2 ^ 28 + target.toNat * 4 ∧
      TransferFrom s t a ∧ SameRegs s t ∧ SameC0 s t ∧ SameAcc s t ∧ SameBuffer s t ∧ SameMem s t) ∧
    (∃ a t, exec (.jal target) s = .next t ∧ a.toNat = s.curPc.toNat / 2 ^ 28 * 2 ^ 28 + target.toNat * 4 ∧
      TransferFrom s t a ∧ WrittenFrom s t 31#5 s.npc) ∧
    (∃ t, exec (.jr rs) s = .next t ∧ TransferFrom s t (s.reg rs) ∧ SameRegs s t ∧ SameC0 s t ∧ SameAcc s t ∧
      SameBuffer s t ∧ SameMem s t) ∧
    (∃ t, exec (.jalr rd rs) s = .next t ∧ TransferFrom s t (s.reg rs) ∧ WrittenFrom s t rd s.npc)

/-! ### Loads -/

/-- R181 to R185: an aligned load from a memory of the core schedules the widened little-endian value. -/
def Obligations.LoadsDeliverMemoryLater : Prop :=
  ∀ (op : LoadOp) (s : State) (rt rs : Reg) (offset : Half),
    let a := address s offset rs
    let p := physical a
    MapOrdered s → a.toNat % op.bytes = 0 → InMain p ∨ InScratch s p ∨ InFirmware s p →
    ∃ t, exec (op.instr rt offset rs) s = .next t ∧
      ArmedFrom s t rt (op.widen (BitVec.ofNat 32 (leValue s.mem p op.bytes))) ∧ SameOutside s t

/-- R186, R187: LWL and LWR merge the aligned word of a memory into the in-flight value of the register. -/
def Obligations.UnalignedLoadsMergeMemoryLater : Prop :=
  ∀ (left : Bool) (s : State) (rt rs : Reg) (offset : Half) (cur : Word),
    let a := address s offset rs
    let p := physical (wordOf a)
    MapOrdered s → InMain p ∨ InScratch s p ∨ InFirmware s p → InFlight s rt cur →
    ∃ v t, exec (mergeLoad left rt offset rs) s = .next t ∧
      MergedLoad left (a.toNat % 4) (fun j => s.mem.read (p + j)) cur v ∧ ArmedFrom s t rt v ∧ SameOutside s t

/-- 20_memory.md R46, R47: a load from an address nobody answers delivers 0, logged, and raises nothing. -/
def Obligations.UnclaimedLoadsReadZeroAndLog : Prop :=
  (∀ (op : LoadOp) (s : State) (rt rs : Reg) (offset : Half),
    let a := address s offset rs
    a.toNat % op.bytes = 0 → Unclaimed s (physical a) →
    ∃ t, exec (op.instr rt offset rs) s = .next t ∧ ArmedFrom s t rt 0#32 ∧ Logged s t [.unmappedRead a op.bytes]) ∧
  (∀ (left : Bool) (s : State) (rt rs : Reg) (offset : Half) (cur : Word),
    let a := address s offset rs
    Unclaimed s (physical (wordOf a)) → InFlight s rt cur →
    ∃ v t, exec (mergeLoad left rt offset rs) s = .next t ∧
      MergedLoad left (a.toNat % 4) (fun _ => 0#8) cur v ∧ ArmedFrom s t rt v ∧
      Logged s t [.unmappedRead (wordOf a) 4])

/-- 20_memory.md R55, R56: a load from a handler makes one call, with the width, the physical address and the segment,
and delivers the low bits of the answer; a fault raises DBE and schedules nothing. -/
def Obligations.HandlerLoadsDeliverOrRaiseDBE : Prop :=
  (∀ (op : LoadOp) (s : State) (rt rs : Reg) (offset : Half),
    let a := address s offset rs
    let call := IoCall.read (8 * op.bytes) (physical a) (a.extractLsb' 29 3)
    MapOrdered s → a.toNat % op.bytes = 0 → Handled s (physical a) →
    ∃ t, exec (op.instr rt offset rs) s = .next t ∧ CalledOnce s t call ∧
      (∀ v, s.nextReply = .value v → ArmedFrom s t rt (op.widen v)) ∧
      (s.nextReply = .fault → EnteredFrom s t .dbe s.curPc s.dsCur)) ∧
  (∀ (left : Bool) (s : State) (rt rs : Reg) (offset : Half) (cur : Word),
    let a := address s offset rs
    let call := IoCall.read 32 (physical (wordOf a)) (a.extractLsb' 29 3)
    MapOrdered s → Handled s (physical (wordOf a)) → InFlight s rt cur →
    ∃ t, exec (mergeLoad left rt offset rs) s = .next t ∧ CalledOnce s t call ∧
      (∀ v, s.nextReply = .value v → ∃ x, MergedLoad left (a.toNat % 4) (byteOf v) cur x ∧ ArmedFrom s t rt x) ∧
      (s.nextReply = .fault → EnteredFrom s t .dbe s.curPc s.dsCur))

/-- 20_memory.md R49: a misaligned halfword or word access raises AdEL or AdES with the virtual address, before the bus is
touched. -/
def Obligations.MisalignedAccessRaisesAddressError : Prop :=
  ∀ (s : State) (rt rs : Reg) (offset : Half),
    let a := address s offset rs
    (∀ op : LoadOp, a.toNat % op.bytes ≠ 0 → Raises (op.instr rt offset rs) s (.adEL a)) ∧
    (∀ op : StoreOp, a.toNat % op.bytes ≠ 0 → Raises (op.instr rt offset rs) s (.adES a))

/-! ### Stores -/

/-- R188 to R190: an aligned store to main or scratch memory writes exactly its bytes, least significant first. -/
def Obligations.StoresWriteExactlyTheirBytes : Prop :=
  ∀ (op : StoreOp) (s : State) (rt rs : Reg) (offset : Half),
    let a := address s offset rs
    let p := physical a
    a.toNat % op.bytes = 0 → InMain p ∨ InScratch s p →
    ∃ t, exec (op.instr rt offset rs) s = .next t ∧
      (∀ j, j < op.bytes → t.mem.read (p + j) = byteOf (s.reg rt) j) ∧
      (∀ x, x < p ∨ p + op.bytes ≤ x → t.mem.read x = s.mem.read x) ∧ OnlyMemory s t ∧ SameOutside s t

/-- R191, R192: SWL and SWR to main or scratch memory change only the bytes of the aligned word they select. -/
def Obligations.UnalignedStoresWriteTheSelectedBytes : Prop :=
  ∀ (left : Bool) (s : State) (rt rs : Reg) (offset : Half),
    let a := address s offset rs
    let p := physical (wordOf a)
    InMain p ∨ InScratch s p →
    ∃ t, exec (mergeStore left rt offset rs) s = .next t ∧
      MergedStore left (a.toNat % 4) (fun j => s.mem.read (p + j)) (s.reg rt) (fun j => t.mem.read (p + j)) ∧
      (∀ x, x < p ∨ p + 4 ≤ x → t.mem.read x = s.mem.read x) ∧ OnlyMemory s t ∧ SameOutside s t

/-- 20_memory.md R45, R47: a store to firmware or to an address nobody answers changes nothing and is logged; SWL and SWR
first read the word (47_load_store.md R191). -/
def Obligations.DiscardedStoresChangeNothingAndLog : Prop :=
  (∀ (op : StoreOp) (s : State) (rt rs : Reg) (offset : Half),
    let a := address s offset rs
    a.toNat % op.bytes = 0 →
    (MapOrdered s → InFirmware s (physical a) → ∃ t, exec (op.instr rt offset rs) s = .next t ∧ SameCore s t ∧
      Logged s t [.firmwareWrite a op.bytes (op.value (s.reg rt))]) ∧
    (Unclaimed s (physical a) → ∃ t, exec (op.instr rt offset rs) s = .next t ∧ SameCore s t ∧
      Logged s t [.unmappedWrite a op.bytes (op.value (s.reg rt))])) ∧
  (∀ (left : Bool) (s : State) (rt rs : Reg) (offset : Half),
    let a := address s offset rs
    let p := physical (wordOf a)
    (MapOrdered s → InFirmware s p → ∃ x t, exec (mergeStore left rt offset rs) s = .next t ∧ SameCore s t ∧
      MergedStore left (a.toNat % 4) (fun j => s.mem.read (p + j)) (s.reg rt) (byteOf x) ∧
      Logged s t [.firmwareWrite (wordOf a) 4 x]) ∧
    (Unclaimed s p → ∃ x t, exec (mergeStore left rt offset rs) s = .next t ∧ SameCore s t ∧
      MergedStore left (a.toNat % 4) (fun _ => 0#8) (s.reg rt) (byteOf x) ∧
      Logged s t [.unmappedRead (wordOf a) 4, .unmappedWrite (wordOf a) 4 x]))

/-- 20_memory.md R55, R56: a store to a handler makes one call with the truncated value; a fault raises DBE. -/
def Obligations.HandlerStoresCallOrRaiseDBE : Prop :=
  ∀ (op : StoreOp) (s : State) (rt rs : Reg) (offset : Half),
    let a := address s offset rs
    let call := IoCall.write (8 * op.bytes) (physical a) (a.extractLsb' 29 3) (op.value (s.reg rt))
    MapOrdered s → a.toNat % op.bytes = 0 → Handled s (physical a) →
    ∃ t, exec (op.instr rt offset rs) s = .next t ∧ CalledOnce s t call ∧
      (∀ v, s.nextReply = .value v → SameCore s t) ∧
      (s.nextReply = .fault → EnteredFrom s t .dbe s.curPc s.dsCur)

/-- 47_load_store.md R191, 60_exceptions.md R238: SWL and SWR to a handler make a 32-bit read and a 32-bit write; the
first fault wins, and after a faulting read nothing is written. -/
def Obligations.UnalignedHandlerStoresReadThenWrite : Prop :=
  ∀ (left : Bool) (s : State) (rt rs : Reg) (offset : Half),
    let a := address s offset rs
    let p := physical (wordOf a)
    let seg := a.extractLsb' 29 3
    MapOrdered s → Handled s p →
    (s.nextReply = .fault → ∃ t, exec (mergeStore left rt offset rs) s = .next t ∧
      CalledOnce s t (.read 32 p seg) ∧ EnteredFrom s t .dbe s.curPc s.dsCur) ∧
    (∀ v, s.nextReply = .value v →
      ∃ x t, exec (mergeStore left rt offset rs) s = .next t ∧
        MergedStore left (a.toNat % 4) (byteOf v) (s.reg rt) (byteOf x) ∧
        CalledTwice s t (.read 32 p seg) (.write 32 p seg x) ∧
        (∀ u, secondReply s = .value u → SameCore s t) ∧
        (secondReply s = .fault → EnteredFrom s t .dbe s.curPc s.dsCur))

/-! ### The bus -/

/-- 20_memory.md R41: the addresses that differ in bits 31:29 only name the same byte, for reads and for writes. -/
def Obligations.MirroredAddressesNameTheSameByte : Prop :=
  ∀ (s : State) (a b : Word) (w : Width) (v : Word), a.extractLsb' 0 29 = b.extractLsb' 0 29 →
    physical a = physical b ∧ physical a < 2 ^ 29 ∧ translateAddr a = physical a ∧
    (¬ Handled s (physical a) → (s.memRead a w).value = (s.memRead b w).value) ∧
    (¬ Handled s (physical a) → (s.memWrite a w v).state.mem = (s.memWrite b w v).state.mem)

/-- 20_memory.md R44 (and R62, for the fetch): what is written to main or scratch memory is read back, through any mirror,
by a load and by an instruction fetch. -/
def Obligations.WrittenWordIsReadBackAndFetched : Prop :=
  ∀ (s : State) (a b : Word) (v : Word), a.toNat % 4 = 0 → physical a = physical b →
    InMain (physical a) ∨ InScratch s (physical a) →
    let t := (s.memWrite a .word v).state
    (t.memRead b .word).value = some v ∧ (t.memFetch b).value = some v ∧ (t.memRead b .word).state = t

/-- 20_memory.md R45: no step changes a byte of firmware. -/
def Obligations.FirmwareIsImmutable : Prop :=
  ∀ s t : State, MapOrdered s → step s = .next t → ∀ p, InFirmware s p → t.mem.read p = s.mem.read p

/-! ### Multiply, divide, accumulators -/

/-- R201, R202: the exact 64-bit product, upper half in `hi`, lower in `lo`. -/
def Obligations.MultiplySplitsTheExactProduct : Prop :=
  ∀ (s : State) (rs rt : Reg) (y z : BitVec 5),
    Encodes (wordR rs rt y z 0x18#6) (.mult rs rt) ∧ Encodes (wordR rs rt y z 0x19#6) (.multu rs rt) ∧
    (∃ t, exec (.mult rs rt) s = .next t ∧
      t.hi.toInt * 2 ^ 32 + t.lo.toNat = (s.reg rs).toInt * (s.reg rt).toInt ∧
      SameRegs s t ∧ SameC0 s t ∧ SameBuffer s t ∧ SameMem s t ∧ SameFlow s t ∧ SameOutside s t) ∧
    (∃ t, exec (.multu rs rt) s = .next t ∧
      t.hi.toNat * 2 ^ 32 + t.lo.toNat = (s.reg rs).toNat * (s.reg rt).toNat ∧
      SameRegs s t ∧ SameC0 s t ∧ SameBuffer s t ∧ SameMem s t ∧ SameFlow s t ∧ SameOutside s t)

/-- R203: division by zero, the overflowing division, and truncation toward zero. -/
def Obligations.SignedDivisionCorners : Prop :=
  ∀ (s : State) (rs rt : Reg) (y z : BitVec 5),
    let n := (s.reg rs).toInt
    let d := (s.reg rt).toInt
    Encodes (wordR rs rt y z 0x1A#6) (.div rs rt) ∧
    ∃ t, exec (.div rs rt) s = .next t ∧
      (d = 0 → t.lo = (if n ≥ 0 then 0xFFFFFFFF#32 else 1#32) ∧ t.hi = s.reg rs) ∧
      (n = -2 ^ 31 → d = -1 → t.lo = 0x80000000#32 ∧ t.hi = 0#32) ∧
      (d ≠ 0 → ¬ (n = -2 ^ 31 ∧ d = -1) →
        n = t.lo.toInt * d + t.hi.toInt ∧ |t.hi.toInt| < |d| ∧ (0 ≤ n → 0 ≤ t.hi.toInt) ∧ (n ≤ 0 → t.hi.toInt ≤ 0)) ∧
      SameRegs s t ∧ SameC0 s t ∧ SameBuffer s t ∧ SameMem s t ∧ SameFlow s t ∧ SameOutside s t

/-- R204: unsigned division, and division by zero. -/
def Obligations.UnsignedDivision : Prop :=
  ∀ (s : State) (rs rt : Reg) (y z : BitVec 5),
    let n := (s.reg rs).toNat
    let d := (s.reg rt).toNat
    Encodes (wordR rs rt y z 0x1B#6) (.divu rs rt) ∧
    ∃ t, exec (.divu rs rt) s = .next t ∧
      (d = 0 → t.lo = 0xFFFFFFFF#32 ∧ t.hi = s.reg rs) ∧
      (d ≠ 0 → n = t.lo.toNat * d + t.hi.toNat ∧ t.hi.toNat < d) ∧
      SameRegs s t ∧ SameC0 s t ∧ SameBuffer s t ∧ SameMem s t ∧ SameFlow s t ∧ SameOutside s t

/-- R205 to R208: the accumulator moves, immediate; moving to one accumulator leaves the other. -/
def Obligations.AccumulatorMoves : Prop :=
  ∀ (s : State) (rd rs : Reg) (x y z : BitVec 5),
    Encodes (wordR x y rd z 0x10#6) (.mfhi rd) ∧ Encodes (wordR x y rd z 0x12#6) (.mflo rd) ∧
    Encodes (wordR rs x y z 0x11#6) (.mthi rs) ∧ Encodes (wordR rs x y z 0x13#6) (.mtlo rs) ∧
    WritesNow (.mfhi rd) s rd s.hi ∧ WritesNow (.mflo rd) s rd s.lo ∧
    (∃ t, exec (.mthi rs) s = .next t ∧ t.hi = s.reg rs ∧ t.lo = s.lo ∧
      SameRegs s t ∧ SameC0 s t ∧ SameBuffer s t ∧ SameMem s t ∧ SameFlow s t ∧ SameOutside s t) ∧
    (∃ t, exec (.mtlo rs) s = .next t ∧ t.lo = s.reg rs ∧ t.hi = s.hi ∧
      SameRegs s t ∧ SameC0 s t ∧ SameBuffer s t ∧ SameMem s t ∧ SameFlow s t ∧ SameOutside s t)

/-! ### System -/

/-- R210, R211: SYSCALL and BREAK always raise, whatever their code field. -/
def Obligations.SyscallAndBreakRaise : Prop :=
  ∀ (s : State) (code : BitVec 20),
    Encodes (wordCode code 0x0C#6) (.syscall code) ∧ Encodes (wordCode code 0x0D#6) (.brk code) ∧
    Raises (.syscall code) s .sys ∧ Raises (.brk code) s .bp

/-- R216 to R218: every operation, load and store of an absent coprocessor raises coprocessor-unusable with its number,
whatever `SR` holds and whatever the address; nothing is read or stored. -/
def Obligations.CoprocessorsAreUnusable : Prop :=
  ∀ (s : State) (cofun : BitVec 26) (rt rs : Reg) (offset : Half),
    Encodes (wordJ 0x11#6 cofun) (.cop1 cofun) ∧ Encodes (wordJ 0x12#6 cofun) (.cop2 cofun) ∧
    Encodes (wordJ 0x13#6 cofun) (.cop3 cofun) ∧
    Encodes (wordI 0x30#6 rs rt offset) (.lwc0 rt offset rs) ∧ Encodes (wordI 0x31#6 rs rt offset) (.lwc1 rt offset rs) ∧
    Encodes (wordI 0x32#6 rs rt offset) (.lwc2 rt offset rs) ∧ Encodes (wordI 0x33#6 rs rt offset) (.lwc3 rt offset rs) ∧
    Encodes (wordI 0x38#6 rs rt offset) (.swc0 rt offset rs) ∧ Encodes (wordI 0x39#6 rs rt offset) (.swc1 rt offset rs) ∧
    Encodes (wordI 0x3A#6 rs rt offset) (.swc2 rt offset rs) ∧ Encodes (wordI 0x3B#6 rs rt offset) (.swc3 rt offset rs) ∧
    Raises (.cop1 cofun) s (.cpU 1#2) ∧ Raises (.cop2 cofun) s (.cpU 2#2) ∧ Raises (.cop3 cofun) s (.cpU 3#2) ∧
    Raises (.lwc0 rt offset rs) s (.cpU 0#2) ∧ Raises (.lwc1 rt offset rs) s (.cpU 1#2) ∧
    Raises (.lwc2 rt offset rs) s (.cpU 2#2) ∧ Raises (.lwc3 rt offset rs) s (.cpU 3#2) ∧
    Raises (.swc0 rt offset rs) s (.cpU 0#2) ∧ Raises (.swc1 rt offset rs) s (.cpU 1#2) ∧
    Raises (.swc2 rt offset rs) s (.cpU 2#2) ∧ Raises (.swc3 rt offset rs) s (.cpU 3#2)

/-- R212, R213: MFC0 schedules the register's value, MTC0 writes all 32 bits of any of the 32 registers at once. -/
def Obligations.SystemControlTransfersAreRaw : Prop :=
  ∀ (s : State) (rt rd : Reg) (low : BitVec 11),
    Encodes (wordMove 0x00#5 rt rd low) (.mfc0 rt rd) ∧ Encodes (wordMove 0x04#5 rt rd low) (.mtc0 rt rd) ∧
    (∃ t, exec (.mfc0 rt rd) s = .next t ∧ ArmedFrom s t rt (s.c0Get rd) ∧ SameOutside s t) ∧
    (∃ t, exec (.mtc0 rt rd) s = .next t ∧ (∀ n, t.c0Get n = if n = rd then s.reg rt else s.c0Get n) ∧
      SameRegs s t ∧ SameAcc s t ∧ SameBuffer s t ∧ SameMem s t ∧ SameFlow s t ∧ SameOutside s t)

/-- R214: RFE pops the mode stack and writes nothing else, the program counters included. -/
def Obligations.ReturnPopsTheModeStackOnly : Prop :=
  ∀ (s : State) (low : BitVec 15), Encodes (wordReturn low) .rfe ∧ ∃ t, exec .rfe s = .next t ∧
    (∀ k, k < 32 → t.sr.getLsbD k = if k < 4 then s.sr.getLsbD (k + 2) else s.sr.getLsbD k) ∧
    (∀ n, n ≠ 12#5 → t.c0Get n = s.c0Get n) ∧
    SameRegs s t ∧ SameAcc s t ∧ SameBuffer s t ∧ SameMem s t ∧ SameFlow s t ∧ SameOutside s t

/-! ### Whole-machine rules -/

/-- 10_state.md R10, R11, R109: an instruction changes no general register but its destination; loads and MFC0 change
none in their own step. -/
def Obligations.OnlyTheDestinationRegisterChanges : Prop :=
  ∀ (i : Instr) (s t : State), exec i s = .next t → ∀ r, writesReg i ≠ some r → t.reg r = s.reg r

/-- 10_state.md R16: no other instruction touches the accumulators. -/
def Obligations.OnlyMultiplyDivideTouchAccumulators : Prop :=
  ∀ (i : Instr) (s t : State), exec i s = .next t → writesAcc i = false → SameAcc s t

/-- Only the five stores change memory, and only main or scratch memory. -/
def Obligations.OnlyStoresChangeMemory : Prop :=
  ∀ (i : Instr) (s t : State), exec i s = .next t →
    (stores i = false → t.mem = s.mem) ∧
    (MapOrdered s → ∀ p, t.mem.read p ≠ s.mem.read p → InMain p ∨ InScratch s p)

/-- 10_state.md R20, R22, R27: hardware writes no opaque register and not PRID, and of `SR` only bits 5:0; MTC0 alone
writes the rest, and only the register it names. -/
def Obligations.OnlyMtc0WritesOpaqueControlState : Prop :=
  ∀ (i : Instr) (s t : State) (n : Reg), exec i s = .next t → (∀ rt, i ≠ .mtc0 rt n) →
    (n ≠ 8#5 → n ≠ 12#5 → n ≠ 13#5 → n ≠ 14#5 → t.c0Get n = s.c0Get n) ∧
    (n = 12#5 → ∀ k, 6 ≤ k → k < 32 → t.sr.getLsbD k = s.sr.getLsbD k)

/-- 60_exceptions.md R246: the privilege bit has no effect: with it flipped every instruction but MFC0 of `SR` does the
same to everything but `SR`. -/
def Obligations.PrivilegeBitHasNoEffect : Prop :=
  ∀ (i : Instr) (s t : State), (∀ rt, i ≠ .mfc0 rt 12#5) → exec i s = .next t →
    ∃ t', exec i (flipMode s) = .next t' ∧ t' = t.c0Set 12#5 t'.sr

/-- 70_reset_and_hazards.md R272: the diagnostic log is write-only: no step depends on it, and a step only appends to it. -/
def Obligations.LogIsASideChannel : Prop :=
  ∀ (s t : State) (l : List LogEvent), step s = .next t →
    ∃ new, t.log = s.log ++ new ∧ step { s with log := l } = .next { t with log := l ++ new }

/-- An instruction placed for the next step is the one it runs: where the fetch can read a memory of the core, or has to
be moved to main memory, the fetched word is the placed one. (The placing is the model's: log 18.) -/
def Obligations.PlacedInstructionIsRun : Prop :=
  ∀ (s : State) (w : Word) (i : Instr), decode w = .instr i → ¬ Handled s (physical s.fetchAddr) →
    let b := (s.withFetchWord 32 w.toNat).pollInput.beginStep
    step (s.withFetchWord 32 w.toNat) = exec i (inStep b)

/-- The defaults of 00_scope.md R4 for the parameters it marks as general knowledge, and where they put the regions of
20_memory.md R42 and what they make of R242. -/
def Obligations.DefaultConfigurationIsThatOfTheSpec : Prop :=
  Config.defaults.scratchBase = 0x1F800000 ∧ Config.defaults.ioBase = 0x1F801000 ∧ Config.defaults.fwBase = 0x1FC00000 ∧
  Config.defaults.resetVector = 0xBFC00000#32 ∧ Config.defaults.vecGeneral = 0x80000080#32 ∧
  Config.defaults.vecBoot = 0xBFC00180#32 ∧ Config.defaults.pridValue = 0x00000002#32 ∧
  Config.defaults.srReset = 0x00400000#32 ∧ Config.defaults.precedence = .directWriteCancels ∧
  Config.defaults.wellFormed = true ∧ State.reset.params = Config.defaults ∧
  (∀ (c : Config.Params) (p : Nat), c.scratchBase = Config.defaults.scratchBase → c.ioBase = Config.defaults.ioBase →
    c.fwBase = Config.defaults.fwBase →
    region c p =
      if p ≤ 0x001FFFFF then .main
      else if 0x1F800000 ≤ p ∧ p ≤ 0x1F8003FF then .scratch
      else if 0x1F801000 ≤ p ∧ p ≤ 0x1F801FFF then .io
      else if 0x1FC00000 ≤ p ∧ p ≤ 0x1FC7FFFF then .firmware
      else .unmapped)
end

