-- ==== Sys2Proof/Laws/Bits.lean ====
section
/-! SUPPORT. The bits of every word the model puts together from fields: the status and cause registers, merges of the
unaligned-word instructions, jump and branch targets, alignment. -/

namespace Sys2Proof.Machine

/-! ### The status register -/

/-- Entry pushes the mode stack (60_exceptions.md R240). -/
theorem getLsbD_pushModes (sr : Word) (k : Nat) (hk : k < 32) :
    (pushModes sr).getLsbD k = if k < 2 then false else if k < 6 then sr.getLsbD (k - 2) else sr.getLsbD k := by
  change BitVec.getLsbD (w := 26 + 4 + 2) (sr.extractLsb' 6 26 ++ sr.extractLsb' 0 4 ++ 0b00#2) k = _
  simp only [BitVec.getLsbD_append, BitVec.getLsbD_extractLsb', Nat.sub_sub]
  repeat' split
  all_goals try omega
  · have : k = 0 ∨ k = 1 := by omega
    rcases this with rfl | rfl <;> decide
  · rw [decide_eq_true (show k - 2 < 4 by omega)]; simp
  · rw [decide_eq_true (show k - 6 < 26 by omega), show 6 + (k - 6) = k by omega]; simp

/-- Return pops it (49_system.md R214). -/
theorem getLsbD_popModes (sr : Word) (k : Nat) (hk : k < 32) :
    (popModes sr).getLsbD k = if k < 4 then sr.getLsbD (k + 2) else sr.getLsbD k := by
  change BitVec.getLsbD (w := 28 + 4) (sr.extractLsb' 4 28 ++ sr.extractLsb' 2 4) k = _
  simp only [BitVec.getLsbD_append, BitVec.getLsbD_extractLsb']
  split
  · rename_i h; simp [h, Nat.add_comm]
  · rw [decide_eq_true (show k - 4 < 28 by omega), show 4 + (k - 4) = k by omega]; simp

/-! ### The cause register -/

theorem getLsbD_causeWithEntry (c : Word) (bd : Bool) (code : BitVec 5) (k : Nat) (hk : k < 32) :
    (causeWithEntry c bd code).getLsbD k =
      if 2 ≤ k ∧ k ≤ 6 then code.getLsbD (k - 2) else if k = 31 then bd else c.getLsbD k := by
  change BitVec.getLsbD (w := 1 + 24 + 5 + 2) (BitVec.ofBool bd ++ c.extractLsb' 7 24 ++ code ++ c.extractLsb' 0 2) k = _
  simp only [BitVec.getLsbD_append, BitVec.getLsbD_extractLsb', Nat.sub_sub]
  repeat' split
  all_goals try omega
  · rename_i h _ _; simp [h]
  · rfl
  · rw [decide_eq_true (show k - 7 < 24 by omega), show 7 + (k - 7) = k by omega]; simp
  · simp only [show k - 31 = 0 by omega]; simp

theorem getLsbD_causeWithCE (c : Word) (ce : BitVec 2) (k : Nat) (hk : k < 32) :
    (causeWithCE c ce).getLsbD k = if 28 ≤ k ∧ k ≤ 29 then ce.getLsbD (k - 28) else c.getLsbD k := by
  change BitVec.getLsbD (w := 2 + 2 + 28) (c.extractLsb' 30 2 ++ ce ++ c.extractLsb' 0 28) k = _
  simp only [BitVec.getLsbD_append, BitVec.getLsbD_extractLsb', Nat.sub_sub]
  repeat' split
  all_goals try omega
  · rename_i h _; simp [h]
  · rfl
  · rw [decide_eq_true (show k - 30 < 2 by omega), show 30 + (k - 30) = k by omega]; simp

/-- The poll copies the level into bit 10 (60_exceptions.md R236). -/
theorem getLsbD_causeWithIrq (c : Word) (irq : Bool) (k : Nat) (hk : k < 32) :
    (causeWithIrq c irq).getLsbD k = if k = 10 then irq else c.getLsbD k := by
  change BitVec.getLsbD (w := 21 + 1 + 10) (c.extractLsb' 11 21 ++ BitVec.ofBool irq ++ c.extractLsb' 0 10) k = _
  simp only [BitVec.getLsbD_append, BitVec.getLsbD_extractLsb', Nat.sub_sub]
  repeat' split
  all_goals try omega
  · rename_i h _; simp [h]
  · simp only [show k - 10 = 0 by omega]; simp
  · rw [decide_eq_true (show k - 11 < 21 by omega), show 11 + (k - 11) = k by omega]; simp

/-- The same by masks. -/
theorem causeWithIrq_eq (c : Word) (irq : Bool) :
    causeWithIrq c irq = (c &&& ~~~0x400#32) ||| (if irq then 0x400#32 else 0#32) := by
  apply BitVec.eq_of_getLsbD_eq
  intro i hi
  have h := (by decide : ∀ j : Fin 32, (0x400#32).getLsbD j.val = decide (j.val = 10)) ⟨i, hi⟩
  simp only at h
  have h0 : (if irq then 0x400#32 else 0#32).getLsbD i = (irq && decide (i = 10)) := by
    cases irq
    · simp
    · exact h.trans (by simp)
  rw [getLsbD_causeWithIrq _ _ _ hi, BitVec.getLsbD_or, BitVec.getLsbD_and, BitVec.getLsbD_not, h, h0]
  by_cases h10 : i = 10 <;> simp [h10, hi]

/-- The code of a cause, bit by bit. -/
theorem getLsbD_code (e : Exc) (k : Nat) (hk : k < 5) : e.code.getLsbD k = (excNumber e).testBit k := by
  have : k = 0 ∨ k = 1 ∨ k = 2 ∨ k = 3 ∨ k = 4 := by omega
  cases e <;> rcases this with rfl | rfl | rfl | rfl | rfl <;> rfl

/-- `CAUSE` after entry, bit by bit (60_exceptions.md R240). -/
theorem getLsbD_causeAfter (s : State) (e : Exc) (bd : Bool) (k : Nat) (hk : k < 32) :
    (e.causeAfter bd s.cause).getLsbD k = causeBitAfter s e bd k := by
  have main : (causeWithEntry s.cause bd e.code).getLsbD k =
      if 2 ≤ k ∧ k ≤ 6 then (excNumber e).testBit (k - 2) else if k = 31 then bd else s.cause.getLsbD k := by
    rw [getLsbD_causeWithEntry _ _ _ _ hk]
    split
    · exact getLsbD_code e _ (by omega)
    · rfl
  unfold causeBitAfter
  by_cases h1 : 2 ≤ k ∧ k ≤ 6
  · have h2 : ¬ (28 ≤ k ∧ k ≤ 29) := by omega
    cases e <;> simp only [Exc.causeAfter, getLsbD_causeWithCE _ _ _ hk, main, if_pos h1, if_neg h2]
  · by_cases h3 : k = 31
    · have h2 : ¬ (28 ≤ k ∧ k ≤ 29) := by omega
      cases e <;> simp only [Exc.causeAfter, getLsbD_causeWithCE _ _ _ hk, main, if_neg h1, if_neg h2, if_pos h3]
    · by_cases h2 : 28 ≤ k ∧ k ≤ 29 <;>
        cases e <;>
        simp only [Exc.causeAfter, getLsbD_causeWithCE _ _ _ hk, main, h1, h2, h3, if_false, and_self, ite_self]

/-- The poll takes an interrupt exactly when `SR[0]` is set and an unmasked bit of `CAUSE[15:8]` is (R234, R236). -/
theorem interruptTaken_iff (sr c : Word) :
    interruptTaken sr c = true ↔
      sr.getLsbD 0 = true ∧ ∃ k, 8 ≤ k ∧ k < 16 ∧ sr.getLsbD k = true ∧ c.getLsbD k = true := by
  simp only [interruptTaken, srIEc, srIM, causeIP, Bool.and_eq_true, bne_iff_ne, ne_eq]
  refine and_congr_right fun _ => ?_
  constructor
  · intro h
    by_contra hn
    apply h
    apply BitVec.eq_of_getLsbD_eq
    intro i hi
    simp only [BitVec.getLsbD_and, BitVec.getLsbD_extractLsb', hi, decide_true, Bool.true_and]
    by_contra h'
    have h'' : sr.getLsbD (8 + i) = true ∧ c.getLsbD (8 + i) = true := by simpa using h'
    exact hn ⟨8 + i, by omega, by omega, h''⟩
  · rintro ⟨k, h1, h2, h3, h4⟩ h
    have := congrArg (fun v : Byte => v.getLsbD (k - 8)) h
    simp [show k - 8 < 8 by omega, show 8 + (k - 8) = k by omega, h3, h4] at this

/-! ### Immediates, targets, addresses -/

theorem sextImm_eq (imm : Half) : sextImm imm = BitVec.ofInt 32 imm.toInt := rfl

/-- The sign-extended immediate has the immediate's value. -/
theorem toInt_sextImm (imm : Half) : (sextImm imm).toInt = imm.toInt := by
  simp [sextImm, BitVec.toInt_signExtend_of_le]

/-- The offset of a branch is four times its signed immediate (30_encoding.md R72). -/
theorem branchOffset_eq (imm : Half) : branchOffset imm = BitVec.ofInt 32 (4 * imm.toInt) := by
  have h4 : (4 * imm.toInt : Int) = imm.toInt * 4 := by omega
  rw [branchOffset, sextImm_eq, BitVec.shiftLeft_eq_mul_twoPow, h4, BitVec.ofInt_mul]
  rfl

/-- Two bits of an address are its remainder by 4. -/
theorem toNat_lowBits (a : Word) : (lowBits a).toNat = a.toNat % 4 := by
  simp [lowBits, BitVec.extractLsb'_toNat]

theorem lowBits_eq_zero (a : Word) : lowBits a = 0#2 ↔ a.toNat % 4 = 0 := by
  rw [← toNat_lowBits, BitVec.toNat_eq]; rfl

theorem getLsbD_zero_eq (a : Word) : a.getLsbD 0 = decide (a.toNat % 2 = 1) := by
  rw [BitVec.getLsbD, Nat.testBit_zero]

/-- Natural alignment (20_memory.md R49). -/
theorem aligned_iff (w : Width) (a : Word) : w.aligned a = true ↔ a.toNat % w.bytes = 0 := by
  cases w
  · simp [Width.aligned, Width.bytes, Nat.mod_one]
  · simp only [Width.aligned, Width.bytes, getLsbD_zero_eq, Bool.not_eq_true', decide_eq_false_iff_not]; omega
  · simp only [Width.aligned, Width.bytes, beq_iff_eq]; exact lowBits_eq_zero a

theorem translateAddr_eq (a : Word) : translateAddr a = a.toNat % 2 ^ 29 := by
  have : (0x1FFFFFFF : Nat) = 2 ^ 29 - 1 := rfl
  simp only [translateAddr, Config.physMask, BitVec.toNat_and]
  rw [show (0x1FFFFFFF#32).toNat = 2 ^ 29 - 1 from rfl, Nat.and_two_pow_sub_one_eq_mod]

theorem physical_eq_translateAddr (a : Word) : physical a = translateAddr a := rfl

/-- The aligned word of an address. -/
theorem toNat_alignedWord (a : Word) : (alignedWord a).toNat = a.toNat / 4 * 4 := by
  have h : alignedWord a = (a >>> 2) <<< 2 := by
    apply BitVec.eq_of_getLsbD_eq
    intro i hi
    simp only [alignedWord, BitVec.getLsbD_and, BitVec.getLsbD_shiftLeft, BitVec.getLsbD_ushiftRight]
    by_cases h2 : i < 2
    · have : i = 0 ∨ i = 1 := by omega
      rcases this with rfl | rfl <;> simp
    · have : (0xFFFFFFFC#32).getLsbD i = true := by
        have := (by decide : ∀ j : Fin 32, 2 ≤ j.val → (0xFFFFFFFC#32).getLsbD j.val = true) ⟨i, hi⟩ (by simp; omega)
        exact this
      simp [this, hi, h2, show 2 + (i - 2) = i by omega]
  rw [h, BitVec.toNat_shiftLeft, BitVec.toNat_ushiftRight, Nat.shiftRight_eq_div_pow, Nat.shiftLeft_eq]
  have := a.isLt
  omega

theorem alignedWord_mod (a : Word) : (alignedWord a).toNat % 4 = 0 := by
  rw [toNat_alignedWord]; omega

theorem segmentOf_alignedWord (a : Word) : segmentOf (alignedWord a) = segmentOf a := by
  apply BitVec.eq_of_getLsbD_eq
  intro i hi
  have : i = 0 ∨ i = 1 ∨ i = 2 := by omega
  simp only [segmentOf, alignedWord, BitVec.getLsbD_extractLsb', BitVec.getLsbD_and]
  rcases this with rfl | rfl | rfl <;> simp

/-- The target of an absolute jump (46_jump.md R170). -/
theorem toNat_jumpTarget (p : Word) (t : BitVec 26) :
    (jumpTarget p t).toNat = p.toNat / 2 ^ 28 * 2 ^ 28 + t.toNat * 4 := by
  have h : (jumpTarget p t).toNat = BitVec.toNat (w := 4 + 26 + 2) (p.extractLsb' 28 4 ++ t ++ 0b00#2) := rfl
  rw [h, BitVec.toNat_append, BitVec.toNat_append, BitVec.extractLsb'_toNat]
  have h1 := p.isLt
  have h2 := t.isLt
  simp only [Nat.shiftRight_eq_div_pow]
  rw [Nat.mod_eq_of_lt (by omega), ← Nat.shiftLeft_add_eq_or_of_lt h2, BitVec.toNat_zero, Nat.or_zero]
  simp only [Nat.shiftLeft_eq]
  omega

/-! ### The merges of the unaligned-word instructions, byte by byte -/

/-- Two words with the same bytes are equal. -/
theorem eq_of_bytes {v w : Word} (h : ∀ j, j < 4 → v.extractLsb' (8 * j) 8 = w.extractLsb' (8 * j) 8) : v = w := by
  apply BitVec.eq_of_getLsbD_eq
  intro i hi
  have := congrArg (fun b : Byte => b.getLsbD (i % 8)) (h (i / 8) (by omega))
  simpa [show i % 8 < 8 by omega, show 8 * (i / 8) + i % 8 = i by omega] using this

theorem two_bits (k : BitVec 2) : k = 0#2 ∨ k = 1#2 ∨ k = 2#2 ∨ k = 3#2 := by revert k; decide

theorem four_bytes {j : Nat} (hj : j < 4) : j = 0 ∨ j = 1 ∨ j = 2 ∨ j = 3 := by omega

/-- The bytes of two parts put together. -/
theorem byte_append {m n : Nat} (a : BitVec m) (b : BitVec n) (j : Nat) (hn : n % 8 = 0) :
    (a ++ b).extractLsb' (8 * j) 8 = if j < n / 8 then b.extractLsb' (8 * j) 8 else a.extractLsb' (8 * (j - n / 8)) 8 := by
  apply BitVec.eq_of_getLsbD_eq
  intro i hi
  simp only [BitVec.getLsbD_extractLsb', BitVec.getLsbD_append, hi, decide_true, Bool.true_and]
  by_cases h : j < n / 8
  · rw [if_pos h, if_pos (by omega)]; simp [hi]
  · rw [if_neg h, if_neg (by omega), show 8 * j + i - n = 8 * (j - n / 8) + i by omega]; simp [hi]

/-- A byte of a part. -/
theorem byte_extract (v : Word) (s n t : Nat) (h : t + 8 ≤ n) :
    (v.extractLsb' s n).extractLsb' t 8 = v.extractLsb' (s + t) 8 := by
  apply BitVec.eq_of_getLsbD_eq
  intro i hi
  simp [hi, show t + i < n by omega, Nat.add_assoc]

/-- LWL keeps the register's low bytes and fills its top from the word's start (47_load_store.md R186). -/
theorem byte_lwlMerge (k : BitVec 2) (wv cur : Word) (j : Nat) (hj : j < 4) :
    (lwlMerge k wv cur).extractLsb' (8 * j) 8 =
      if 3 - k.toNat ≤ j then wv.extractLsb' (8 * (j - (3 - k.toNat))) 8 else cur.extractLsb' (8 * j) 8 := by
  rcases two_bits k with rfl | rfl | rfl | rfl
  · refine (byte_append (m := 8) (n := 24) _ _ j (by decide)).trans ?_
    rcases four_bytes hj with rfl | rfl | rfl | rfl <;> simp
  · refine (byte_append (m := 16) (n := 16) _ _ j (by decide)).trans ?_
    rcases four_bytes hj with rfl | rfl | rfl | rfl <;> simp
  · refine (byte_append (m := 24) (n := 8) _ _ j (by decide)).trans ?_
    rcases four_bytes hj with rfl | rfl | rfl | rfl <;> simp
  · simp [lwlMerge]

/-- LWR keeps the register's high bytes and fills its bottom from the word's end (R187). -/
theorem byte_lwrMerge (k : BitVec 2) (wv cur : Word) (j : Nat) (hj : j < 4) :
    (lwrMerge k wv cur).extractLsb' (8 * j) 8 =
      if j < 4 - k.toNat then wv.extractLsb' (8 * (k.toNat + j)) 8 else cur.extractLsb' (8 * j) 8 := by
  rcases two_bits k with rfl | rfl | rfl | rfl
  · simp [lwrMerge, hj]
  · refine (byte_append (m := 8) (n := 24) _ _ j (by decide)).trans ?_
    rcases four_bytes hj with rfl | rfl | rfl | rfl <;> simp [byte_extract]
  · refine (byte_append (m := 16) (n := 16) _ _ j (by decide)).trans ?_
    rcases four_bytes hj with rfl | rfl | rfl | rfl <;> simp [byte_extract]
  · refine (byte_append (m := 24) (n := 8) _ _ j (by decide)).trans ?_
    rcases four_bytes hj with rfl | rfl | rfl | rfl <;> simp [byte_extract]

/-- SWL puts the register's top bytes at the word's start (R191). -/
theorem byte_swlMerge (k : BitVec 2) (wv v : Word) (j : Nat) (hj : j < 4) :
    (swlMerge k wv v).extractLsb' (8 * j) 8 =
      if j ≤ k.toNat then v.extractLsb' (8 * (3 - k.toNat + j)) 8 else wv.extractLsb' (8 * j) 8 := by
  rcases two_bits k with rfl | rfl | rfl | rfl
  · refine (byte_append (m := 24) (n := 8) _ _ j (by decide)).trans ?_
    rcases four_bytes hj with rfl | rfl | rfl | rfl <;> simp [byte_extract]
  · refine (byte_append (m := 16) (n := 16) _ _ j (by decide)).trans ?_
    rcases four_bytes hj with rfl | rfl | rfl | rfl <;> simp [byte_extract]
  · refine (byte_append (m := 8) (n := 24) _ _ j (by decide)).trans ?_
    rcases four_bytes hj with rfl | rfl | rfl | rfl <;> simp [byte_extract]
  · simp [swlMerge, show j ≤ 3 by omega]

/-- SWR puts the register's bottom bytes at the word's end (R192). -/
theorem byte_swrMerge (k : BitVec 2) (wv v : Word) (j : Nat) (hj : j < 4) :
    (swrMerge k wv v).extractLsb' (8 * j) 8 =
      if k.toNat ≤ j then v.extractLsb' (8 * (j - k.toNat)) 8 else wv.extractLsb' (8 * j) 8 := by
  rcases two_bits k with rfl | rfl | rfl | rfl
  · simp [swrMerge]
  · refine (byte_append (m := 24) (n := 8) _ _ j (by decide)).trans ?_
    rcases four_bytes hj with rfl | rfl | rfl | rfl <;> simp
  · refine (byte_append (m := 16) (n := 16) _ _ j (by decide)).trans ?_
    rcases four_bytes hj with rfl | rfl | rfl | rfl <;> simp
  · refine (byte_append (m := 8) (n := 24) _ _ j (by decide)).trans ?_
    rcases four_bytes hj with rfl | rfl | rfl | rfl <;> simp

end Sys2Proof.Machine
end

