-- ==== Sys2Proof/Laws/Arith.lean ====
section
/-! SUPPORT. What the arithmetic helpers say of signed and unsigned values: overflow, sums, shifts, comparisons. -/

namespace Sys2Proof.Machine

/-- Overflow of a sum is a sum outside the signed range (41_arithmetic.md R120). -/
theorem addOverflows_iff (a b : Word) :
    addOverflows a b = true ↔ ¬ (-2 ^ 31 ≤ a.toInt + b.toInt ∧ a.toInt + b.toInt ≤ 2 ^ 31 - 1) := by
  unfold addOverflows
  simp only [Bool.and_eq_true, beq_iff_eq, bne_iff_ne, BitVec.msb_eq_toInt, BitVec.toInt_add]
  have ha := BitVec.toInt_lt (x := a)
  have ha' := BitVec.le_toInt (x := a)
  have hb := BitVec.toInt_lt (x := b)
  have hb' := BitVec.le_toInt (x := b)
  simp only [Int.bmod_def, ne_eq, decide_eq_decide]
  norm_num at *
  omega

/-- Overflow of a difference is a difference outside the signed range (R120). -/
theorem subOverflows_iff (a b : Word) :
    subOverflows a b = true ↔ ¬ (-2 ^ 31 ≤ a.toInt - b.toInt ∧ a.toInt - b.toInt ≤ 2 ^ 31 - 1) := by
  unfold subOverflows
  simp only [Bool.and_eq_true, bne_iff_ne, BitVec.msb_eq_toInt, BitVec.toInt_sub]
  have ha := BitVec.toInt_lt (x := a)
  have ha' := BitVec.le_toInt (x := a)
  have hb := BitVec.toInt_lt (x := b)
  have hb' := BitVec.le_toInt (x := b)
  simp only [Int.bmod_def, ne_eq, decide_eq_decide]
  norm_num at *
  omega

/-- A sum that fits is exact. -/
theorem toInt_add_of_fits (a b : Word) (h : -2 ^ 31 ≤ a.toInt + b.toInt ∧ a.toInt + b.toInt ≤ 2 ^ 31 - 1) :
    (a + b).toInt = a.toInt + b.toInt := by
  rw [BitVec.toInt_add, Int.bmod_def]
  norm_num at *
  split <;> omega

/-- A difference that fits is exact. -/
theorem toInt_sub_of_fits (a b : Word) (h : -2 ^ 31 ≤ a.toInt - b.toInt ∧ a.toInt - b.toInt ≤ 2 ^ 31 - 1) :
    (a - b).toInt = a.toInt - b.toInt := by
  rw [BitVec.toInt_sub, Int.bmod_def]
  norm_num at *
  split <;> omega

theorem toNat_shl (a : Word) (n : Nat) : (a <<< n).toNat = a.toNat * 2 ^ n % 2 ^ 32 := by
  rw [BitVec.toNat_shiftLeft, Nat.shiftLeft_eq]

theorem toNat_shr (a : Word) (n : Nat) : (a >>> n).toNat = a.toNat / 2 ^ n := by
  rw [BitVec.toNat_ushiftRight, Nat.shiftRight_eq_div_pow]

theorem toInt_sar (a : Word) (n : Nat) : (a.sshiftRight n).toInt = a.toInt / 2 ^ n := by
  rw [BitVec.toInt_sshiftRight, Int.shiftRight_eq_div_pow]
  norm_cast

/-- The amount of a variable shift (43_shift.md R140). -/
theorem toNat_varShift (v : Word) : (varShift v).toNat = v.toNat % 32 := by
  simp [varShift, BitVec.extractLsb'_toNat]

/-- The value of a comparison. -/
theorem truthWord_decide (p : Prop) [Decidable p] : truthWord (decide p) = if p then 1#32 else 0#32 := by
  by_cases h : p <;> simp [truthWord, h]

end Sys2Proof.Machine
end

