-- ==== Sys2Proof/Laws/Memory.lean ====
section
/-! SUPPORT. The laws of memory: a read after a write to the same byte gives the value written, a write leaves every
other byte alone, and every operation keeps the canonical form. -/

namespace Sys2Proof.Machine

/-! ### One byte -/

theorem Memory.read_filter_ne (m : Memory) (a b : Nat) :
    Memory.read (m.filter (fun c => c.1 != a)) b = if b = a then 0#8 else Memory.read m b := by
  induction m with
  | nil => simp [Memory.read]
  | cons c m ih =>
    by_cases hc : c.1 = a
    · have : (c.1 != a) = false := by simp [hc]
      rw [List.filter_cons_of_neg (by simp [hc]), ih]
      by_cases hb : b = a
      · simp [hb]
      · have : c.1 ≠ b := fun h => hb (h.symm.trans hc)
        simp [hb, Memory.read, this]
    · rw [List.filter_cons_of_pos (by simp [hc])]
      by_cases hcb : c.1 = b
      · have : b ≠ a := fun h => hc (hcb.trans h)
        simp [Memory.read, hcb, this]
      · simp [Memory.read, hcb, ih]

theorem Memory.read_insert (m : Memory) (a b : Nat) (v : Byte) :
    Memory.read (Memory.insert a v m) b = if b = a then v else Memory.read m b := by
  induction m with
  | nil =>
    by_cases h : a = b
    · simp [Memory.insert, Memory.read, h]
    · simp [Memory.insert, Memory.read, h, Ne.symm h]
  | cons c m ih =>
    unfold Memory.insert
    split
    · by_cases h : a = b
      · simp [Memory.read, h]
      · simp [Memory.read, h, Ne.symm h]
    split
    · rename_i h
      by_cases hb : a = b
      · simp [Memory.read, hb]
      · have : c.1 ≠ b := fun e => hb (h.trans e)
        simp [Memory.read, hb, Ne.symm hb, this]
    · rename_i h
      by_cases hb : c.1 = b
      · have : b ≠ a := fun e => h (by rw [← e, hb])
        simp [Memory.read, hb, this]
      · simp [Memory.read, hb, ih]

/-- A write, read back at any address (no premise on the memory). -/
theorem Memory.read_write (m : Memory) (a b : Nat) (v : Byte) :
    (m.write a v).read b = if b = a then v else m.read b := by
  unfold Memory.write
  split
  · rename_i h; rw [Memory.read_filter_ne, h]
  · exact Memory.read_insert m a b v

@[simp] theorem Memory.read_write_same (m : Memory) (a : Nat) (v : Byte) : (m.write a v).read a = v := by
  simp [Memory.read_write]

theorem Memory.read_write_ne (m : Memory) {a b : Nat} (h : b ≠ a) (v : Byte) : (m.write a v).read b = m.read b := by
  simp [Memory.read_write, h]

/-! ### Several bytes (20_memory.md R48) -/

/-- A write of `n` bytes leaves every byte outside them alone. -/
theorem Memory.read_writeLE_outside (n : Nat) : ∀ (m : Memory) (a : Nat) (v : Word) (b : Nat),
    b < a ∨ a + n ≤ b → (m.writeLE a n v).read b = m.read b := by
  induction n with
  | zero => intros; rfl
  | succ n ih =>
    intro m a v b h
    rw [Memory.writeLE, ih _ _ _ _ (by omega), Memory.read_write_ne _ (by omega)]

/-- Byte `k` of a write of `n` bytes. -/
theorem Memory.read_writeLE_inside (n : Nat) : ∀ (m : Memory) (a : Nat) (v : Word) (k : Nat),
    k < n → (m.writeLE a n v).read (a + k) = v.extractLsb' (8 * k) 8 := by
  induction n with
  | zero => intro _ _ _ k h; omega
  | succ n ih =>
    intro m a v k h
    rw [Memory.writeLE]
    cases k with
    | zero => rw [Memory.read_writeLE_outside _ _ _ _ _ (by omega)]; simp
    | succ k =>
      rw [show a + (k + 1) = a + 1 + k from by omega, ih _ _ _ _ (by omega)]
      ext i hi
      simp [BitVec.getElem_extractLsb', BitVec.getLsbD_ushiftRight, show 8 + (8 * k + i) = 8 * (k + 1) + i from by omega]

/-- Every bit of a read of `n` bytes comes from its byte. -/
theorem Memory.getLsbD_readLE (n : Nat) : ∀ (m : Memory) (a : Nat) (k i : Nat), n ≤ 4 → i < 8 →
    (m.readLE a n).getLsbD (8 * k + i) = (decide (k < n) && (m.read (a + k)).getLsbD i) := by
  induction n with
  | zero => intros; simp [Memory.readLE]
  | succ n ih =>
    intro m a k i hn hi
    rw [Memory.readLE, BitVec.getLsbD_or, BitVec.getLsbD_shiftLeft, BitVec.getLsbD_setWidth]
    cases k with
    | zero =>
      have h1 : i < 32 := by omega
      simp [hi, h1]
    | succ k =>
      rw [show 8 * (k + 1) + i - 8 = 8 * k + i from by omega, ih _ _ _ _ (by omega) hi,
        show a + 1 + k = a + (k + 1) from by omega]
      have h0 : (m.read a).getLsbD (8 * (k + 1) + i) = false := BitVec.getLsbD_of_ge _ _ (by omega)
      by_cases hk : k < n
      · have h2 : 8 * (k + 1) + i < 32 := by omega
        have h3 : ¬ 8 * (k + 1) + i < 8 := by omega
        simp [hk, h0, h2, h3]
      · simp [hk, h0]

/-- A read depends on its bytes alone. -/
theorem Memory.readLE_congr (n : Nat) : ∀ (m m' : Memory) (a : Nat),
    (∀ k, k < n → m.read (a + k) = m'.read (a + k)) → m.readLE a n = m'.readLE a n := by
  induction n with
  | zero => intros; rfl
  | succ n ih =>
    intro m m' a h
    have h0 := h 0 (by omega)
    rw [Memory.readLE, Memory.readLE, ih m m' (a + 1) (fun k hk => by
      have := h (k + 1) (by omega)
      rwa [show a + (k + 1) = a + 1 + k from by omega] at this)]
    simpa using by rw [show m.read a = m'.read a from h0]

/-- Four bytes in the order of 20_memory.md R48. -/
theorem Memory.readLE_four (m : Memory) (a : Nat) :
    m.readLE a 4 = m.read (a + 3) ++ m.read (a + 2) ++ m.read (a + 1) ++ m.read a := by
  apply BitVec.eq_of_getLsbD_eq
  intro i hi
  obtain ⟨k, j, hj, rfl⟩ : ∃ k j, j < 8 ∧ i = 8 * k + j := ⟨i / 8, i % 8, Nat.mod_lt _ (by omega), by omega⟩
  rw [Memory.getLsbD_readLE 4 m a k j (by omega) hj]
  change _ = BitVec.getLsbD (w := 8 + 8 + 8 + 8) _ _
  simp only [BitVec.getLsbD_append, Nat.sub_sub]
  have hk : k < 4 := by omega
  rcases (show k = 0 ∨ k = 1 ∨ k = 2 ∨ k = 3 by omega) with rfl | rfl | rfl | rfl <;>
    (repeat rw [if_neg (by omega)]) <;> (try rw [if_pos (by omega)]) <;> simp

/-- What is read back after a write of the same width: the low `n` bytes, zero-extended. -/
theorem Memory.readLE_writeLE (n : Nat) (hn : n ≤ 4) (m : Memory) (a : Nat) (v : Word) :
    (m.writeLE a n v).readLE a n = (v.extractLsb' 0 (8 * n)).setWidth 32 := by
  apply BitVec.eq_of_getLsbD_eq
  intro i hi
  obtain ⟨k, j, hj, rfl⟩ : ∃ k j, j < 8 ∧ i = 8 * k + j := ⟨i / 8, i % 8, Nat.mod_lt _ (by omega), by omega⟩
  rw [Memory.getLsbD_readLE n _ _ _ _ hn hj]
  by_cases hk : k < n
  · rw [Memory.read_writeLE_inside n _ _ _ _ hk]
    have h2 : 8 * k + j < 8 * n := by omega
    simp [hk, hj, hi, h2]
  · have h2 : ¬ 8 * k + j < 8 * n := by omega
    simp [BitVec.getLsbD_setWidth, BitVec.getLsbD_extractLsb', hk, h2]

/-! ### The canonical form -/

/-- The canonical form, as a proposition. -/
theorem Memory.wf_iff (m : Memory) :
    m.wf = true ↔ m.Pairwise (fun c d => c.1 < d.1) ∧ ∀ c ∈ m, c.2 ≠ 0#8 := by
  induction m with
  | nil => simp [Memory.wf]
  | cons c m ih =>
    simp only [Memory.wf, Bool.and_eq_true, bne_iff_ne, List.all_eq_true, decide_eq_true_eq, List.pairwise_cons,
      List.mem_cons, forall_eq_or_imp, ih]
    constructor
    · rintro ⟨⟨h1, h2⟩, h3, h4⟩; exact ⟨⟨h2, h3⟩, h1, h4⟩
    · rintro ⟨⟨h2, h3⟩, h1, h4⟩; exact ⟨⟨h1, h2⟩, h3, h4⟩

theorem Memory.mem_insert {m : Memory} {a : Nat} {v : Byte} {c : Host.Cell} (h : c ∈ Memory.insert a v m) :
    c = (a, v) ∨ c ∈ m := by
  induction m with
  | nil => simpa [Memory.insert] using h
  | cons d m ih =>
    unfold Memory.insert at h
    split at h
    · simpa using h
    split at h
    · rcases List.mem_cons.1 h with h | h
      · exact .inl h
      · exact .inr (List.mem_cons_of_mem _ h)
    · rcases List.mem_cons.1 h with h | h
      · exact .inr (h ▸ List.mem_cons_self)
      · exact (ih h).imp id (List.mem_cons_of_mem _)

theorem Memory.pairwise_insert {m : Memory} (a : Nat) (v : Byte) (h : m.Pairwise (fun c d => c.1 < d.1)) :
    (Memory.insert a v m).Pairwise (fun c d => c.1 < d.1) := by
  induction m with
  | nil => simp [Memory.insert]
  | cons d m ih =>
    rw [List.pairwise_cons] at h
    unfold Memory.insert
    split
    · rename_i hlt
      refine List.pairwise_cons.2 ⟨fun c hc => ?_, List.pairwise_cons.2 h⟩
      rcases List.mem_cons.1 hc with rfl | hc
      · exact hlt
      · exact Nat.lt_trans hlt (h.1 c hc)
    split
    · rename_i heq
      exact List.pairwise_cons.2 ⟨fun c hc => by simpa [heq] using h.1 c hc, h.2⟩
    · rename_i hlt hne
      refine List.pairwise_cons.2 ⟨fun c hc => ?_, ih h.2⟩
      rcases Memory.mem_insert hc with rfl | hc
      · show d.1 < a; omega
      · exact h.1 c hc

/-- A write of one byte keeps the canonical form. -/
theorem Memory.wf_write {m : Memory} (a : Nat) (v : Byte) (h : m.wf = true) : (m.write a v).wf = true := by
  rw [Memory.wf_iff] at h ⊢
  unfold Memory.write
  split
  · exact ⟨h.1.filter _, fun c hc => h.2 c (List.mem_of_mem_filter hc)⟩
  · rename_i hv
    refine ⟨Memory.pairwise_insert a v h.1, fun c hc => ?_⟩
    rcases Memory.mem_insert hc with rfl | hc
    · exact hv
    · exact h.2 c hc

/-- A write of several bytes keeps the canonical form. -/
theorem Memory.wf_writeLE (n : Nat) : ∀ {m : Memory} (a : Nat) (v : Word), m.wf = true → (m.writeLE a n v).wf = true := by
  induction n with
  | zero => intro _ _ _ h; exact h
  | succ n ih => intro m a v h; exact ih _ _ (Memory.wf_write _ _ h)

/-- The cells a write of several bytes can leave: old ones, or ones at the bytes written. -/
theorem Memory.mem_writeLE (n : Nat) : ∀ {m : Memory} {a : Nat} {v : Word} {c : Host.Cell},
    c ∈ m.writeLE a n v → c ∈ m ∨ (a ≤ c.1 ∧ c.1 < a + n) := by
  induction n with
  | zero => intro _ _ _ _ h; exact .inl h
  | succ n ih =>
    intro m a v c h
    rcases ih h with h | h
    · unfold Memory.write at h
      split at h
      · exact .inl (List.mem_of_mem_filter h)
      · rcases Memory.mem_insert h with rfl | h
        · exact .inr ⟨Nat.le_refl _, by show a < _; omega⟩
        · exact .inl h
    · exact .inr (by omega)

/-- The cells of an image stand at its addresses. -/
theorem Memory.mem_ofBytes (bs : List Byte) : ∀ {a : Nat} {c : Host.Cell},
    c ∈ Memory.ofBytes a bs → a ≤ c.1 ∧ c.1 < a + bs.length := by
  induction bs with
  | nil => intro _ _ h; simp [Memory.ofBytes] at h
  | cons b bs ih =>
    intro a c h
    simp only [List.length_cons]
    unfold Memory.ofBytes at h
    split at h
    · have := ih h; omega
    · rcases List.mem_cons.1 h with rfl | h
      · exact ⟨Nat.le_refl _, by show a < _; omega⟩
      · have := ih h; omega

/-- An image is in canonical form. -/
theorem Memory.wf_ofBytes (bs : List Byte) : ∀ a : Nat, (Memory.ofBytes a bs).wf = true := by
  induction bs with
  | nil => intro _; rfl
  | cons b bs ih =>
    intro a
    unfold Memory.ofBytes
    split
    · exact ih _
    · rename_i hb
      rw [Memory.wf_iff]
      have h := (Memory.wf_iff _).1 (ih (a + 1))
      refine ⟨List.pairwise_cons.2 ⟨fun c hc => ?_, h.1⟩, fun c hc => ?_⟩
      · have := Memory.mem_ofBytes bs hc
        show a < c.1; omega
      · rcases List.mem_cons.1 hc with rfl | hc
        · exact hb
        · exact h.2 c hc

/-- An image reads back byte for byte, and 0 outside. -/
theorem Memory.read_ofBytes (bs : List Byte) : ∀ (a b : Nat),
    (Memory.ofBytes a bs).read b = if a ≤ b then bs.getD (b - a) 0#8 else 0#8 := by
  induction bs with
  | nil => intro a b; simp [Memory.ofBytes, Memory.read]
  | cons x bs ih =>
    intro a b
    have key : ∀ m : Memory, m = Memory.ofBytes (a + 1) bs →
        m.read b = if a + 1 ≤ b then bs.getD (b - (a + 1)) 0#8 else 0#8 := fun m h => h ▸ ih (a + 1) b
    have hsub : a + 1 ≤ b → b - a = (b - (a + 1)) + 1 := by omega
    unfold Memory.ofBytes
    split
    · rename_i hx
      rw [key _ rfl]
      by_cases h1 : a + 1 ≤ b
      · rw [if_pos h1, if_pos (by omega), hsub h1, List.getD_cons_succ]
      · rw [if_neg h1]
        by_cases h2 : a ≤ b
        · obtain rfl : a = b := by omega
          simp [hx]
        · simp [h2]
    · by_cases h : a = b
      · subst h; simp [Memory.read]
      · rw [Memory.read, if_neg h, key _ rfl]
        by_cases h1 : a + 1 ≤ b
        · rw [if_pos h1, if_pos (by omega), hsub h1, List.getD_cons_succ]
        · rw [if_neg h1, if_neg (by omega)]

/-- The all-zero image lists nothing. -/
theorem Memory.ofBytes_replicate_zero (n : Nat) : ∀ a : Nat, Memory.ofBytes a (List.replicate n 0#8) = [] := by
  induction n with
  | zero => intro _; rfl
  | succ n ih => intro a; simpa [List.replicate_succ, Memory.ofBytes] using ih (a + 1)

end Sys2Proof.Machine
end

