-- ==== Sys2Proof/Laws/State.lean ====
section
/-! SUPPORT. What each update of the state leaves alone: one lemma for each field each update does not write, so that no
later proof unfolds a record update. What an update does write is in Laws/Registers, Laws/Entry, Laws/Memory, Laws/Bus. -/

namespace Sys2Proof.Machine

variable (s : State)

/-! ### The plain register-file write -/

@[simp] theorem setReg_pc (i : Reg) (v : Word) : (s.setReg i v).pc = s.pc := rfl
@[simp] theorem setReg_npc (i : Reg) (v : Word) : (s.setReg i v).npc = s.npc := rfl
@[simp] theorem setReg_curPc (i : Reg) (v : Word) : (s.setReg i v).curPc = s.curPc := rfl
@[simp] theorem setReg_hi (i : Reg) (v : Word) : (s.setReg i v).hi = s.hi := rfl
@[simp] theorem setReg_lo (i : Reg) (v : Word) : (s.setReg i v).lo = s.lo := rfl
@[simp] theorem setReg_ldArmed (i : Reg) (v : Word) : (s.setReg i v).ldArmed = s.ldArmed := rfl
@[simp] theorem setReg_ldCommit (i : Reg) (v : Word) : (s.setReg i v).ldCommit = s.ldCommit := rfl
@[simp] theorem setReg_dsCur (i : Reg) (v : Word) : (s.setReg i v).dsCur = s.dsCur := rfl
@[simp] theorem setReg_dsNext (i : Reg) (v : Word) : (s.setReg i v).dsNext = s.dsNext := rfl
@[simp] theorem setReg_c0 (i : Reg) (v : Word) : (s.setReg i v).c0 = s.c0 := rfl
@[simp] theorem setReg_mem (i : Reg) (v : Word) : (s.setReg i v).mem = s.mem := rfl
@[simp] theorem setReg_params (i : Reg) (v : Word) : (s.setReg i v).params = s.params := rfl
@[simp] theorem setReg_irqIn (i : Reg) (v : Word) : (s.setReg i v).irqIn = s.irqIn := rfl
@[simp] theorem setReg_ioIn (i : Reg) (v : Word) : (s.setReg i v).ioIn = s.ioIn := rfl
@[simp] theorem setReg_ioDraws (i : Reg) (v : Word) : (s.setReg i v).ioDraws = s.ioDraws := rfl
@[simp] theorem setReg_ioCalls (i : Reg) (v : Word) : (s.setReg i v).ioCalls = s.ioCalls := rfl
@[simp] theorem setReg_log (i : Reg) (v : Word) : (s.setReg i v).log = s.log := rfl

/-! ### Writing a system-control register -/

@[simp] theorem c0Set_gpr (n : Reg) (v : Word) : (s.c0Set n v).gpr = s.gpr := rfl
@[simp] theorem c0Set_pc (n : Reg) (v : Word) : (s.c0Set n v).pc = s.pc := rfl
@[simp] theorem c0Set_npc (n : Reg) (v : Word) : (s.c0Set n v).npc = s.npc := rfl
@[simp] theorem c0Set_curPc (n : Reg) (v : Word) : (s.c0Set n v).curPc = s.curPc := rfl
@[simp] theorem c0Set_hi (n : Reg) (v : Word) : (s.c0Set n v).hi = s.hi := rfl
@[simp] theorem c0Set_lo (n : Reg) (v : Word) : (s.c0Set n v).lo = s.lo := rfl
@[simp] theorem c0Set_ldArmed (n : Reg) (v : Word) : (s.c0Set n v).ldArmed = s.ldArmed := rfl
@[simp] theorem c0Set_ldCommit (n : Reg) (v : Word) : (s.c0Set n v).ldCommit = s.ldCommit := rfl
@[simp] theorem c0Set_dsCur (n : Reg) (v : Word) : (s.c0Set n v).dsCur = s.dsCur := rfl
@[simp] theorem c0Set_dsNext (n : Reg) (v : Word) : (s.c0Set n v).dsNext = s.dsNext := rfl
@[simp] theorem c0Set_mem (n : Reg) (v : Word) : (s.c0Set n v).mem = s.mem := rfl
@[simp] theorem c0Set_params (n : Reg) (v : Word) : (s.c0Set n v).params = s.params := rfl
@[simp] theorem c0Set_irqIn (n : Reg) (v : Word) : (s.c0Set n v).irqIn = s.irqIn := rfl
@[simp] theorem c0Set_ioIn (n : Reg) (v : Word) : (s.c0Set n v).ioIn = s.ioIn := rfl
@[simp] theorem c0Set_ioDraws (n : Reg) (v : Word) : (s.c0Set n v).ioDraws = s.ioDraws := rfl
@[simp] theorem c0Set_ioCalls (n : Reg) (v : Word) : (s.c0Set n v).ioCalls = s.ioCalls := rfl
@[simp] theorem c0Set_log (n : Reg) (v : Word) : (s.c0Set n v).log = s.log := rfl

/-! ### Cancelling a pending write -/

@[simp] theorem cancelCommit_gpr (i : Reg) : (s.cancelCommit i).gpr = s.gpr := rfl
@[simp] theorem cancelCommit_pc (i : Reg) : (s.cancelCommit i).pc = s.pc := rfl
@[simp] theorem cancelCommit_npc (i : Reg) : (s.cancelCommit i).npc = s.npc := rfl
@[simp] theorem cancelCommit_curPc (i : Reg) : (s.cancelCommit i).curPc = s.curPc := rfl
@[simp] theorem cancelCommit_hi (i : Reg) : (s.cancelCommit i).hi = s.hi := rfl
@[simp] theorem cancelCommit_lo (i : Reg) : (s.cancelCommit i).lo = s.lo := rfl
@[simp] theorem cancelCommit_ldArmed (i : Reg) : (s.cancelCommit i).ldArmed = s.ldArmed := rfl
@[simp] theorem cancelCommit_dsCur (i : Reg) : (s.cancelCommit i).dsCur = s.dsCur := rfl
@[simp] theorem cancelCommit_dsNext (i : Reg) : (s.cancelCommit i).dsNext = s.dsNext := rfl
@[simp] theorem cancelCommit_c0 (i : Reg) : (s.cancelCommit i).c0 = s.c0 := rfl
@[simp] theorem cancelCommit_mem (i : Reg) : (s.cancelCommit i).mem = s.mem := rfl
@[simp] theorem cancelCommit_params (i : Reg) : (s.cancelCommit i).params = s.params := rfl
@[simp] theorem cancelCommit_irqIn (i : Reg) : (s.cancelCommit i).irqIn = s.irqIn := rfl
@[simp] theorem cancelCommit_ioIn (i : Reg) : (s.cancelCommit i).ioIn = s.ioIn := rfl
@[simp] theorem cancelCommit_ioDraws (i : Reg) : (s.cancelCommit i).ioDraws = s.ioDraws := rfl
@[simp] theorem cancelCommit_ioCalls (i : Reg) : (s.cancelCommit i).ioCalls = s.ioCalls := rfl
@[simp] theorem cancelCommit_log (i : Reg) : (s.cancelCommit i).log = s.log := rfl

/-! ### The immediate register write -/

@[simp] theorem writeReg_pc (i : Reg) (v : Word) : (s.writeReg i v).pc = s.pc := by
  unfold State.writeReg; repeat' split
  all_goals rfl
@[simp] theorem writeReg_npc (i : Reg) (v : Word) : (s.writeReg i v).npc = s.npc := by
  unfold State.writeReg; repeat' split
  all_goals rfl
@[simp] theorem writeReg_curPc (i : Reg) (v : Word) : (s.writeReg i v).curPc = s.curPc := by
  unfold State.writeReg; repeat' split
  all_goals rfl
@[simp] theorem writeReg_hi (i : Reg) (v : Word) : (s.writeReg i v).hi = s.hi := by
  unfold State.writeReg; repeat' split
  all_goals rfl
@[simp] theorem writeReg_lo (i : Reg) (v : Word) : (s.writeReg i v).lo = s.lo := by
  unfold State.writeReg; repeat' split
  all_goals rfl
@[simp] theorem writeReg_ldArmed (i : Reg) (v : Word) : (s.writeReg i v).ldArmed = s.ldArmed := by
  unfold State.writeReg; repeat' split
  all_goals rfl
@[simp] theorem writeReg_dsCur (i : Reg) (v : Word) : (s.writeReg i v).dsCur = s.dsCur := by
  unfold State.writeReg; repeat' split
  all_goals rfl
@[simp] theorem writeReg_dsNext (i : Reg) (v : Word) : (s.writeReg i v).dsNext = s.dsNext := by
  unfold State.writeReg; repeat' split
  all_goals rfl
@[simp] theorem writeReg_c0 (i : Reg) (v : Word) : (s.writeReg i v).c0 = s.c0 := by
  unfold State.writeReg; repeat' split
  all_goals rfl
@[simp] theorem writeReg_mem (i : Reg) (v : Word) : (s.writeReg i v).mem = s.mem := by
  unfold State.writeReg; repeat' split
  all_goals rfl
@[simp] theorem writeReg_params (i : Reg) (v : Word) : (s.writeReg i v).params = s.params := by
  unfold State.writeReg; repeat' split
  all_goals rfl
@[simp] theorem writeReg_irqIn (i : Reg) (v : Word) : (s.writeReg i v).irqIn = s.irqIn := by
  unfold State.writeReg; repeat' split
  all_goals rfl
@[simp] theorem writeReg_ioIn (i : Reg) (v : Word) : (s.writeReg i v).ioIn = s.ioIn := by
  unfold State.writeReg; repeat' split
  all_goals rfl
@[simp] theorem writeReg_ioDraws (i : Reg) (v : Word) : (s.writeReg i v).ioDraws = s.ioDraws := by
  unfold State.writeReg; repeat' split
  all_goals rfl
@[simp] theorem writeReg_ioCalls (i : Reg) (v : Word) : (s.writeReg i v).ioCalls = s.ioCalls := by
  unfold State.writeReg; repeat' split
  all_goals rfl
@[simp] theorem writeReg_log (i : Reg) (v : Word) : (s.writeReg i v).log = s.log := by
  unfold State.writeReg; repeat' split
  all_goals rfl

/-! ### The deferred register write -/

@[simp] theorem armReg_gpr (i : Reg) (v : Word) : (s.armReg i v).gpr = s.gpr := by
  unfold State.armReg; split <;> rfl
@[simp] theorem armReg_pc (i : Reg) (v : Word) : (s.armReg i v).pc = s.pc := by
  unfold State.armReg; split <;> rfl
@[simp] theorem armReg_npc (i : Reg) (v : Word) : (s.armReg i v).npc = s.npc := by
  unfold State.armReg; split <;> rfl
@[simp] theorem armReg_curPc (i : Reg) (v : Word) : (s.armReg i v).curPc = s.curPc := by
  unfold State.armReg; split <;> rfl
@[simp] theorem armReg_hi (i : Reg) (v : Word) : (s.armReg i v).hi = s.hi := by
  unfold State.armReg; split <;> rfl
@[simp] theorem armReg_lo (i : Reg) (v : Word) : (s.armReg i v).lo = s.lo := by
  unfold State.armReg; split <;> rfl
@[simp] theorem armReg_dsCur (i : Reg) (v : Word) : (s.armReg i v).dsCur = s.dsCur := by
  unfold State.armReg; split <;> rfl
@[simp] theorem armReg_dsNext (i : Reg) (v : Word) : (s.armReg i v).dsNext = s.dsNext := by
  unfold State.armReg; split <;> rfl
@[simp] theorem armReg_c0 (i : Reg) (v : Word) : (s.armReg i v).c0 = s.c0 := by
  unfold State.armReg; split <;> rfl
@[simp] theorem armReg_mem (i : Reg) (v : Word) : (s.armReg i v).mem = s.mem := by
  unfold State.armReg; split <;> rfl
@[simp] theorem armReg_params (i : Reg) (v : Word) : (s.armReg i v).params = s.params := by
  unfold State.armReg; split <;> rfl
@[simp] theorem armReg_irqIn (i : Reg) (v : Word) : (s.armReg i v).irqIn = s.irqIn := by
  unfold State.armReg; split <;> rfl
@[simp] theorem armReg_ioIn (i : Reg) (v : Word) : (s.armReg i v).ioIn = s.ioIn := by
  unfold State.armReg; split <;> rfl
@[simp] theorem armReg_ioDraws (i : Reg) (v : Word) : (s.armReg i v).ioDraws = s.ioDraws := by
  unfold State.armReg; split <;> rfl
@[simp] theorem armReg_ioCalls (i : Reg) (v : Word) : (s.armReg i v).ioCalls = s.ioCalls := by
  unfold State.armReg; split <;> rfl
@[simp] theorem armReg_log (i : Reg) (v : Word) : (s.armReg i v).log = s.log := by
  unfold State.armReg; split <;> rfl

/-! ### Control transfer -/

@[simp] theorem jumpTo_gpr (a : Word) : (s.jumpTo a).gpr = s.gpr := rfl
@[simp] theorem jumpTo_pc (a : Word) : (s.jumpTo a).pc = s.pc := rfl
@[simp] theorem jumpTo_curPc (a : Word) : (s.jumpTo a).curPc = s.curPc := rfl
@[simp] theorem jumpTo_hi (a : Word) : (s.jumpTo a).hi = s.hi := rfl
@[simp] theorem jumpTo_lo (a : Word) : (s.jumpTo a).lo = s.lo := rfl
@[simp] theorem jumpTo_ldArmed (a : Word) : (s.jumpTo a).ldArmed = s.ldArmed := rfl
@[simp] theorem jumpTo_ldCommit (a : Word) : (s.jumpTo a).ldCommit = s.ldCommit := rfl
@[simp] theorem jumpTo_dsCur (a : Word) : (s.jumpTo a).dsCur = s.dsCur := rfl
@[simp] theorem jumpTo_c0 (a : Word) : (s.jumpTo a).c0 = s.c0 := rfl
@[simp] theorem jumpTo_mem (a : Word) : (s.jumpTo a).mem = s.mem := rfl
@[simp] theorem jumpTo_params (a : Word) : (s.jumpTo a).params = s.params := rfl
@[simp] theorem jumpTo_irqIn (a : Word) : (s.jumpTo a).irqIn = s.irqIn := rfl
@[simp] theorem jumpTo_ioIn (a : Word) : (s.jumpTo a).ioIn = s.ioIn := rfl
@[simp] theorem jumpTo_ioDraws (a : Word) : (s.jumpTo a).ioDraws = s.ioDraws := rfl
@[simp] theorem jumpTo_ioCalls (a : Word) : (s.jumpTo a).ioCalls = s.ioCalls := rfl
@[simp] theorem jumpTo_log (a : Word) : (s.jumpTo a).log = s.log := rfl

/-! ### A branch -/

@[simp] theorem branchIf_gpr (c : Bool) (imm : Half) : (s.branchIf c imm).gpr = s.gpr := by
  cases c <;> rfl
@[simp] theorem branchIf_pc (c : Bool) (imm : Half) : (s.branchIf c imm).pc = s.pc := by
  cases c <;> rfl
@[simp] theorem branchIf_curPc (c : Bool) (imm : Half) : (s.branchIf c imm).curPc = s.curPc := by
  cases c <;> rfl
@[simp] theorem branchIf_hi (c : Bool) (imm : Half) : (s.branchIf c imm).hi = s.hi := by
  cases c <;> rfl
@[simp] theorem branchIf_lo (c : Bool) (imm : Half) : (s.branchIf c imm).lo = s.lo := by
  cases c <;> rfl
@[simp] theorem branchIf_ldArmed (c : Bool) (imm : Half) : (s.branchIf c imm).ldArmed = s.ldArmed := by
  cases c <;> rfl
@[simp] theorem branchIf_ldCommit (c : Bool) (imm : Half) : (s.branchIf c imm).ldCommit = s.ldCommit := by
  cases c <;> rfl
@[simp] theorem branchIf_dsCur (c : Bool) (imm : Half) : (s.branchIf c imm).dsCur = s.dsCur := by
  cases c <;> rfl
@[simp] theorem branchIf_c0 (c : Bool) (imm : Half) : (s.branchIf c imm).c0 = s.c0 := by
  cases c <;> rfl
@[simp] theorem branchIf_mem (c : Bool) (imm : Half) : (s.branchIf c imm).mem = s.mem := by
  cases c <;> rfl
@[simp] theorem branchIf_params (c : Bool) (imm : Half) : (s.branchIf c imm).params = s.params := by
  cases c <;> rfl
@[simp] theorem branchIf_irqIn (c : Bool) (imm : Half) : (s.branchIf c imm).irqIn = s.irqIn := by
  cases c <;> rfl
@[simp] theorem branchIf_ioIn (c : Bool) (imm : Half) : (s.branchIf c imm).ioIn = s.ioIn := by
  cases c <;> rfl
@[simp] theorem branchIf_ioDraws (c : Bool) (imm : Half) : (s.branchIf c imm).ioDraws = s.ioDraws := by
  cases c <;> rfl
@[simp] theorem branchIf_ioCalls (c : Bool) (imm : Half) : (s.branchIf c imm).ioCalls = s.ioCalls := by
  cases c <;> rfl
@[simp] theorem branchIf_log (c : Bool) (imm : Half) : (s.branchIf c imm).log = s.log := by
  cases c <;> rfl

/-! ### The accumulators, a product -/

@[simp] theorem setProduct_gpr (p : BitVec 64) : (s.setProduct p).gpr = s.gpr := rfl
@[simp] theorem setProduct_pc (p : BitVec 64) : (s.setProduct p).pc = s.pc := rfl
@[simp] theorem setProduct_npc (p : BitVec 64) : (s.setProduct p).npc = s.npc := rfl
@[simp] theorem setProduct_curPc (p : BitVec 64) : (s.setProduct p).curPc = s.curPc := rfl
@[simp] theorem setProduct_ldArmed (p : BitVec 64) : (s.setProduct p).ldArmed = s.ldArmed := rfl
@[simp] theorem setProduct_ldCommit (p : BitVec 64) : (s.setProduct p).ldCommit = s.ldCommit := rfl
@[simp] theorem setProduct_dsCur (p : BitVec 64) : (s.setProduct p).dsCur = s.dsCur := rfl
@[simp] theorem setProduct_dsNext (p : BitVec 64) : (s.setProduct p).dsNext = s.dsNext := rfl
@[simp] theorem setProduct_c0 (p : BitVec 64) : (s.setProduct p).c0 = s.c0 := rfl
@[simp] theorem setProduct_mem (p : BitVec 64) : (s.setProduct p).mem = s.mem := rfl
@[simp] theorem setProduct_params (p : BitVec 64) : (s.setProduct p).params = s.params := rfl
@[simp] theorem setProduct_irqIn (p : BitVec 64) : (s.setProduct p).irqIn = s.irqIn := rfl
@[simp] theorem setProduct_ioIn (p : BitVec 64) : (s.setProduct p).ioIn = s.ioIn := rfl
@[simp] theorem setProduct_ioDraws (p : BitVec 64) : (s.setProduct p).ioDraws = s.ioDraws := rfl
@[simp] theorem setProduct_ioCalls (p : BitVec 64) : (s.setProduct p).ioCalls = s.ioCalls := rfl
@[simp] theorem setProduct_log (p : BitVec 64) : (s.setProduct p).log = s.log := rfl

/-! ### The accumulators, a quotient -/

@[simp] theorem setQuotient_gpr (q r : Word) : (s.setQuotient q r).gpr = s.gpr := rfl
@[simp] theorem setQuotient_pc (q r : Word) : (s.setQuotient q r).pc = s.pc := rfl
@[simp] theorem setQuotient_npc (q r : Word) : (s.setQuotient q r).npc = s.npc := rfl
@[simp] theorem setQuotient_curPc (q r : Word) : (s.setQuotient q r).curPc = s.curPc := rfl
@[simp] theorem setQuotient_ldArmed (q r : Word) : (s.setQuotient q r).ldArmed = s.ldArmed := rfl
@[simp] theorem setQuotient_ldCommit (q r : Word) : (s.setQuotient q r).ldCommit = s.ldCommit := rfl
@[simp] theorem setQuotient_dsCur (q r : Word) : (s.setQuotient q r).dsCur = s.dsCur := rfl
@[simp] theorem setQuotient_dsNext (q r : Word) : (s.setQuotient q r).dsNext = s.dsNext := rfl
@[simp] theorem setQuotient_c0 (q r : Word) : (s.setQuotient q r).c0 = s.c0 := rfl
@[simp] theorem setQuotient_mem (q r : Word) : (s.setQuotient q r).mem = s.mem := rfl
@[simp] theorem setQuotient_params (q r : Word) : (s.setQuotient q r).params = s.params := rfl
@[simp] theorem setQuotient_irqIn (q r : Word) : (s.setQuotient q r).irqIn = s.irqIn := rfl
@[simp] theorem setQuotient_ioIn (q r : Word) : (s.setQuotient q r).ioIn = s.ioIn := rfl
@[simp] theorem setQuotient_ioDraws (q r : Word) : (s.setQuotient q r).ioDraws = s.ioDraws := rfl
@[simp] theorem setQuotient_ioCalls (q r : Word) : (s.setQuotient q r).ioCalls = s.ioCalls := rfl
@[simp] theorem setQuotient_log (q r : Word) : (s.setQuotient q r).log = s.log := rfl

/-! ### Recording a bad address -/

@[simp] theorem recordBad_gpr (e : Exc) : (e.recordBad s).gpr = s.gpr := by
  cases e <;> rfl
@[simp] theorem recordBad_pc (e : Exc) : (e.recordBad s).pc = s.pc := by
  cases e <;> rfl
@[simp] theorem recordBad_npc (e : Exc) : (e.recordBad s).npc = s.npc := by
  cases e <;> rfl
@[simp] theorem recordBad_curPc (e : Exc) : (e.recordBad s).curPc = s.curPc := by
  cases e <;> rfl
@[simp] theorem recordBad_hi (e : Exc) : (e.recordBad s).hi = s.hi := by
  cases e <;> rfl
@[simp] theorem recordBad_lo (e : Exc) : (e.recordBad s).lo = s.lo := by
  cases e <;> rfl
@[simp] theorem recordBad_ldArmed (e : Exc) : (e.recordBad s).ldArmed = s.ldArmed := by
  cases e <;> rfl
@[simp] theorem recordBad_ldCommit (e : Exc) : (e.recordBad s).ldCommit = s.ldCommit := by
  cases e <;> rfl
@[simp] theorem recordBad_dsCur (e : Exc) : (e.recordBad s).dsCur = s.dsCur := by
  cases e <;> rfl
@[simp] theorem recordBad_dsNext (e : Exc) : (e.recordBad s).dsNext = s.dsNext := by
  cases e <;> rfl
@[simp] theorem recordBad_mem (e : Exc) : (e.recordBad s).mem = s.mem := by
  cases e <;> rfl
@[simp] theorem recordBad_params (e : Exc) : (e.recordBad s).params = s.params := by
  cases e <;> rfl
@[simp] theorem recordBad_irqIn (e : Exc) : (e.recordBad s).irqIn = s.irqIn := by
  cases e <;> rfl
@[simp] theorem recordBad_ioIn (e : Exc) : (e.recordBad s).ioIn = s.ioIn := by
  cases e <;> rfl
@[simp] theorem recordBad_ioDraws (e : Exc) : (e.recordBad s).ioDraws = s.ioDraws := by
  cases e <;> rfl
@[simp] theorem recordBad_ioCalls (e : Exc) : (e.recordBad s).ioCalls = s.ioCalls := by
  cases e <;> rfl
@[simp] theorem recordBad_log (e : Exc) : (e.recordBad s).log = s.log := by
  cases e <;> rfl

/-! ### Exception entry -/

@[simp] theorem enter_gpr (e : Exc) (a : Word) (bd : Bool) : (s.enter e a bd).gpr = s.gpr := by
  cases e <;> rfl
@[simp] theorem enter_curPc (e : Exc) (a : Word) (bd : Bool) : (s.enter e a bd).curPc = s.curPc := by
  cases e <;> rfl
@[simp] theorem enter_hi (e : Exc) (a : Word) (bd : Bool) : (s.enter e a bd).hi = s.hi := by
  cases e <;> rfl
@[simp] theorem enter_lo (e : Exc) (a : Word) (bd : Bool) : (s.enter e a bd).lo = s.lo := by
  cases e <;> rfl
@[simp] theorem enter_ldArmed (e : Exc) (a : Word) (bd : Bool) : (s.enter e a bd).ldArmed = s.ldArmed := by
  cases e <;> rfl
@[simp] theorem enter_ldCommit (e : Exc) (a : Word) (bd : Bool) : (s.enter e a bd).ldCommit = s.ldCommit := by
  cases e <;> rfl
@[simp] theorem enter_dsCur (e : Exc) (a : Word) (bd : Bool) : (s.enter e a bd).dsCur = s.dsCur := by
  cases e <;> rfl
@[simp] theorem enter_dsNext (e : Exc) (a : Word) (bd : Bool) : (s.enter e a bd).dsNext = s.dsNext := by
  cases e <;> rfl
@[simp] theorem enter_mem (e : Exc) (a : Word) (bd : Bool) : (s.enter e a bd).mem = s.mem := by
  cases e <;> rfl
@[simp] theorem enter_params (e : Exc) (a : Word) (bd : Bool) : (s.enter e a bd).params = s.params := by
  cases e <;> rfl
@[simp] theorem enter_irqIn (e : Exc) (a : Word) (bd : Bool) : (s.enter e a bd).irqIn = s.irqIn := by
  cases e <;> rfl
@[simp] theorem enter_ioIn (e : Exc) (a : Word) (bd : Bool) : (s.enter e a bd).ioIn = s.ioIn := by
  cases e <;> rfl
@[simp] theorem enter_ioDraws (e : Exc) (a : Word) (bd : Bool) : (s.enter e a bd).ioDraws = s.ioDraws := by
  cases e <;> rfl
@[simp] theorem enter_ioCalls (e : Exc) (a : Word) (bd : Bool) : (s.enter e a bd).ioCalls = s.ioCalls := by
  cases e <;> rfl
@[simp] theorem enter_log (e : Exc) (a : Word) (bd : Bool) : (s.enter e a bd).log = s.log := by
  cases e <;> rfl

/-! ### Raising inside a step -/

@[simp] theorem raise_gpr (e : Exc) : (s.raise e).gpr = s.gpr := by
  cases e <;> rfl
@[simp] theorem raise_curPc (e : Exc) : (s.raise e).curPc = s.curPc := by
  cases e <;> rfl
@[simp] theorem raise_hi (e : Exc) : (s.raise e).hi = s.hi := by
  cases e <;> rfl
@[simp] theorem raise_lo (e : Exc) : (s.raise e).lo = s.lo := by
  cases e <;> rfl
@[simp] theorem raise_ldArmed (e : Exc) : (s.raise e).ldArmed = s.ldArmed := by
  cases e <;> rfl
@[simp] theorem raise_ldCommit (e : Exc) : (s.raise e).ldCommit = s.ldCommit := by
  cases e <;> rfl
@[simp] theorem raise_dsCur (e : Exc) : (s.raise e).dsCur = s.dsCur := by
  cases e <;> rfl
@[simp] theorem raise_dsNext (e : Exc) : (s.raise e).dsNext = s.dsNext := by
  cases e <;> rfl
@[simp] theorem raise_mem (e : Exc) : (s.raise e).mem = s.mem := by
  cases e <;> rfl
@[simp] theorem raise_params (e : Exc) : (s.raise e).params = s.params := by
  cases e <;> rfl
@[simp] theorem raise_irqIn (e : Exc) : (s.raise e).irqIn = s.irqIn := by
  cases e <;> rfl
@[simp] theorem raise_ioIn (e : Exc) : (s.raise e).ioIn = s.ioIn := by
  cases e <;> rfl
@[simp] theorem raise_ioDraws (e : Exc) : (s.raise e).ioDraws = s.ioDraws := by
  cases e <;> rfl
@[simp] theorem raise_ioCalls (e : Exc) : (s.raise e).ioCalls = s.ioCalls := by
  cases e <;> rfl
@[simp] theorem raise_log (e : Exc) : (s.raise e).log = s.log := by
  cases e <;> rfl

/-! ### Popping the mode stack -/

@[simp] theorem popModeStack_gpr : (s.popModeStack).gpr = s.gpr := rfl
@[simp] theorem popModeStack_pc : (s.popModeStack).pc = s.pc := rfl
@[simp] theorem popModeStack_npc : (s.popModeStack).npc = s.npc := rfl
@[simp] theorem popModeStack_curPc : (s.popModeStack).curPc = s.curPc := rfl
@[simp] theorem popModeStack_hi : (s.popModeStack).hi = s.hi := rfl
@[simp] theorem popModeStack_lo : (s.popModeStack).lo = s.lo := rfl
@[simp] theorem popModeStack_ldArmed : (s.popModeStack).ldArmed = s.ldArmed := rfl
@[simp] theorem popModeStack_ldCommit : (s.popModeStack).ldCommit = s.ldCommit := rfl
@[simp] theorem popModeStack_dsCur : (s.popModeStack).dsCur = s.dsCur := rfl
@[simp] theorem popModeStack_dsNext : (s.popModeStack).dsNext = s.dsNext := rfl
@[simp] theorem popModeStack_mem : (s.popModeStack).mem = s.mem := rfl
@[simp] theorem popModeStack_params : (s.popModeStack).params = s.params := rfl
@[simp] theorem popModeStack_irqIn : (s.popModeStack).irqIn = s.irqIn := rfl
@[simp] theorem popModeStack_ioIn : (s.popModeStack).ioIn = s.ioIn := rfl
@[simp] theorem popModeStack_ioDraws : (s.popModeStack).ioDraws = s.ioDraws := rfl
@[simp] theorem popModeStack_ioCalls : (s.popModeStack).ioCalls = s.ioCalls := rfl
@[simp] theorem popModeStack_log : (s.popModeStack).log = s.log := rfl

/-! ### Logging -/

@[simp] theorem logEvent_gpr (e : LogEvent) : (s.logEvent e).gpr = s.gpr := rfl
@[simp] theorem logEvent_pc (e : LogEvent) : (s.logEvent e).pc = s.pc := rfl
@[simp] theorem logEvent_npc (e : LogEvent) : (s.logEvent e).npc = s.npc := rfl
@[simp] theorem logEvent_curPc (e : LogEvent) : (s.logEvent e).curPc = s.curPc := rfl
@[simp] theorem logEvent_hi (e : LogEvent) : (s.logEvent e).hi = s.hi := rfl
@[simp] theorem logEvent_lo (e : LogEvent) : (s.logEvent e).lo = s.lo := rfl
@[simp] theorem logEvent_ldArmed (e : LogEvent) : (s.logEvent e).ldArmed = s.ldArmed := rfl
@[simp] theorem logEvent_ldCommit (e : LogEvent) : (s.logEvent e).ldCommit = s.ldCommit := rfl
@[simp] theorem logEvent_dsCur (e : LogEvent) : (s.logEvent e).dsCur = s.dsCur := rfl
@[simp] theorem logEvent_dsNext (e : LogEvent) : (s.logEvent e).dsNext = s.dsNext := rfl
@[simp] theorem logEvent_c0 (e : LogEvent) : (s.logEvent e).c0 = s.c0 := rfl
@[simp] theorem logEvent_mem (e : LogEvent) : (s.logEvent e).mem = s.mem := rfl
@[simp] theorem logEvent_params (e : LogEvent) : (s.logEvent e).params = s.params := rfl
@[simp] theorem logEvent_irqIn (e : LogEvent) : (s.logEvent e).irqIn = s.irqIn := rfl
@[simp] theorem logEvent_ioIn (e : LogEvent) : (s.logEvent e).ioIn = s.ioIn := rfl
@[simp] theorem logEvent_ioDraws (e : LogEvent) : (s.logEvent e).ioDraws = s.ioDraws := rfl
@[simp] theorem logEvent_ioCalls (e : LogEvent) : (s.logEvent e).ioCalls = s.ioCalls := rfl

/-! ### A call on a handler -/

@[simp] theorem callHandler_gpr (c : IoCall) : (s.callHandler c).gpr = s.gpr := by
  unfold State.callHandler; split <;> rfl
@[simp] theorem callHandler_pc (c : IoCall) : (s.callHandler c).pc = s.pc := by
  unfold State.callHandler; split <;> rfl
@[simp] theorem callHandler_npc (c : IoCall) : (s.callHandler c).npc = s.npc := by
  unfold State.callHandler; split <;> rfl
@[simp] theorem callHandler_curPc (c : IoCall) : (s.callHandler c).curPc = s.curPc := by
  unfold State.callHandler; split <;> rfl
@[simp] theorem callHandler_hi (c : IoCall) : (s.callHandler c).hi = s.hi := by
  unfold State.callHandler; split <;> rfl
@[simp] theorem callHandler_lo (c : IoCall) : (s.callHandler c).lo = s.lo := by
  unfold State.callHandler; split <;> rfl
@[simp] theorem callHandler_ldArmed (c : IoCall) : (s.callHandler c).ldArmed = s.ldArmed := by
  unfold State.callHandler; split <;> rfl
@[simp] theorem callHandler_ldCommit (c : IoCall) : (s.callHandler c).ldCommit = s.ldCommit := by
  unfold State.callHandler; split <;> rfl
@[simp] theorem callHandler_dsCur (c : IoCall) : (s.callHandler c).dsCur = s.dsCur := by
  unfold State.callHandler; split <;> rfl
@[simp] theorem callHandler_dsNext (c : IoCall) : (s.callHandler c).dsNext = s.dsNext := by
  unfold State.callHandler; split <;> rfl
@[simp] theorem callHandler_c0 (c : IoCall) : (s.callHandler c).c0 = s.c0 := by
  unfold State.callHandler; split <;> rfl
@[simp] theorem callHandler_mem (c : IoCall) : (s.callHandler c).mem = s.mem := by
  unfold State.callHandler; split <;> rfl
@[simp] theorem callHandler_params (c : IoCall) : (s.callHandler c).params = s.params := by
  unfold State.callHandler; split <;> rfl
@[simp] theorem callHandler_irqIn (c : IoCall) : (s.callHandler c).irqIn = s.irqIn := by
  unfold State.callHandler; split <;> rfl
@[simp] theorem callHandler_log (c : IoCall) : (s.callHandler c).log = s.log := by
  unfold State.callHandler; split <;> rfl

/-! ### A read through a handler -/

@[simp] theorem readHandler_gpr (a : Word) (w : Width) : ((s.readHandler a w).state).gpr = s.gpr := by
  unfold State.readHandler; cases s.nextReply <;> simp
@[simp] theorem readHandler_pc (a : Word) (w : Width) : ((s.readHandler a w).state).pc = s.pc := by
  unfold State.readHandler; cases s.nextReply <;> simp
@[simp] theorem readHandler_npc (a : Word) (w : Width) : ((s.readHandler a w).state).npc = s.npc := by
  unfold State.readHandler; cases s.nextReply <;> simp
@[simp] theorem readHandler_curPc (a : Word) (w : Width) : ((s.readHandler a w).state).curPc = s.curPc := by
  unfold State.readHandler; cases s.nextReply <;> simp
@[simp] theorem readHandler_hi (a : Word) (w : Width) : ((s.readHandler a w).state).hi = s.hi := by
  unfold State.readHandler; cases s.nextReply <;> simp
@[simp] theorem readHandler_lo (a : Word) (w : Width) : ((s.readHandler a w).state).lo = s.lo := by
  unfold State.readHandler; cases s.nextReply <;> simp
@[simp] theorem readHandler_ldArmed (a : Word) (w : Width) : ((s.readHandler a w).state).ldArmed = s.ldArmed := by
  unfold State.readHandler; cases s.nextReply <;> simp
@[simp] theorem readHandler_ldCommit (a : Word) (w : Width) : ((s.readHandler a w).state).ldCommit = s.ldCommit := by
  unfold State.readHandler; cases s.nextReply <;> simp
@[simp] theorem readHandler_dsCur (a : Word) (w : Width) : ((s.readHandler a w).state).dsCur = s.dsCur := by
  unfold State.readHandler; cases s.nextReply <;> simp
@[simp] theorem readHandler_dsNext (a : Word) (w : Width) : ((s.readHandler a w).state).dsNext = s.dsNext := by
  unfold State.readHandler; cases s.nextReply <;> simp
@[simp] theorem readHandler_c0 (a : Word) (w : Width) : ((s.readHandler a w).state).c0 = s.c0 := by
  unfold State.readHandler; cases s.nextReply <;> simp
@[simp] theorem readHandler_mem (a : Word) (w : Width) : ((s.readHandler a w).state).mem = s.mem := by
  unfold State.readHandler; cases s.nextReply <;> simp
@[simp] theorem readHandler_params (a : Word) (w : Width) : ((s.readHandler a w).state).params = s.params := by
  unfold State.readHandler; cases s.nextReply <;> simp
@[simp] theorem readHandler_irqIn (a : Word) (w : Width) : ((s.readHandler a w).state).irqIn = s.irqIn := by
  unfold State.readHandler; cases s.nextReply <;> simp
@[simp] theorem readHandler_log (a : Word) (w : Width) : ((s.readHandler a w).state).log = s.log := by
  unfold State.readHandler; cases s.nextReply <;> simp

/-! ### A bus read -/

@[simp] theorem memRead_gpr (a : Word) (w : Width) : ((s.memRead a w).state).gpr = s.gpr := by
  unfold State.memRead; split <;> simp
@[simp] theorem memRead_pc (a : Word) (w : Width) : ((s.memRead a w).state).pc = s.pc := by
  unfold State.memRead; split <;> simp
@[simp] theorem memRead_npc (a : Word) (w : Width) : ((s.memRead a w).state).npc = s.npc := by
  unfold State.memRead; split <;> simp
@[simp] theorem memRead_curPc (a : Word) (w : Width) : ((s.memRead a w).state).curPc = s.curPc := by
  unfold State.memRead; split <;> simp
@[simp] theorem memRead_hi (a : Word) (w : Width) : ((s.memRead a w).state).hi = s.hi := by
  unfold State.memRead; split <;> simp
@[simp] theorem memRead_lo (a : Word) (w : Width) : ((s.memRead a w).state).lo = s.lo := by
  unfold State.memRead; split <;> simp
@[simp] theorem memRead_ldArmed (a : Word) (w : Width) : ((s.memRead a w).state).ldArmed = s.ldArmed := by
  unfold State.memRead; split <;> simp
@[simp] theorem memRead_ldCommit (a : Word) (w : Width) : ((s.memRead a w).state).ldCommit = s.ldCommit := by
  unfold State.memRead; split <;> simp
@[simp] theorem memRead_dsCur (a : Word) (w : Width) : ((s.memRead a w).state).dsCur = s.dsCur := by
  unfold State.memRead; split <;> simp
@[simp] theorem memRead_dsNext (a : Word) (w : Width) : ((s.memRead a w).state).dsNext = s.dsNext := by
  unfold State.memRead; split <;> simp
@[simp] theorem memRead_c0 (a : Word) (w : Width) : ((s.memRead a w).state).c0 = s.c0 := by
  unfold State.memRead; split <;> simp
@[simp] theorem memRead_mem (a : Word) (w : Width) : ((s.memRead a w).state).mem = s.mem := by
  unfold State.memRead; split <;> simp
@[simp] theorem memRead_params (a : Word) (w : Width) : ((s.memRead a w).state).params = s.params := by
  unfold State.memRead; split <;> simp
@[simp] theorem memRead_irqIn (a : Word) (w : Width) : ((s.memRead a w).state).irqIn = s.irqIn := by
  unfold State.memRead; split <;> simp

/-! ### A bus write -/

@[simp] theorem memWrite_gpr (a : Word) (w : Width) (v : Word) : ((s.memWrite a w v).state).gpr = s.gpr := by
  unfold State.memWrite; split
  case h_3 => cases s.nextReply <;> simp
  all_goals simp
@[simp] theorem memWrite_pc (a : Word) (w : Width) (v : Word) : ((s.memWrite a w v).state).pc = s.pc := by
  unfold State.memWrite; split
  case h_3 => cases s.nextReply <;> simp
  all_goals simp
@[simp] theorem memWrite_npc (a : Word) (w : Width) (v : Word) : ((s.memWrite a w v).state).npc = s.npc := by
  unfold State.memWrite; split
  case h_3 => cases s.nextReply <;> simp
  all_goals simp
@[simp] theorem memWrite_curPc (a : Word) (w : Width) (v : Word) : ((s.memWrite a w v).state).curPc = s.curPc := by
  unfold State.memWrite; split
  case h_3 => cases s.nextReply <;> simp
  all_goals simp
@[simp] theorem memWrite_hi (a : Word) (w : Width) (v : Word) : ((s.memWrite a w v).state).hi = s.hi := by
  unfold State.memWrite; split
  case h_3 => cases s.nextReply <;> simp
  all_goals simp
@[simp] theorem memWrite_lo (a : Word) (w : Width) (v : Word) : ((s.memWrite a w v).state).lo = s.lo := by
  unfold State.memWrite; split
  case h_3 => cases s.nextReply <;> simp
  all_goals simp
@[simp] theorem memWrite_ldArmed (a : Word) (w : Width) (v : Word) : ((s.memWrite a w v).state).ldArmed = s.ldArmed := by
  unfold State.memWrite; split
  case h_3 => cases s.nextReply <;> simp
  all_goals simp
@[simp] theorem memWrite_ldCommit (a : Word) (w : Width) (v : Word) : ((s.memWrite a w v).state).ldCommit = s.ldCommit := by
  unfold State.memWrite; split
  case h_3 => cases s.nextReply <;> simp
  all_goals simp
@[simp] theorem memWrite_dsCur (a : Word) (w : Width) (v : Word) : ((s.memWrite a w v).state).dsCur = s.dsCur := by
  unfold State.memWrite; split
  case h_3 => cases s.nextReply <;> simp
  all_goals simp
@[simp] theorem memWrite_dsNext (a : Word) (w : Width) (v : Word) : ((s.memWrite a w v).state).dsNext = s.dsNext := by
  unfold State.memWrite; split
  case h_3 => cases s.nextReply <;> simp
  all_goals simp
@[simp] theorem memWrite_c0 (a : Word) (w : Width) (v : Word) : ((s.memWrite a w v).state).c0 = s.c0 := by
  unfold State.memWrite; split
  case h_3 => cases s.nextReply <;> simp
  all_goals simp
@[simp] theorem memWrite_params (a : Word) (w : Width) (v : Word) : ((s.memWrite a w v).state).params = s.params := by
  unfold State.memWrite; split
  case h_3 => cases s.nextReply <;> simp
  all_goals simp
@[simp] theorem memWrite_irqIn (a : Word) (w : Width) (v : Word) : ((s.memWrite a w v).state).irqIn = s.irqIn := by
  unfold State.memWrite; split
  case h_3 => cases s.nextReply <;> simp
  all_goals simp

/-! ### A fetch from the bus -/

@[simp] theorem memFetch_gpr (a : Word) : ((s.memFetch a).state).gpr = s.gpr := by
  unfold State.memFetch; split <;> simp
@[simp] theorem memFetch_pc (a : Word) : ((s.memFetch a).state).pc = s.pc := by
  unfold State.memFetch; split <;> simp
@[simp] theorem memFetch_npc (a : Word) : ((s.memFetch a).state).npc = s.npc := by
  unfold State.memFetch; split <;> simp
@[simp] theorem memFetch_curPc (a : Word) : ((s.memFetch a).state).curPc = s.curPc := by
  unfold State.memFetch; split <;> simp
@[simp] theorem memFetch_hi (a : Word) : ((s.memFetch a).state).hi = s.hi := by
  unfold State.memFetch; split <;> simp
@[simp] theorem memFetch_lo (a : Word) : ((s.memFetch a).state).lo = s.lo := by
  unfold State.memFetch; split <;> simp
@[simp] theorem memFetch_ldArmed (a : Word) : ((s.memFetch a).state).ldArmed = s.ldArmed := by
  unfold State.memFetch; split <;> simp
@[simp] theorem memFetch_ldCommit (a : Word) : ((s.memFetch a).state).ldCommit = s.ldCommit := by
  unfold State.memFetch; split <;> simp
@[simp] theorem memFetch_dsCur (a : Word) : ((s.memFetch a).state).dsCur = s.dsCur := by
  unfold State.memFetch; split <;> simp
@[simp] theorem memFetch_dsNext (a : Word) : ((s.memFetch a).state).dsNext = s.dsNext := by
  unfold State.memFetch; split <;> simp
@[simp] theorem memFetch_c0 (a : Word) : ((s.memFetch a).state).c0 = s.c0 := by
  unfold State.memFetch; split <;> simp
@[simp] theorem memFetch_mem (a : Word) : ((s.memFetch a).state).mem = s.mem := by
  unfold State.memFetch; split <;> simp
@[simp] theorem memFetch_params (a : Word) : ((s.memFetch a).state).params = s.params := by
  unfold State.memFetch; split <;> simp
@[simp] theorem memFetch_irqIn (a : Word) : ((s.memFetch a).state).irqIn = s.irqIn := by
  unfold State.memFetch; split <;> simp
@[simp] theorem memFetch_log (a : Word) : ((s.memFetch a).state).log = s.log := by
  unfold State.memFetch; split <;> simp

/-! ### Phase 0 -/

@[simp] theorem ageMarker_gpr : (s.ageMarker).gpr = s.gpr := rfl
@[simp] theorem ageMarker_pc : (s.ageMarker).pc = s.pc := rfl
@[simp] theorem ageMarker_npc : (s.ageMarker).npc = s.npc := rfl
@[simp] theorem ageMarker_curPc : (s.ageMarker).curPc = s.curPc := rfl
@[simp] theorem ageMarker_hi : (s.ageMarker).hi = s.hi := rfl
@[simp] theorem ageMarker_lo : (s.ageMarker).lo = s.lo := rfl
@[simp] theorem ageMarker_ldArmed : (s.ageMarker).ldArmed = s.ldArmed := rfl
@[simp] theorem ageMarker_ldCommit : (s.ageMarker).ldCommit = s.ldCommit := rfl
@[simp] theorem ageMarker_c0 : (s.ageMarker).c0 = s.c0 := rfl
@[simp] theorem ageMarker_mem : (s.ageMarker).mem = s.mem := rfl
@[simp] theorem ageMarker_params : (s.ageMarker).params = s.params := rfl
@[simp] theorem ageMarker_irqIn : (s.ageMarker).irqIn = s.irqIn := rfl
@[simp] theorem ageMarker_ioIn : (s.ageMarker).ioIn = s.ioIn := rfl
@[simp] theorem ageMarker_ioDraws : (s.ageMarker).ioDraws = s.ioDraws := rfl
@[simp] theorem ageMarker_ioCalls : (s.ageMarker).ioCalls = s.ioCalls := rfl
@[simp] theorem ageMarker_log : (s.ageMarker).log = s.log := rfl

/-! ### Phase 1 -/

@[simp] theorem commitPending_pc : (s.commitPending).pc = s.pc := by
  unfold State.commitPending; split <;> rfl
@[simp] theorem commitPending_npc : (s.commitPending).npc = s.npc := by
  unfold State.commitPending; split <;> rfl
@[simp] theorem commitPending_curPc : (s.commitPending).curPc = s.curPc := by
  unfold State.commitPending; split <;> rfl
@[simp] theorem commitPending_hi : (s.commitPending).hi = s.hi := by
  unfold State.commitPending; split <;> rfl
@[simp] theorem commitPending_lo : (s.commitPending).lo = s.lo := by
  unfold State.commitPending; split <;> rfl
@[simp] theorem commitPending_ldArmed : (s.commitPending).ldArmed = s.ldArmed := by
  unfold State.commitPending; split <;> rfl
@[simp] theorem commitPending_dsCur : (s.commitPending).dsCur = s.dsCur := by
  unfold State.commitPending; split <;> rfl
@[simp] theorem commitPending_dsNext : (s.commitPending).dsNext = s.dsNext := by
  unfold State.commitPending; split <;> rfl
@[simp] theorem commitPending_c0 : (s.commitPending).c0 = s.c0 := by
  unfold State.commitPending; split <;> rfl
@[simp] theorem commitPending_mem : (s.commitPending).mem = s.mem := by
  unfold State.commitPending; split <;> rfl
@[simp] theorem commitPending_params : (s.commitPending).params = s.params := by
  unfold State.commitPending; split <;> rfl
@[simp] theorem commitPending_irqIn : (s.commitPending).irqIn = s.irqIn := by
  unfold State.commitPending; split <;> rfl
@[simp] theorem commitPending_ioIn : (s.commitPending).ioIn = s.ioIn := by
  unfold State.commitPending; split <;> rfl
@[simp] theorem commitPending_ioDraws : (s.commitPending).ioDraws = s.ioDraws := by
  unfold State.commitPending; split <;> rfl
@[simp] theorem commitPending_ioCalls : (s.commitPending).ioCalls = s.ioCalls := by
  unfold State.commitPending; split <;> rfl
@[simp] theorem commitPending_log : (s.commitPending).log = s.log := by
  unfold State.commitPending; split <;> rfl

/-! ### Phase 2 -/

@[simp] theorem ageBuffer_gpr : (s.ageBuffer).gpr = s.gpr := rfl
@[simp] theorem ageBuffer_pc : (s.ageBuffer).pc = s.pc := rfl
@[simp] theorem ageBuffer_npc : (s.ageBuffer).npc = s.npc := rfl
@[simp] theorem ageBuffer_curPc : (s.ageBuffer).curPc = s.curPc := rfl
@[simp] theorem ageBuffer_hi : (s.ageBuffer).hi = s.hi := rfl
@[simp] theorem ageBuffer_lo : (s.ageBuffer).lo = s.lo := rfl
@[simp] theorem ageBuffer_dsCur : (s.ageBuffer).dsCur = s.dsCur := rfl
@[simp] theorem ageBuffer_dsNext : (s.ageBuffer).dsNext = s.dsNext := rfl
@[simp] theorem ageBuffer_c0 : (s.ageBuffer).c0 = s.c0 := rfl
@[simp] theorem ageBuffer_mem : (s.ageBuffer).mem = s.mem := rfl
@[simp] theorem ageBuffer_params : (s.ageBuffer).params = s.params := rfl
@[simp] theorem ageBuffer_irqIn : (s.ageBuffer).irqIn = s.irqIn := rfl
@[simp] theorem ageBuffer_ioIn : (s.ageBuffer).ioIn = s.ioIn := rfl
@[simp] theorem ageBuffer_ioDraws : (s.ageBuffer).ioDraws = s.ioDraws := rfl
@[simp] theorem ageBuffer_ioCalls : (s.ageBuffer).ioCalls = s.ioCalls := rfl
@[simp] theorem ageBuffer_log : (s.ageBuffer).log = s.log := rfl

/-! ### Phases 0 to 2 -/

@[simp] theorem beginStep_pc : (s.beginStep).pc = s.pc := by
  simp [State.beginStep]
@[simp] theorem beginStep_npc : (s.beginStep).npc = s.npc := by
  simp [State.beginStep]
@[simp] theorem beginStep_curPc : (s.beginStep).curPc = s.curPc := by
  simp [State.beginStep]
@[simp] theorem beginStep_hi : (s.beginStep).hi = s.hi := by
  simp [State.beginStep]
@[simp] theorem beginStep_lo : (s.beginStep).lo = s.lo := by
  simp [State.beginStep]
@[simp] theorem beginStep_c0 : (s.beginStep).c0 = s.c0 := by
  simp [State.beginStep]
@[simp] theorem beginStep_mem : (s.beginStep).mem = s.mem := by
  simp [State.beginStep]
@[simp] theorem beginStep_params : (s.beginStep).params = s.params := by
  simp [State.beginStep]
@[simp] theorem beginStep_irqIn : (s.beginStep).irqIn = s.irqIn := by
  simp [State.beginStep]
@[simp] theorem beginStep_ioIn : (s.beginStep).ioIn = s.ioIn := by
  simp [State.beginStep]
@[simp] theorem beginStep_ioDraws : (s.beginStep).ioDraws = s.ioDraws := by
  simp [State.beginStep]
@[simp] theorem beginStep_ioCalls : (s.beginStep).ioCalls = s.ioCalls := by
  simp [State.beginStep]
@[simp] theorem beginStep_log : (s.beginStep).log = s.log := by
  simp [State.beginStep]

/-! ### Phase 3: the latch -/

@[simp] theorem latch_gpr : s.latch.gpr = s.gpr := rfl
@[simp] theorem latch_pc : s.latch.pc = s.pc := rfl
@[simp] theorem latch_npc : s.latch.npc = s.npc := rfl
@[simp] theorem latch_hi : s.latch.hi = s.hi := rfl
@[simp] theorem latch_lo : s.latch.lo = s.lo := rfl
@[simp] theorem latch_ldArmed : s.latch.ldArmed = s.ldArmed := rfl
@[simp] theorem latch_ldCommit : s.latch.ldCommit = s.ldCommit := rfl
@[simp] theorem latch_dsCur : s.latch.dsCur = s.dsCur := rfl
@[simp] theorem latch_dsNext : s.latch.dsNext = s.dsNext := rfl
@[simp] theorem latch_c0 : s.latch.c0 = s.c0 := rfl
@[simp] theorem latch_mem : s.latch.mem = s.mem := rfl
@[simp] theorem latch_params : s.latch.params = s.params := rfl
@[simp] theorem latch_irqIn : s.latch.irqIn = s.irqIn := rfl
@[simp] theorem latch_ioIn : s.latch.ioIn = s.ioIn := rfl
@[simp] theorem latch_ioDraws : s.latch.ioDraws = s.ioDraws := rfl
@[simp] theorem latch_ioCalls : s.latch.ioCalls = s.ioCalls := rfl
@[simp] theorem latch_log : s.latch.log = s.log := rfl
@[simp] theorem latch_curPc : s.latch.curPc = s.pc := rfl

/-! ### Phase 4 -/

@[simp] theorem advance_gpr : (s.advance).gpr = s.gpr := rfl
@[simp] theorem advance_curPc : (s.advance).curPc = s.curPc := rfl
@[simp] theorem advance_hi : (s.advance).hi = s.hi := rfl
@[simp] theorem advance_lo : (s.advance).lo = s.lo := rfl
@[simp] theorem advance_ldArmed : (s.advance).ldArmed = s.ldArmed := rfl
@[simp] theorem advance_ldCommit : (s.advance).ldCommit = s.ldCommit := rfl
@[simp] theorem advance_dsCur : (s.advance).dsCur = s.dsCur := rfl
@[simp] theorem advance_dsNext : (s.advance).dsNext = s.dsNext := rfl
@[simp] theorem advance_c0 : (s.advance).c0 = s.c0 := rfl
@[simp] theorem advance_mem : (s.advance).mem = s.mem := rfl
@[simp] theorem advance_params : (s.advance).params = s.params := rfl
@[simp] theorem advance_irqIn : (s.advance).irqIn = s.irqIn := rfl
@[simp] theorem advance_ioIn : (s.advance).ioIn = s.ioIn := rfl
@[simp] theorem advance_ioDraws : (s.advance).ioDraws = s.ioDraws := rfl
@[simp] theorem advance_ioCalls : (s.advance).ioCalls = s.ioCalls := rfl
@[simp] theorem advance_log : (s.advance).log = s.log := rfl

/-! ### The poll -/

@[simp] theorem poll_gpr (irq : Bool) : (s.poll irq).gpr = s.gpr := by
  unfold State.poll; simp only []; split <;> simp
@[simp] theorem poll_curPc (irq : Bool) : (s.poll irq).curPc = s.curPc := by
  unfold State.poll; simp only []; split <;> simp
@[simp] theorem poll_hi (irq : Bool) : (s.poll irq).hi = s.hi := by
  unfold State.poll; simp only []; split <;> simp
@[simp] theorem poll_lo (irq : Bool) : (s.poll irq).lo = s.lo := by
  unfold State.poll; simp only []; split <;> simp
@[simp] theorem poll_ldArmed (irq : Bool) : (s.poll irq).ldArmed = s.ldArmed := by
  unfold State.poll; simp only []; split <;> simp
@[simp] theorem poll_ldCommit (irq : Bool) : (s.poll irq).ldCommit = s.ldCommit := by
  unfold State.poll; simp only []; split <;> simp
@[simp] theorem poll_dsCur (irq : Bool) : (s.poll irq).dsCur = s.dsCur := by
  unfold State.poll; simp only []; split <;> simp
@[simp] theorem poll_mem (irq : Bool) : (s.poll irq).mem = s.mem := by
  unfold State.poll; simp only []; split <;> simp
@[simp] theorem poll_params (irq : Bool) : (s.poll irq).params = s.params := by
  unfold State.poll; simp only []; split <;> simp
@[simp] theorem poll_irqIn (irq : Bool) : (s.poll irq).irqIn = s.irqIn := by
  unfold State.poll; simp only []; split <;> simp
@[simp] theorem poll_ioIn (irq : Bool) : (s.poll irq).ioIn = s.ioIn := by
  unfold State.poll; simp only []; split <;> simp
@[simp] theorem poll_ioDraws (irq : Bool) : (s.poll irq).ioDraws = s.ioDraws := by
  unfold State.poll; simp only []; split <;> simp
@[simp] theorem poll_ioCalls (irq : Bool) : (s.poll irq).ioCalls = s.ioCalls := by
  unfold State.poll; simp only []; split <;> simp
@[simp] theorem poll_log (irq : Bool) : (s.poll irq).log = s.log := by
  unfold State.poll; simp only []; split <;> simp

/-! ### The poll with the driver's level -/

@[simp] theorem pollInput_gpr : (s.pollInput).gpr = s.gpr := by
  simp [State.pollInput]
@[simp] theorem pollInput_curPc : (s.pollInput).curPc = s.curPc := by
  simp [State.pollInput]
@[simp] theorem pollInput_hi : (s.pollInput).hi = s.hi := by
  simp [State.pollInput]
@[simp] theorem pollInput_lo : (s.pollInput).lo = s.lo := by
  simp [State.pollInput]
@[simp] theorem pollInput_ldArmed : (s.pollInput).ldArmed = s.ldArmed := by
  simp [State.pollInput]
@[simp] theorem pollInput_ldCommit : (s.pollInput).ldCommit = s.ldCommit := by
  simp [State.pollInput]
@[simp] theorem pollInput_dsCur : (s.pollInput).dsCur = s.dsCur := by
  simp [State.pollInput]
@[simp] theorem pollInput_mem : (s.pollInput).mem = s.mem := by
  simp [State.pollInput]
@[simp] theorem pollInput_params : (s.pollInput).params = s.params := by
  simp [State.pollInput]
@[simp] theorem pollInput_ioIn : (s.pollInput).ioIn = s.ioIn := by
  simp [State.pollInput]
@[simp] theorem pollInput_ioDraws : (s.pollInput).ioDraws = s.ioDraws := by
  simp [State.pollInput]
@[simp] theorem pollInput_ioCalls : (s.pollInput).ioCalls = s.ioCalls := by
  simp [State.pollInput]
@[simp] theorem pollInput_log : (s.pollInput).log = s.log := by
  simp [State.pollInput]

/-! ### The reset call -/

@[simp] theorem resetCall_mem : (s.resetCall).mem = s.mem := rfl
@[simp] theorem resetCall_params : (s.resetCall).params = s.params := rfl
@[simp] theorem resetCall_irqIn : (s.resetCall).irqIn = s.irqIn := rfl
@[simp] theorem resetCall_ioIn : (s.resetCall).ioIn = s.ioIn := rfl
@[simp] theorem resetCall_ioDraws : (s.resetCall).ioDraws = s.ioDraws := rfl
@[simp] theorem resetCall_ioCalls : (s.resetCall).ioCalls = s.ioCalls := rfl
@[simp] theorem resetCall_log : (s.resetCall).log = s.log := rfl

end Sys2Proof.Machine
end

