-- ==== Sys2Proof/Laws/Registers.lean ====
section
/-! SUPPORT. What the register operations write: general registers, the delay buffer, the system-control bank, exception
entry. One spec lemma for each operation, cited instead of unfolding it. -/

namespace Sys2Proof.Machine

variable (s : State)

/-! ### Vectors indexed by a 5-bit number -/

theorem vector_get_set (v : Vector Word 32) (i j : Reg) (x : Word) :
    (v.set i.toNat x)[j.toNat] = if j = i then x else v[j.toNat] := by
  rw [Vector.getElem_set]
  by_cases h : j = i
  · subst h; simp
  · have : i.toNat ≠ j.toNat := fun e => h (BitVec.eq_of_toNat_eq e.symm)
    simp [h, this]

/-! ### General registers -/

/-- Register 0 reads 0 (10_state.md R11). -/
@[simp] theorem reg_zero : s.reg 0#5 = 0#32 := rfl

/-- A register read depends on the register file alone. -/
theorem reg_congr {s t : State} (h : t.gpr = s.gpr) (r : Reg) : t.reg r = s.reg r := by
  simp [State.reg, h]

/-- A plain register-file write, read back. -/
theorem reg_setReg (i r : Reg) (v : Word) :
    (s.setReg i v).reg r = if r = i ∧ i ≠ 0#5 then v else s.reg r := by
  unfold State.reg State.setReg
  by_cases hr : r = 0#5
  · subst hr
    by_cases hi : (0#5 : Reg) = i
    · simp [← hi]
    · simp [hi]
  · by_cases hi : i = 0#5
    · subst hi; simp [hr]
    · simp only [hr, hi, if_false, vector_get_set]
      by_cases h : r = i <;> simp [h, hi]

/-- An immediate register write, read back: the precedence parameter does not matter to the register (R108). -/
theorem reg_writeReg (i r : Reg) (v : Word) :
    (s.writeReg i v).reg r = if r = i ∧ i ≠ 0#5 then v else s.reg r := by
  unfold State.writeReg
  by_cases hi : i = 0#5
  · simp [hi]
  · have h : ∀ t : State, (t.cancelCommit i).reg r = t.reg r := fun t => reg_congr rfl r
    split <;> [skip; split]
    · contradiction
    · rw [h, reg_setReg]
    · rw [reg_setReg]

@[simp] theorem reg_c0Set (n r : Reg) (v : Word) : (s.c0Set n v).reg r = s.reg r := rfl
@[simp] theorem reg_cancelCommit (i r : Reg) : (s.cancelCommit i).reg r = s.reg r := rfl
@[simp] theorem reg_armReg (i r : Reg) (v : Word) : (s.armReg i v).reg r = s.reg r := reg_congr (by simp) r
@[simp] theorem reg_jumpTo (a : Word) (r : Reg) : (s.jumpTo a).reg r = s.reg r := rfl
@[simp] theorem reg_branchIf (c : Bool) (imm : Half) (r : Reg) : (s.branchIf c imm).reg r = s.reg r := reg_congr (by simp) r
@[simp] theorem reg_raise (e : Exc) (r : Reg) : (s.raise e).reg r = s.reg r := reg_congr (by simp) r
@[simp] theorem reg_enter (e : Exc) (a : Word) (bd : Bool) (r : Reg) : (s.enter e a bd).reg r = s.reg r := reg_congr (by simp) r
@[simp] theorem reg_logEvent (e : LogEvent) (r : Reg) : (s.logEvent e).reg r = s.reg r := rfl
@[simp] theorem reg_memRead (a : Word) (w : Width) (r : Reg) : (s.memRead a w).state.reg r = s.reg r := reg_congr (by simp) r
@[simp] theorem reg_memWrite (a : Word) (w : Width) (v : Word) (r : Reg) : (s.memWrite a w v).state.reg r = s.reg r :=
  reg_congr (by simp) r
@[simp] theorem reg_advance (r : Reg) : s.advance.reg r = s.reg r := rfl
@[simp] theorem reg_pollInput (r : Reg) : s.pollInput.reg r = s.reg r := reg_congr (by simp) r
@[simp] theorem reg_popModeStack (r : Reg) : s.popModeStack.reg r = s.reg r := rfl

/-! ### The delay buffer -/

/-- A slot pends on a register exactly when it holds a write to it. -/
theorem pendsOn_iff (slot : Option Pending) (i : Reg) :
    pendsOn slot i = true ↔ ∃ v, slot = some ⟨i, v⟩ := by
  cases slot with
  | none => simp [pendsOn]
  | some p =>
    obtain ⟨r, v⟩ := p
    simp only [pendsOn, beq_iff_eq, Option.some.injEq, Pending.mk.injEq]
    constructor
    · rintro rfl; exact ⟨v, rfl, rfl⟩
    · rintro ⟨_, rfl, _⟩; rfl

@[simp] theorem pendsOn_none (i : Reg) : pendsOn none i = false := rfl
@[simp] theorem pendsOn_some (r i : Reg) (v : Word) : pendsOn (some ⟨r, v⟩) i = (r == i) := rfl

/-- What an immediate write does to `ld_commit` (R108). -/
theorem ldCommit_writeReg (i : Reg) (v : Word) :
    (s.writeReg i v).ldCommit =
      if i ≠ 0#5 ∧ pendsOn s.ldCommit i = true ∧ s.params.precedence = .directWriteCancels then none
      else s.ldCommit := by
  unfold State.writeReg
  by_cases hi : i = 0#5
  · simp [hi]
  · by_cases hq : pendsOn s.ldCommit i = true <;>
      cases hp : s.params.precedence <;> simp [hi, hq, State.cancelCommit]

/-- What a deferred write does to `ld_armed` (R109). -/
theorem ldArmed_armReg (i : Reg) (v : Word) :
    (s.armReg i v).ldArmed = if i = 0#5 then s.ldArmed else some ⟨i, v⟩ := by
  unfold State.armReg; split <;> rfl

/-- What a deferred write does to `ld_commit` (R109). -/
theorem ldCommit_armReg (i : Reg) (v : Word) :
    (s.armReg i v).ldCommit = if i ≠ 0#5 ∧ pendsOn s.ldCommit i = true then none else s.ldCommit := by
  unfold State.armReg
  by_cases hi : i = 0#5
  · simp [hi]
  · by_cases hq : pendsOn s.ldCommit i = true <;> simp [hi, hq, State.cancelCommit]

/-- Phase 1, read back (40_execution_cycle.md R102). -/
theorem reg_commitPending (r : Reg) :
    s.commitPending.reg r =
      match s.ldCommit with
      | some p => if r = p.reg ∧ p.reg ≠ 0#5 then p.value else s.reg r
      | none => s.reg r := by
  unfold State.commitPending
  cases s.ldCommit with
  | none => rfl
  | some p => exact (reg_congr rfl r).trans (reg_setReg s p.reg r p.value)

/-- Phases 0 to 2: the register file is as phase 1 leaves it. -/
theorem reg_beginStep (r : Reg) : s.beginStep.reg r = s.ageMarker.commitPending.reg r := rfl

@[simp] theorem commitPending_ldCommit : s.commitPending.ldCommit = none := by
  unfold State.commitPending; split
  · rfl
  · assumption
@[simp] theorem beginStep_ldCommit : s.beginStep.ldCommit = s.ldArmed := by simp [State.beginStep, State.ageBuffer]
@[simp] theorem beginStep_ldArmed : s.beginStep.ldArmed = none := rfl
@[simp] theorem beginStep_dsCur : s.beginStep.dsCur = s.dsNext := by simp [State.beginStep, State.ageMarker]
@[simp] theorem beginStep_dsNext : s.beginStep.dsNext = false := by simp [State.beginStep, State.ageMarker]
@[simp] theorem advance_pc : s.advance.pc = s.npc := rfl
@[simp] theorem advance_npc : s.advance.npc = s.npc + 4#32 := rfl
@[simp] theorem jumpTo_npc (a : Word) : (s.jumpTo a).npc = a := rfl
@[simp] theorem jumpTo_dsNext (a : Word) : (s.jumpTo a).dsNext = true := rfl
theorem branchIf_npc (c : Bool) (imm : Half) :
    (s.branchIf c imm).npc = if c then s.branchTarget imm else s.npc := by cases c <;> rfl
theorem branchIf_dsNext (c : Bool) (imm : Half) : (s.branchIf c imm).dsNext = (c || s.dsNext) := by cases c <;> rfl

/-! ### The system-control bank -/

/-- A raw write of a system-control register, read back (10_state.md R21). -/
theorem c0Get_c0Set (n m : Reg) (v : Word) :
    (s.c0Set n v).c0Get m = if m = n then v else s.c0Get m := vector_get_set s.c0 n m v

/-- A read of the bank depends on the bank alone. -/
theorem c0Get_congr {s t : State} (h : t.c0 = s.c0) (n : Reg) : t.c0Get n = s.c0Get n := by
  simp [State.c0Get, h]

@[simp] theorem c0Get_setReg (i n : Reg) (v : Word) : (s.setReg i v).c0Get n = s.c0Get n := rfl
@[simp] theorem c0Get_writeReg (i n : Reg) (v : Word) : (s.writeReg i v).c0Get n = s.c0Get n := c0Get_congr (by simp) n
@[simp] theorem c0Get_armReg (i n : Reg) (v : Word) : (s.armReg i v).c0Get n = s.c0Get n := c0Get_congr (by simp) n
@[simp] theorem c0Get_jumpTo (a : Word) (n : Reg) : (s.jumpTo a).c0Get n = s.c0Get n := rfl
@[simp] theorem c0Get_branchIf (c : Bool) (imm : Half) (n : Reg) : (s.branchIf c imm).c0Get n = s.c0Get n :=
  c0Get_congr (by simp) n
@[simp] theorem c0Get_logEvent (e : LogEvent) (n : Reg) : (s.logEvent e).c0Get n = s.c0Get n := rfl
@[simp] theorem c0Get_memRead (a : Word) (w : Width) (n : Reg) : (s.memRead a w).state.c0Get n = s.c0Get n :=
  c0Get_congr (by simp) n
@[simp] theorem c0Get_memWrite (a : Word) (w : Width) (v : Word) (n : Reg) :
    (s.memWrite a w v).state.c0Get n = s.c0Get n := c0Get_congr (by simp) n
@[simp] theorem c0Get_memFetch (a : Word) (n : Reg) : (s.memFetch a).state.c0Get n = s.c0Get n := c0Get_congr (by simp) n
@[simp] theorem c0Get_beginStep (n : Reg) : s.beginStep.c0Get n = s.c0Get n := c0Get_congr (by simp) n
@[simp] theorem c0Get_advance (n : Reg) : s.advance.c0Get n = s.c0Get n := rfl

/-- Recording a bad address, read back (60_exceptions.md R241). -/
theorem c0Get_recordBad (e : Exc) (n : Reg) :
    (e.recordBad s).c0Get n =
      match e with
      | .adEL bad => if n = badVAddrNum then bad else s.c0Get n
      | .adES bad => if n = badVAddrNum then bad else s.c0Get n
      | _ => s.c0Get n := by
  cases e <;> first | rfl | exact c0Get_c0Set s badVAddrNum n _

/-! ### Exception entry (60_exceptions.md R240) -/

@[simp] theorem enter_pc (e : Exc) (a : Word) (bd : Bool) : (s.enter e a bd).pc = vector s.params s.sr := rfl
@[simp] theorem enter_npc (e : Exc) (a : Word) (bd : Bool) : (s.enter e a bd).npc = vector s.params s.sr + 4#32 := rfl

/-- Every system-control register after entry: the four that entry may write, and all others as before. -/
theorem c0Get_enter (e : Exc) (a : Word) (bd : Bool) (n : Reg) :
    (s.enter e a bd).c0Get n =
      if n = srNum then pushModes s.sr
      else if n = causeNum then e.causeAfter bd s.cause
      else if n = epcNum then savedPc a bd
      else if n = badVAddrNum then
        match e with
        | .adEL bad => bad
        | .adES bad => bad
        | _ => s.badVAddr
      else s.c0Get n := by
  have hc : (s.enter e a bd).c0Get n =
      (e.recordBad (((s.c0Set srNum (pushModes s.sr)).c0Set causeNum (e.causeAfter bd s.cause)).c0Set epcNum
        (savedPc a bd))).c0Get n := rfl
  have hs : srNum ≠ causeNum ∧ srNum ≠ epcNum ∧ srNum ≠ badVAddrNum ∧ causeNum ≠ epcNum ∧ causeNum ≠ badVAddrNum ∧
      epcNum ≠ badVAddrNum := by decide
  obtain ⟨h1, h2, h3, h4, h5, h6⟩ := hs
  rw [hc, c0Get_recordBad]
  by_cases a1 : n = srNum
  · subst a1; cases e <;> simp [c0Get_c0Set, h1, h2, h3]
  by_cases a2 : n = causeNum
  · subst a2; cases e <;> simp [c0Get_c0Set, h4, h5, h1.symm]
  by_cases a3 : n = epcNum
  · subst a3; cases e <;> simp [c0Get_c0Set, h6, h2.symm, h4.symm]
  by_cases a4 : n = badVAddrNum
  · subst a4; cases e <;> simp [c0Get_c0Set, h3.symm, h5.symm, h6.symm, State.badVAddr]
  · cases e <;> simp [c0Get_c0Set, a1, a2, a3, a4]

/-- `SR` after entry. -/
@[simp] theorem enter_sr (e : Exc) (a : Word) (bd : Bool) : (s.enter e a bd).sr = pushModes s.sr := by
  simp [State.sr, c0Get_enter]

/-- `CAUSE` after entry. -/
@[simp] theorem enter_cause (e : Exc) (a : Word) (bd : Bool) : (s.enter e a bd).cause = e.causeAfter bd s.cause :=
  (c0Get_enter s e a bd causeNum).trans (by rw [if_neg (by decide), if_pos rfl])

/-- `EPC` after entry. -/
@[simp] theorem enter_epc (e : Exc) (a : Word) (bd : Bool) : (s.enter e a bd).epc = savedPc a bd :=
  (c0Get_enter s e a bd epcNum).trans (by rw [if_neg (by decide), if_neg (by decide), if_pos rfl])

end Sys2Proof.Machine
end

