-- ==== Sys2Proof/Laws/Bus.lean ====
section
/-! SUPPORT. Who answers an access, and what each answer does: one lemma for each target of `memRead`, `memWrite` and
`memFetch`; the calls on a handler; what the bus keeps of the invariant. -/

namespace Sys2Proof.Machine

variable (s : State)

/-! ### Routing (20_memory.md R42 to R47) -/

theorem handled_iff (p : Config.Params) (a : Nat) :
    handled p a = true ↔ ∃ r ∈ p.ioMap, r.first ≤ a ∧ a < r.first + r.size := by
  simp [handled, Config.IoRange.covers]

/-- The five regions. -/
theorem region_eq (p : Nat) :
    region s.params p =
      if p < 0x200000 then .main
      else if s.params.scratchBase ≤ p ∧ p < s.params.scratchBase + 0x400 then .scratch
      else if s.params.ioBase ≤ p ∧ p < s.params.ioBase + 0x1000 then .io
      else if s.params.fwBase ≤ p ∧ p < s.params.fwBase + 0x80000 then .firmware
      else .unmapped := by
  have h : ∀ b n : Nat, within p b n = decide (b ≤ p ∧ p < b + n) := fun b n => by simp [within]
  simp only [region, h, Config.ramBase, Config.ramSize, Config.scratchSize, Config.ioSize, Config.fwSize,
    decide_eq_true_eq, Nat.zero_le, true_and, Nat.zero_add]

/-- Where an access goes, whatever the configuration: exactly one target answers. -/
theorem target_cases (p : Nat) :
    (target s.params p = .storage ∧ (InMain p ∨ InScratch s p)) ∨ (target s.params p = .firmware ∧ InFirmware s p) ∨
      (target s.params p = .handler ∧ Handled s p) ∨ (target s.params p = .nobody ∧ ¬ InMain p ∧ ¬ InScratch s p) := by
  unfold Handled InMain InScratch InFirmware InIo
  rw [← handled_iff]
  unfold target
  rw [region_eq]
  split_ifs <;> simp_all

/-- The memories that are read and written come first in the decode. -/
theorem target_storage {p : Nat} (h : InMain p ∨ InScratch s p) : target s.params p = .storage := by
  unfold InMain InScratch at h
  unfold target
  rw [region_eq]
  split_ifs <;> simp_all

theorem target_nobody {p : Nat} (h : Unclaimed s p) : target s.params p = .nobody := by
  rcases target_cases s p with ⟨_, h'⟩ | ⟨_, h'⟩ | ⟨_, h'⟩ | ⟨h', _⟩
  · exact absurd h' (by simp [h.1, h.2.1])
  · exact absurd h' h.2.2.1
  · exact absurd h' h.2.2.2
  · exact h'

/-- In an ordered map firmware and the I/O window overlap nothing that comes before them. -/
theorem target_firmware (ho : MapOrdered s) {p : Nat} (h : InFirmware s p) : target s.params p = .firmware := by
  unfold MapOrdered at ho
  unfold InFirmware at h
  unfold target
  rw [region_eq, if_neg (by omega), if_neg (by omega), if_neg (by omega), if_pos h]

theorem target_handler (ho : MapOrdered s) {p : Nat} (h : Handled s p) : target s.params p = .handler := by
  obtain ⟨hi, hh⟩ := h
  unfold MapOrdered at ho
  unfold InIo at hi
  unfold target
  rw [region_eq, if_neg (by omega), if_neg (by omega), if_pos hi]
  simp only [(handled_iff _ _).2 hh, if_true]

/-- A memory of the core: storage or firmware. -/
theorem target_memory (ho : MapOrdered s) {p : Nat} (h : InMain p ∨ InScratch s p ∨ InFirmware s p) :
    target s.params p = .storage ∨ target s.params p = .firmware :=
  (or_assoc.2 h).imp (target_storage s) (target_firmware s ho)

/-- Well-formed parameters have an ordered map. -/
theorem mapOrdered_of_wellFormed (h : s.params.wellFormed = true) : MapOrdered s := by
  simp only [Config.Params.wellFormed, Config.Params.mapWellFormed, Bool.and_eq_true, decide_eq_true_eq] at h
  obtain ⟨⟨⟨⟨⟨⟨⟨⟨⟨h1, h2⟩, h3⟩, h4⟩, h5⟩, h6⟩, h7⟩, _⟩, _⟩, _⟩ := h
  exact ⟨h1, h2, h3, h4, h5, h6, h7⟩

/-- Routing depends on the parameters alone. -/
theorem mapOrdered_congr {s t : State} (h : t.params = s.params) : MapOrdered t ↔ MapOrdered s := by
  simp [MapOrdered, h]

theorem inScratch_congr {s t : State} (h : t.params = s.params) (p : Nat) : InScratch t p ↔ InScratch s p := by
  simp [InScratch, h]

theorem inFirmware_congr {s t : State} (h : t.params = s.params) (p : Nat) : InFirmware t p ↔ InFirmware s p := by
  simp [InFirmware, h]

theorem handled_congr {s t : State} (h : t.params = s.params) (p : Nat) : Handled t p ↔ Handled s p := by
  simp [Handled, InIo, h]

theorem unclaimed_congr {s t : State} (h : t.params = s.params) (p : Nat) : Unclaimed t p ↔ Unclaimed s p := by
  simp [Unclaimed, handled_congr h, inScratch_congr h, inFirmware_congr h]

/-! ### Values -/

/-- A multi-byte read is the little-endian value of its bytes (20_memory.md R48). -/
theorem readLE_eq_leValue (n : Nat) : ∀ (m : Memory) (a : Nat), m.readLE a n = BitVec.ofNat 32 (leValue m a n) := by
  induction n with
  | zero => intro _ _; rfl
  | succ n ih =>
    intro m a
    rw [Memory.readLE, ih, leValue, BitVec.ofNat_add, Nat.mul_comm, BitVec.ofNat_mul]
    have h : BitVec.ofNat 32 (leValue m (a + 1) n) * BitVec.ofNat 32 256 = BitVec.ofNat 32 (leValue m (a + 1) n) <<< 8 := by
      rw [BitVec.shiftLeft_eq_mul_twoPow]; rfl
    rw [h, BitVec.add_comm, ← BitVec.add_eq_or_of_and_eq_zero]
    · congr 1
      apply BitVec.eq_of_toNat_eq
      simp
    · apply BitVec.eq_of_getLsbD_eq
      intro i hi
      simp only [BitVec.getLsbD_and, BitVec.getLsbD_shiftLeft, BitVec.getLsbD_setWidth, BitVec.getLsbD_zero]
      by_cases h8 : i < 8
      · simp [h8]
      · rw [BitVec.getLsbD_of_ge _ i (by omega)]; simp

/-! ### A bus read (20_memory.md R52) -/

theorem memRead_storage {a : Word} (w : Width) (h : target s.params (physical a) = .storage) :
    s.memRead a w = ⟨some (s.mem.readLE (physical a) w.bytes), s⟩ := by
  simp only [State.memRead, ← physical_eq_translateAddr, h]

theorem memRead_firmware {a : Word} (w : Width) (h : target s.params (physical a) = .firmware) :
    s.memRead a w = ⟨some (s.mem.readLE (physical a) w.bytes), s⟩ := by
  simp only [State.memRead, ← physical_eq_translateAddr, h]

theorem memRead_nobody {a : Word} (w : Width) (h : target s.params (physical a) = .nobody) :
    s.memRead a w = ⟨some 0#32, s.logEvent (.unmappedRead a w.bytes)⟩ := by
  simp only [State.memRead, ← physical_eq_translateAddr, h]

theorem memRead_handler {a : Word} (w : Width) (h : target s.params (physical a) = .handler) :
    s.memRead a w = s.readHandler a w := by
  simp only [State.memRead, ← physical_eq_translateAddr, h]

theorem readHandler_value {a v : Word} (w : Width) (h : s.nextReply = .value v) :
    s.readHandler a w = ⟨some (w.truncate v), s.callHandler (.read w.bits (physical a) (segmentOf a))⟩ := by
  simp only [State.readHandler, h, physical_eq_translateAddr]

theorem readHandler_fault {a : Word} (w : Width) (h : s.nextReply = .fault) :
    s.readHandler a w = ⟨none, s.callHandler (.read w.bits (physical a) (segmentOf a))⟩ := by
  simp only [State.readHandler, h, physical_eq_translateAddr]

/-! ### A bus write (20_memory.md R53) -/

theorem memWrite_storage {a : Word} (w : Width) (v : Word) (h : target s.params (physical a) = .storage) :
    s.memWrite a w v = ⟨true, { s with mem := s.mem.writeLE (physical a) w.bytes v }⟩ := by
  simp only [State.memWrite, ← physical_eq_translateAddr, h]

theorem memWrite_firmware {a : Word} (w : Width) (v : Word) (h : target s.params (physical a) = .firmware) :
    s.memWrite a w v = ⟨true, s.logEvent (.firmwareWrite a w.bytes (w.truncate v))⟩ := by
  simp only [State.memWrite, ← physical_eq_translateAddr, h]

theorem memWrite_nobody {a : Word} (w : Width) (v : Word) (h : target s.params (physical a) = .nobody) :
    s.memWrite a w v = ⟨true, s.logEvent (.unmappedWrite a w.bytes (w.truncate v))⟩ := by
  simp only [State.memWrite, ← physical_eq_translateAddr, h]

theorem memWrite_handler_value {a u : Word} (w : Width) (v : Word) (h : target s.params (physical a) = .handler)
    (hr : s.nextReply = .value u) :
    s.memWrite a w v = ⟨true, s.callHandler (.write w.bits (physical a) (segmentOf a) (w.truncate v))⟩ := by
  simp only [State.memWrite, ← physical_eq_translateAddr, h, hr]

theorem memWrite_handler_fault {a : Word} (w : Width) (v : Word) (h : target s.params (physical a) = .handler)
    (hr : s.nextReply = .fault) :
    s.memWrite a w v = ⟨false, s.callHandler (.write w.bits (physical a) (segmentOf a) (w.truncate v))⟩ := by
  simp only [State.memWrite, ← physical_eq_translateAddr, h, hr]

/-! ### A fetch (20_memory.md R54) -/

theorem memFetch_storage {a : Word} (h : target s.params (physical a) = .storage) :
    s.memFetch a = ⟨some (s.mem.readLE (physical a) 4), s⟩ := by
  simp only [State.memFetch, ← physical_eq_translateAddr, h]

theorem memFetch_firmware {a : Word} (h : target s.params (physical a) = .firmware) :
    s.memFetch a = ⟨some (s.mem.readLE (physical a) 4), s⟩ := by
  simp only [State.memFetch, ← physical_eq_translateAddr, h]

theorem memFetch_nobody {a : Word} (h : target s.params (physical a) = .nobody) : s.memFetch a = ⟨none, s⟩ := by
  simp only [State.memFetch, ← physical_eq_translateAddr, h]

theorem memFetch_handler {a : Word} (h : target s.params (physical a) = .handler) : s.memFetch a = s.readHandler a .word := by
  simp only [State.memFetch, ← physical_eq_translateAddr, h]

/-! ### Calls on a handler -/

/-- One call. -/
theorem calledOnce_callHandler (c : IoCall) : CalledOnce s (s.callHandler c) c := by
  unfold CalledOnce State.callHandler
  cases h : s.ioIn <;> simp

/-- A call changes nothing inside the core. -/
theorem callHandler_core (c : IoCall) :
    s.callHandler c = { s with ioIn := (s.callHandler c).ioIn, ioDraws := (s.callHandler c).ioDraws,
                               ioCalls := s.ioCalls ++ [c] } := by
  unfold State.callHandler
  cases h : s.ioIn <;> simp

/-! ### Every access ends in one of these -/

/-- A bus read changes the log or the exchange with the peripherals, nothing else. -/
theorem memRead_state (a : Word) (w : Width) :
    (s.memRead a w).state = s ∨ (∃ e, (s.memRead a w).state = s.logEvent e) ∨
      ∃ c, (s.memRead a w).state = s.callHandler c := by
  unfold State.memRead State.readHandler
  repeat' split
  all_goals simp

theorem memFetch_state (a : Word) :
    (s.memFetch a).state = s ∨ ∃ c, (s.memFetch a).state = s.callHandler c := by
  unfold State.memFetch State.readHandler
  repeat' split
  all_goals simp

/-- The memory after a bus write: written in main and scratch memory, else as before. -/
theorem memWrite_mem_cases (a : Word) (w : Width) (v : Word) :
    ((InMain (physical a) ∨ InScratch s (physical a)) ∧
      (s.memWrite a w v).state.mem = s.mem.writeLE (physical a) w.bytes v) ∨
    (¬ (InMain (physical a) ∨ InScratch s (physical a)) ∧ (s.memWrite a w v).state.mem = s.mem) := by
  by_cases hp : InMain (physical a) ∨ InScratch s (physical a)
  · exact .inl ⟨hp, by rw [memWrite_storage s w v (target_storage s hp)]⟩
  refine .inr ⟨hp, ?_⟩
  rcases target_cases s (physical a) with ⟨_, h⟩ | ⟨h, _⟩ | ⟨h, _⟩ | ⟨h, _⟩
  · exact absurd h hp
  · rw [memWrite_firmware s w v h]; rfl
  · cases hr : s.nextReply with
    | value u => rw [memWrite_handler_value s w v h hr]; simp
    | fault => rw [memWrite_handler_fault s w v h hr]; simp
  · rw [memWrite_nobody s w v h]; rfl

/-! ### What a bus write keeps of the invariant -/

/-- A bus write keeps the canonical form. -/
theorem memWrite_wf (a : Word) (w : Width) (v : Word) (h : s.mem.wf = true) :
    (s.memWrite a w v).state.mem.wf = true := by
  rcases memWrite_mem_cases s a w v with ⟨_, e⟩ | ⟨_, e⟩ <;> rw [e]
  · exact Memory.wf_writeLE _ _ _ h
  · exact h

/-- An aligned bus write lists addresses of the memories only. -/
theorem memWrite_place (a : Word) (w : Width) (v : Word) (ha : w.aligned a = true) (ho : MapOrdered s)
    (h : ∀ c ∈ s.mem, InMain c.1 ∨ InScratch s c.1 ∨ InFirmware s c.1) :
    ∀ c ∈ (s.memWrite a w v).state.mem, InMain c.1 ∨ InScratch s c.1 ∨ InFirmware s c.1 := by
  rcases memWrite_mem_cases s a w v with ⟨hp, e⟩ | ⟨_, e⟩ <;> rw [e]
  · intro c hc
    rcases Memory.mem_writeLE _ hc with hc | ⟨h1, h2⟩
    · exact h c hc
    · rw [aligned_iff] at ha
      have hd : physical a % w.bytes = 0 := by
        rw [physical_eq_translateAddr, translateAddr_eq]
        cases w <;> simp only [Width.bytes] at ha ⊢ <;> omega
      rcases hp with hp | hp
      · left; simp only [InMain] at *
        cases w <;> simp only [Width.bytes] at * <;> omega
      · right; left; simp only [InScratch, MapOrdered] at *
        cases w <;> simp only [Width.bytes] at * <;> omega
  · exact h

end Sys2Proof.Machine
end

