-- ==== Sys2Proof/Laws/Decode.lean ====
section
/-! SUPPORT. The fields of every encoding format, read back (30_encoding.md R71), a word put together again from its
fields, and the bytes of a word. -/

namespace Sys2Proof

/-! ### Bits of the formats -/

theorem getLsbD_encodeR (op : BitVec 6) (rs rt rd : Reg) (sh : BitVec 5) (fn : BitVec 6) (k : Nat) :
    (encodeR op rs rt rd sh fn).getLsbD k =
      if k < 6 then fn.getLsbD k else if k < 11 then sh.getLsbD (k - 6) else if k < 16 then rd.getLsbD (k - 11)
      else if k < 21 then rt.getLsbD (k - 16) else if k < 26 then rs.getLsbD (k - 21) else op.getLsbD (k - 26) := by
  change BitVec.getLsbD (w := 6 + 5 + 5 + 5 + 5 + 6) (op ++ rs ++ rt ++ rd ++ sh ++ fn) k = _
  simp only [BitVec.getLsbD_append, Nat.sub_sub]
  repeat' split
  all_goals first | rfl | omega

theorem getLsbD_encodeI (op : BitVec 6) (rs rt : Reg) (imm : Half) (k : Nat) :
    (encodeI op rs rt imm).getLsbD k =
      if k < 16 then imm.getLsbD k else if k < 21 then rt.getLsbD (k - 16)
      else if k < 26 then rs.getLsbD (k - 21) else op.getLsbD (k - 26) := by
  change BitVec.getLsbD (w := 6 + 5 + 5 + 16) (op ++ rs ++ rt ++ imm) k = _
  simp only [BitVec.getLsbD_append, Nat.sub_sub]
  repeat' split
  all_goals first | rfl | omega

theorem getLsbD_encodeJ (op : BitVec 6) (t : BitVec 26) (k : Nat) :
    (encodeJ op t).getLsbD k = if k < 26 then t.getLsbD k else op.getLsbD (k - 26) := by
  change BitVec.getLsbD (w := 6 + 26) (op ++ t) k = _
  simp only [BitVec.getLsbD_append]

theorem getLsbD_encodeCode (c : BitVec 20) (fn : BitVec 6) (k : Nat) :
    (encodeCode c fn).getLsbD k =
      if k < 6 then fn.getLsbD k else if k < 26 then c.getLsbD (k - 6) else false := by
  change BitVec.getLsbD (w := 6 + 20 + 6) (0x00#6 ++ c ++ fn) k = _
  simp only [BitVec.getLsbD_append, Nat.sub_sub]
  repeat' split
  all_goals first | rfl | omega | simp

/-! ### Fields read back from an encoding -/

section
variable (op : BitVec 6) (rs rt rd : Reg) (sh : BitVec 5) (fn : BitVec 6) (imm : Half) (t : BitVec 26) (c : BitVec 20)

@[simp] theorem fieldOp_encodeR : fieldOp (encodeR op rs rt rd sh fn) = op := by
  apply BitVec.eq_of_getLsbD_eq; intro i hi
  rw [fieldOp, BitVec.getLsbD_extractLsb', getLsbD_encodeR]
  simp [hi, show ¬ 26 + i < 6 by omega, show ¬ 26 + i < 11 by omega, show ¬ 26 + i < 16 by omega,
    show ¬ 26 + i < 21 by omega]
@[simp] theorem fieldRs_encodeR : fieldRs (encodeR op rs rt rd sh fn) = rs := by
  apply BitVec.eq_of_getLsbD_eq; intro i hi
  rw [fieldRs, BitVec.getLsbD_extractLsb', getLsbD_encodeR]
  simp [hi, show ¬ 21 + i < 6 by omega, show ¬ 21 + i < 11 by omega, show ¬ 21 + i < 16 by omega,
    show 21 + i < 26 by omega]
@[simp] theorem fieldRt_encodeR : fieldRt (encodeR op rs rt rd sh fn) = rt := by
  apply BitVec.eq_of_getLsbD_eq; intro i hi
  rw [fieldRt, BitVec.getLsbD_extractLsb', getLsbD_encodeR]
  simp [hi, show ¬ 16 + i < 6 by omega, show ¬ 16 + i < 11 by omega, show 16 + i < 21 by omega]
@[simp] theorem fieldRd_encodeR : fieldRd (encodeR op rs rt rd sh fn) = rd := by
  apply BitVec.eq_of_getLsbD_eq; intro i hi
  rw [fieldRd, BitVec.getLsbD_extractLsb', getLsbD_encodeR]
  simp [hi, show ¬ 11 + i < 6 by omega, show 11 + i < 16 by omega]
@[simp] theorem fieldShamt_encodeR : fieldShamt (encodeR op rs rt rd sh fn) = sh := by
  apply BitVec.eq_of_getLsbD_eq; intro i hi
  rw [fieldShamt, BitVec.getLsbD_extractLsb', getLsbD_encodeR]
  simp [hi, show 6 + i < 11 by omega]
@[simp] theorem fieldFunct_encodeR : fieldFunct (encodeR op rs rt rd sh fn) = fn := by
  apply BitVec.eq_of_getLsbD_eq; intro i hi
  rw [fieldFunct, BitVec.getLsbD_extractLsb', getLsbD_encodeR]
  simp [hi]

@[simp] theorem fieldOp_encodeI : fieldOp (encodeI op rs rt imm) = op := by
  apply BitVec.eq_of_getLsbD_eq; intro i hi
  rw [fieldOp, BitVec.getLsbD_extractLsb', getLsbD_encodeI]
  simp [hi, show ¬ 26 + i < 16 by omega, show ¬ 26 + i < 21 by omega]
@[simp] theorem fieldRs_encodeI : fieldRs (encodeI op rs rt imm) = rs := by
  apply BitVec.eq_of_getLsbD_eq; intro i hi
  rw [fieldRs, BitVec.getLsbD_extractLsb', getLsbD_encodeI]
  simp [hi, show ¬ 21 + i < 16 by omega, show 21 + i < 26 by omega]
@[simp] theorem fieldRt_encodeI : fieldRt (encodeI op rs rt imm) = rt := by
  apply BitVec.eq_of_getLsbD_eq; intro i hi
  rw [fieldRt, BitVec.getLsbD_extractLsb', getLsbD_encodeI]
  simp [hi, show 16 + i < 21 by omega]
@[simp] theorem fieldImm_encodeI : fieldImm (encodeI op rs rt imm) = imm := by
  apply BitVec.eq_of_getLsbD_eq; intro i hi
  rw [fieldImm, BitVec.getLsbD_extractLsb', getLsbD_encodeI]
  simp [hi]

@[simp] theorem fieldOp_encodeJ : fieldOp (encodeJ op t) = op := by
  apply BitVec.eq_of_getLsbD_eq; intro i hi
  rw [fieldOp, BitVec.getLsbD_extractLsb', getLsbD_encodeJ]
  simp [hi]
@[simp] theorem fieldTarget_encodeJ : fieldTarget (encodeJ op t) = t := by
  apply BitVec.eq_of_getLsbD_eq; intro i hi
  rw [fieldTarget, BitVec.getLsbD_extractLsb', getLsbD_encodeJ]
  simp [hi]

@[simp] theorem fieldOp_encodeCode : fieldOp (encodeCode c fn) = 0x00#6 := by
  apply BitVec.eq_of_getLsbD_eq; intro i hi
  rw [fieldOp, BitVec.getLsbD_extractLsb', getLsbD_encodeCode]
  simp [show ¬ 26 + i < 6 by omega]
@[simp] theorem fieldFunct_encodeCode : fieldFunct (encodeCode c fn) = fn := by
  apply BitVec.eq_of_getLsbD_eq; intro i hi
  rw [fieldFunct, BitVec.getLsbD_extractLsb', getLsbD_encodeCode]
  simp [hi]
@[simp] theorem fieldCode_encodeCode : fieldCode (encodeCode c fn) = c := by
  apply BitVec.eq_of_getLsbD_eq; intro i hi
  rw [fieldCode, BitVec.getLsbD_extractLsb', getLsbD_encodeCode]
  simp [hi, show 6 + i < 26 by omega]

end

/-! ### A word put together again from its fields -/

/-- Every word is its six R-format fields. -/
theorem encodeR_fields (w : Word) :
    encodeR (fieldOp w) (fieldRs w) (fieldRt w) (fieldRd w) (fieldShamt w) (fieldFunct w) = w := by
  apply BitVec.eq_of_getLsbD_eq; intro i hi
  rw [getLsbD_encodeR]
  simp only [fieldOp, fieldRs, fieldRt, fieldRd, fieldShamt, fieldFunct, BitVec.getLsbD_extractLsb']
  repeat' split
  all_goals rename_i h
  all_goals simp (disch := omega) only [show ∀ a b : Nat, b ≤ a → b + (a - b) = a from fun a b h => by omega,
    Nat.zero_add, h, decide_true, Bool.true_and, decide_eq_true]

/-- Every word is its four I-format fields. -/
theorem encodeI_fields (w : Word) : encodeI (fieldOp w) (fieldRs w) (fieldRt w) (fieldImm w) = w := by
  apply BitVec.eq_of_getLsbD_eq; intro i hi
  rw [getLsbD_encodeI]
  simp only [fieldOp, fieldRs, fieldRt, fieldImm, BitVec.getLsbD_extractLsb']
  repeat' split
  all_goals rename_i h
  all_goals simp (disch := omega) only [show ∀ a b : Nat, b ≤ a → b + (a - b) = a from fun a b h => by omega,
    Nat.zero_add, h, decide_true, Bool.true_and, decide_eq_true]

/-- Every word is its two J-format fields. -/
theorem encodeJ_fields (w : Word) : encodeJ (fieldOp w) (fieldTarget w) = w := by
  apply BitVec.eq_of_getLsbD_eq; intro i hi
  rw [getLsbD_encodeJ]
  simp only [fieldOp, fieldTarget, BitVec.getLsbD_extractLsb']
  repeat' split
  all_goals rename_i h
  all_goals simp (disch := omega) only [show ∀ a b : Nat, b ≤ a → b + (a - b) = a from fun a b h => by omega,
    Nat.zero_add, h, decide_true, Bool.true_and, decide_eq_true]

/-- A word of SPECIAL is its code and function fields. -/
theorem encodeCode_fields (w : Word) (h0 : fieldOp w = 0x00#6) : encodeCode (fieldCode w) (fieldFunct w) = w := by
  apply BitVec.eq_of_getLsbD_eq; intro i hi
  rw [getLsbD_encodeCode]
  simp only [fieldCode, fieldFunct, BitVec.getLsbD_extractLsb']
  repeat' split
  · rename_i h; simp [h]
  · rename_i h1 h2; simp [show i - 6 < 20 by omega, show 6 + (i - 6) = i by omega]
  · have := congrArg (fun v : BitVec 6 => v.getLsbD (i - 26)) h0
    simpa [fieldOp, show i - 26 < 6 by omega, show 26 + (i - 26) = i by omega] using this.symm

/-! ### Masking and changing words, field by field -/

theorem encodeR_and (op op' : BitVec 6) (rs rt rd sh rs' rt' rd' sh' : BitVec 5) (fn fn' : BitVec 6) :
    encodeR op rs rt rd sh fn &&& encodeR op' rs' rt' rd' sh' fn' =
      encodeR (op &&& op') (rs &&& rs') (rt &&& rt') (rd &&& rd') (sh &&& sh') (fn &&& fn') := by
  apply BitVec.eq_of_getLsbD_eq; intro i hi
  rw [BitVec.getLsbD_and]
  simp only [getLsbD_encodeR]
  repeat' split
  all_goals rw [BitVec.getLsbD_and]

theorem encodeI_and (op op' : BitVec 6) (rs rt rs' rt' : BitVec 5) (imm imm' : Half) :
    encodeI op rs rt imm &&& encodeI op' rs' rt' imm' =
      encodeI (op &&& op') (rs &&& rs') (rt &&& rt') (imm &&& imm') := by
  apply BitVec.eq_of_getLsbD_eq; intro i hi
  rw [BitVec.getLsbD_and]
  simp only [getLsbD_encodeI]
  repeat' split
  all_goals rw [BitVec.getLsbD_and]

section
variable (v w : Word)

theorem fieldOp_xor : fieldOp (v ^^^ w) = fieldOp v ^^^ fieldOp w := BitVec.extractLsb'_xor
theorem fieldRs_xor : fieldRs (v ^^^ w) = fieldRs v ^^^ fieldRs w := BitVec.extractLsb'_xor
theorem fieldRt_xor : fieldRt (v ^^^ w) = fieldRt v ^^^ fieldRt w := BitVec.extractLsb'_xor
theorem fieldRd_xor : fieldRd (v ^^^ w) = fieldRd v ^^^ fieldRd w := BitVec.extractLsb'_xor
theorem fieldShamt_xor : fieldShamt (v ^^^ w) = fieldShamt v ^^^ fieldShamt w := BitVec.extractLsb'_xor
theorem fieldFunct_xor : fieldFunct (v ^^^ w) = fieldFunct v ^^^ fieldFunct w := BitVec.extractLsb'_xor
theorem fieldImm_xor : fieldImm (v ^^^ w) = fieldImm v ^^^ fieldImm w := BitVec.extractLsb'_xor
theorem fieldTarget_xor : fieldTarget (v ^^^ w) = fieldTarget v ^^^ fieldTarget w := BitVec.extractLsb'_xor
theorem fieldCode_xor : fieldCode (v ^^^ w) = fieldCode v ^^^ fieldCode w := BitVec.extractLsb'_xor
theorem fieldOp_and : fieldOp (v &&& w) = fieldOp v &&& fieldOp w := BitVec.extractLsb'_and
theorem fieldRs_and : fieldRs (v &&& w) = fieldRs v &&& fieldRs w := BitVec.extractLsb'_and
theorem fieldRt_and : fieldRt (v &&& w) = fieldRt v &&& fieldRt w := BitVec.extractLsb'_and
theorem fieldRd_and : fieldRd (v &&& w) = fieldRd v &&& fieldRd w := BitVec.extractLsb'_and
theorem fieldShamt_and : fieldShamt (v &&& w) = fieldShamt v &&& fieldShamt w := BitVec.extractLsb'_and
theorem fieldFunct_and : fieldFunct (v &&& w) = fieldFunct v &&& fieldFunct w := BitVec.extractLsb'_and
theorem fieldImm_and : fieldImm (v &&& w) = fieldImm v &&& fieldImm w := BitVec.extractLsb'_and
theorem fieldTarget_and : fieldTarget (v &&& w) = fieldTarget v &&& fieldTarget w := BitVec.extractLsb'_and
theorem fieldCode_and : fieldCode (v &&& w) = fieldCode v &&& fieldCode w := BitVec.extractLsb'_and

end

/-! ### Fields as numbers -/

theorem toNat_fieldOp (w : Word) : (fieldOp w).toNat = w.toNat / 2 ^ 26 := by
  simp only [fieldOp, BitVec.extractLsb'_toNat, Nat.shiftRight_eq_div_pow]
  have := w.isLt
  omega

theorem toNat_fieldRs (w : Word) : (fieldRs w).toNat = w.toNat / 2 ^ 21 % 32 := by
  simp only [fieldRs, BitVec.extractLsb'_toNat, Nat.shiftRight_eq_div_pow]

theorem toNat_fieldRt (w : Word) : (fieldRt w).toNat = w.toNat / 2 ^ 16 % 32 := by
  simp only [fieldRt, BitVec.extractLsb'_toNat, Nat.shiftRight_eq_div_pow]

theorem toNat_fieldFunct (w : Word) : (fieldFunct w).toNat = w.toNat % 64 := by
  simp [fieldFunct, BitVec.extractLsb'_toNat]

/-! ### Bytes -/

/-- A word is its bytes in memory order (20_memory.md R48). -/
theorem bytesWord_wordBytes (w : Word) :
    bytesWord (w.extractLsb' 0 8) (w.extractLsb' 8 8) (w.extractLsb' 16 8) (w.extractLsb' 24 8) = w := by
  apply BitVec.eq_of_getLsbD_eq; intro i hi
  change BitVec.getLsbD (w := 8 + 8 + 8 + 8)
    (w.extractLsb' 24 8 ++ w.extractLsb' 16 8 ++ w.extractLsb' 8 8 ++ w.extractLsb' 0 8) i = _
  simp only [BitVec.getLsbD_append, BitVec.getLsbD_extractLsb', Nat.sub_sub]
  repeat' split
  all_goals rename_i h
  all_goals simp (disch := omega) only [show ∀ a b : Nat, b ≤ a → b + (a - b) = a from fun a b h => by omega,
    Nat.zero_add, h, decide_true, Bool.true_and, decide_eq_true]

/-- The decoder on the bytes of a word decodes the word. -/
theorem decodeBytes_wordBytes (w : Word) (rest : List Byte) :
    decodeBytes (wordBytes w ++ rest) =
      match decode w with
      | .instr i => .instr i rest
      | .reserved why => .reserved why rest := by
  cases h : decode w <;> simp [wordBytes, decodeBytes, bytesWord_wordBytes, h]

end Sys2Proof
end

