-- ==== Sys2Proof/Laws/Effects.lean ====
section
/-! SUPPORT. What each shared operation does, once, in the terms of Safety.lean: an immediate write, a deferred write, a
control transfer, exception entry, and the ways a load or a store can end. -/

namespace Sys2Proof.Machine

variable (s : State)

/-! ### Immediate writes (40_execution_cycle.md R108) -/

theorem cancels_iff (rd : Reg) :
    Cancels s rd ↔ rd ≠ 0#5 ∧ pendsOn s.ldCommit rd = true ∧ s.params.precedence = .directWriteCancels := by
  unfold Cancels
  rw [pendsOn_iff]
  tauto

theorem writtenFrom_writeReg (rd : Reg) (v : Word) : WrittenFrom s (s.writeReg rd v) rd v := by
  refine ⟨fun r => reg_writeReg s rd r v, by simp, fun h => ?_, fun h => ?_, ⟨by simp, by simp⟩, fun n => by simp,
    fun a => by simp⟩
  · rw [ldCommit_writeReg, if_pos ((cancels_iff s rd).1 h)]
  · rw [ldCommit_writeReg, if_neg (mt (cancels_iff s rd).2 h)]

theorem sameFlow_writeReg (rd : Reg) (v : Word) : SameFlow s (s.writeReg rd v) := by
  simp [SameFlow, SameMarks]

theorem sameOutside_writeReg (rd : Reg) (v : Word) : SameOutside s (s.writeReg rd v) := by
  simp [SameOutside, SameIo]

/-- An instruction that ends in an immediate write does nothing else. -/
theorem writesNow_of {i : Instr} {s : State} {rd : Reg} {v : Word} (h : exec i s = .next (s.writeReg rd v)) :
    WritesNow i s rd v :=
  ⟨_, h, writtenFrom_writeReg s rd v, sameFlow_writeReg s rd v, sameOutside_writeReg s rd v⟩

/-! ### Deferred writes (40_execution_cycle.md R109) -/

theorem armedFrom_armReg (rt : Reg) (v : Word) : ArmedFrom s (s.armReg rt v) rt v := by
  refine ⟨fun r => by simp, fun h => ⟨by rw [ldArmed_armReg, if_neg h], fun hw => ?_, fun hw => ?_⟩, fun h => ?_,
    ⟨by simp, by simp⟩, fun n => by simp, fun a => by simp, by simp [SameFlow, SameMarks]⟩
  · rw [ldCommit_armReg, if_pos ⟨h, (pendsOn_iff _ _).2 hw⟩]
  · rw [ldCommit_armReg, if_neg]
    rintro ⟨_, hp⟩
    obtain ⟨w, hp⟩ := (pendsOn_iff _ _).1 hp
    exact hw w hp
  · subst h; exact ⟨rfl, rfl⟩

theorem sameOutside_armReg (rt : Reg) (v : Word) : SameOutside s (s.armReg rt v) := by
  simp [SameOutside, SameIo]

/-! ### Control transfer (40_execution_cycle.md R110) -/

theorem transferFrom_jumpTo (a : Word) : TransferFrom s (s.jumpTo a) a := by
  simp [TransferFrom, SameOutside, SameIo]

/-! ### Exceptions (60_exceptions.md R240) -/

theorem sr_bit_pushModes (k : Nat) (hk : k < 32) :
    (pushModes s.sr).getLsbD k =
      if k < 2 then false else if k < 6 then s.sr.getLsbD (k - 2) else s.sr.getLsbD k :=
  getLsbD_pushModes s.sr k hk

theorem enteredFrom_enter (e : Exc) (a : Word) (bd : Bool) : EnteredFrom s (s.enter e a bd) e a bd := by
  refine ⟨rfl, rfl, fun k hk => ?_, fun k hk => ?_, ?_, ?_, fun n h1 h2 h3 h4 => ?_, fun r => by simp,
    ⟨by simp, by simp⟩, ⟨by simp, by simp⟩, fun p => by simp, by simp [SameMarks]⟩
  · rw [enter_sr]; exact getLsbD_pushModes s.sr k hk
  · rw [enter_cause]; exact getLsbD_causeAfter s e bd k hk
  · exact enter_epc s e a bd
  · exact (c0Get_enter s e a bd badVAddrNum).trans (by cases e <;> rfl)
  · rw [c0Get_enter, if_neg (show n ≠ srNum from h2), if_neg (show n ≠ causeNum from h3),
      if_neg (show n ≠ epcNum from h4), if_neg (show n ≠ badVAddrNum from h1)]

theorem sameOutside_enter (e : Exc) (a : Word) (bd : Bool) : SameOutside s (s.enter e a bd) := by
  simp [SameOutside, SameIo]

theorem enteredFrom_raise (e : Exc) : EnteredFrom s (s.raise e) e s.curPc s.dsCur := enteredFrom_enter s e _ _

theorem sameOutside_raise (e : Exc) : SameOutside s (s.raise e) := sameOutside_enter s e _ _

/-- An instruction that ends in an exception does nothing else. -/
theorem raises_of {i : Instr} {s : State} {e : Exc} (h : exec i s = .next (s.raise e)) : Raises i s e :=
  ⟨_, h, enteredFrom_raise s e, sameOutside_raise s e⟩

/-! ### What happens outside the core does not matter inside -/

/-- Two states that agree on everything the core holds and on the parameters. -/
structure SameInside (s t : State) : Prop where
  gpr : t.gpr = s.gpr
  pc : t.pc = s.pc
  npc : t.npc = s.npc
  curPc : t.curPc = s.curPc
  hi : t.hi = s.hi
  lo : t.lo = s.lo
  ldArmed : t.ldArmed = s.ldArmed
  ldCommit : t.ldCommit = s.ldCommit
  dsCur : t.dsCur = s.dsCur
  dsNext : t.dsNext = s.dsNext
  c0 : t.c0 = s.c0
  mem : t.mem = s.mem
  params : t.params = s.params
  irqIn : t.irqIn = s.irqIn

theorem SameInside.refl (s : State) : SameInside s s := by constructor <;> rfl

theorem sameInside_logEvent (e : LogEvent) : SameInside s (s.logEvent e) := by constructor <;> rfl

theorem sameInside_callHandler (c : IoCall) : SameInside s (s.callHandler c) := by constructor <;> simp

theorem SameInside.trans {s t u : State} (h : SameInside s t) (k : SameInside t u) : SameInside s u :=
  ⟨k.gpr.trans h.gpr, k.pc.trans h.pc, k.npc.trans h.npc, k.curPc.trans h.curPc, k.hi.trans h.hi, k.lo.trans h.lo,
    k.ldArmed.trans h.ldArmed, k.ldCommit.trans h.ldCommit, k.dsCur.trans h.dsCur, k.dsNext.trans h.dsNext,
    k.c0.trans h.c0, k.mem.trans h.mem, k.params.trans h.params, k.irqIn.trans h.irqIn⟩

/-- A bus read changes nothing inside. -/
theorem sameInside_memRead (a : Word) (w : Width) : SameInside s (s.memRead a w).state := by
  constructor <;> simp

/-- A fetch changes nothing inside. -/
theorem sameInside_memFetch (a : Word) : SameInside s (s.memFetch a).state := by
  constructor <;> simp

/-- A deferred write after a change outside. -/
theorem SameInside.armedFrom {s u t : State} {rt : Reg} {v : Word} (h : SameInside s u) (k : ArmedFrom u t rt v) :
    ArmedFrom s t rt v := by
  obtain ⟨k1, k2, k3, k4, k5, k6, k7⟩ := k
  refine ⟨fun r => (k1 r).trans (reg_congr h.gpr r), ?_, ?_, ?_, fun n => (k5 n).trans (c0Get_congr h.c0 n), ?_, ?_⟩
  · rw [h.ldCommit] at k2; exact k2
  · intro hr; have := k3 hr; rw [SameBuffer, h.ldArmed, h.ldCommit] at this; exact this
  · rw [SameAcc, h.hi, h.lo] at k4; exact k4
  · intro a; rw [k6 a, h.mem]
  · rw [SameFlow, SameMarks, h.pc, h.npc, h.curPc, h.dsCur, h.dsNext] at k7; exact k7

/-- Exception entry after a change outside. -/
theorem SameInside.enteredFrom {s u t : State} {e : Exc} {a : Word} {bd : Bool} (h : SameInside s u)
    (k : EnteredFrom u t e a bd) : EnteredFrom s t e a bd := by
  have hc : ∀ n, u.c0Get n = s.c0Get n := c0Get_congr h.c0
  have h1 : u.sr = s.sr := hc _
  have h2 : u.cause = s.cause := hc _
  have h3 : u.badVAddr = s.badVAddr := hc _
  obtain ⟨k1, k2, k3, k4, k5, k6, k7, k8, k9, k10, k11, k12⟩ := k
  refine ⟨?_, k2, ?_, ?_, k5, ?_, fun n a b c d => (k7 n a b c d).trans (hc n), fun r => (k8 r).trans (reg_congr h.gpr r),
    ?_, ?_, ?_, ?_⟩
  · rw [h1, h.params] at k1; exact k1
  · rw [h1] at k3; exact k3
  · intro k hk; rw [k4 k hk]; simp only [causeBitAfter, h2]
  · rw [h3] at k6; exact k6
  · rw [SameAcc, h.hi, h.lo] at k9; exact k9
  · rw [SameBuffer, h.ldArmed, h.ldCommit] at k10; exact k10
  · intro a; rw [k11 a, h.mem]
  · rw [SameMarks, h.curPc, h.dsCur, h.dsNext] at k12; exact k12

/-- Raising after a change outside. -/
theorem SameInside.raise {s u : State} (h : SameInside s u) (e : Exc) : EnteredFrom s (u.raise e) e s.curPc s.dsCur := by
  have := h.enteredFrom (enteredFrom_raise u e)
  rwa [h.curPc, h.dsCur] at this

/-- Scheduling after a change outside. -/
theorem SameInside.arm {s u : State} (h : SameInside s u) (rt : Reg) (v : Word) : ArmedFrom s (u.armReg rt v) rt v :=
  h.armedFrom (armedFrom_armReg u rt v)

/-! ### How a load ends (47_load_store.md R180) -/

/-- The end of a load: scheduled with what was read, or a data bus error. -/
theorem deliver_some {r : BusRead} {v : Word} (h : r.value = some v) (rt : Reg) (f : Word → Word) :
    r.deliver rt f = r.state.armReg rt (f v) := by
  simp only [BusRead.deliver, h]

theorem deliver_none {r : BusRead} (h : r.value = none) (rt : Reg) (f : Word → Word) :
    r.deliver rt f = r.state.raise .dbe := by
  simp only [BusRead.deliver, h]

theorem load_aligned (w : Width) (f : Word → Word) (rt rs : Reg) (imm : Half) (h : (s.ea rs imm).toNat % w.bytes = 0) :
    s.load w f rt imm rs = (s.memRead (s.ea rs imm) w).deliver rt f := by
  rw [State.load, if_pos ((aligned_iff w _).2 h)]

theorem load_misaligned (w : Width) (f : Word → Word) (rt rs : Reg) (imm : Half)
    (h : (s.ea rs imm).toNat % w.bytes ≠ 0) : s.load w f rt imm rs = s.raise (.adEL (s.ea rs imm)) := by
  rw [State.load, if_neg (mt (aligned_iff w _).1 h)]

theorem store_aligned (w : Width) (rt rs : Reg) (imm : Half) (h : (s.ea rs imm).toNat % w.bytes = 0) :
    s.store w rt imm rs = (s.memWrite (s.ea rs imm) w (s.reg rt)).finish := by
  rw [State.store, if_pos ((aligned_iff w _).2 h)]

theorem store_misaligned (w : Width) (rt rs : Reg) (imm : Half) (h : (s.ea rs imm).toNat % w.bytes ≠ 0) :
    s.store w rt imm rs = s.raise (.adES (s.ea rs imm)) := by
  rw [State.store, if_neg (mt (aligned_iff w _).1 h)]

/-- Every way a load ends: an exception of it, or a scheduled write, after at most a change outside the core. -/
theorem load_cases (w : Width) (f : Word → Word) (rt rs : Reg) (imm : Half) :
    ∃ u, SameInside s u ∧ ((∃ e, s.load w f rt imm rs = u.raise e) ∨ ∃ v, s.load w f rt imm rs = u.armReg rt v) := by
  unfold State.load
  split
  · refine ⟨_, sameInside_memRead s (s.ea rs imm) w, ?_⟩
    cases h : (s.memRead (s.ea rs imm) w).value with
    | none => exact .inl ⟨_, deliver_none h rt f⟩
    | some v => exact .inr ⟨_, deliver_some h rt f⟩
  · exact ⟨s, .refl s, .inl ⟨_, rfl⟩⟩

theorem loadMerge_cases (f : BitVec 2 → Word → Word → Word) (rt rs : Reg) (imm : Half) :
    ∃ u, SameInside s u ∧
      ((∃ e, s.loadMerge f rt imm rs = u.raise e) ∨ ∃ v, s.loadMerge f rt imm rs = u.armReg rt v) := by
  unfold State.loadMerge
  refine ⟨_, sameInside_memRead s (alignedWord (s.ea rs imm)) .word, ?_⟩
  cases h : (s.memRead (alignedWord (s.ea rs imm)) .word).value with
  | none => exact .inl ⟨_, deliver_none h rt _⟩
  | some v => exact .inr ⟨_, deliver_some h rt _⟩

/-! ### How a store ends -/

/-- Two states that agree on everything inside but memory. -/
def SameButMemory (s t : State) : Prop := SameInside s { t with mem := s.mem }

theorem sameButMemory_memWrite (a : Word) (w : Width) (v : Word) : SameButMemory s (s.memWrite a w v).state := by
  constructor <;> simp

theorem SameInside.butMemory {s t : State} (h : SameInside s t) : SameButMemory s t :=
  ⟨h.gpr, h.pc, h.npc, h.curPc, h.hi, h.lo, h.ldArmed, h.ldCommit, h.dsCur, h.dsNext, h.c0, rfl, h.params, h.irqIn⟩

/-- Every way a store ends: an exception with nothing stored by this core, or memory as the bus write leaves it. -/
theorem store_cases (w : Width) (rt rs : Reg) (imm : Half) :
    (∃ u e, SameInside s u ∧ s.store w rt imm rs = u.raise e) ∨
      (w.aligned (s.ea rs imm) = true ∧ s.store w rt imm rs = (s.memWrite (s.ea rs imm) w (s.reg rt)).state) := by
  by_cases ha : w.aligned (s.ea rs imm) = true
  · rw [State.store, if_pos ha]
    rcases target_cases s (physical (s.ea rs imm)) with ⟨h, _⟩ | ⟨h, _⟩ | ⟨h, _⟩ | ⟨h, _⟩
    · exact .inr ⟨ha, by rw [memWrite_storage s w _ h]; rfl⟩
    · exact .inr ⟨ha, by rw [memWrite_firmware s w _ h]; rfl⟩
    · cases hr : s.nextReply with
      | value u => exact .inr ⟨ha, by rw [memWrite_handler_value s w _ h hr]; rfl⟩
      | fault => exact .inl ⟨_, .dbe, sameInside_callHandler s _, by rw [memWrite_handler_fault s w _ h hr]; rfl⟩
    · exact .inr ⟨ha, by rw [memWrite_nobody s w _ h]; rfl⟩
  · exact .inl ⟨s, _, .refl s, by rw [State.store, if_neg ha]⟩

/-- The end of a bus write: an exception with nothing stored by this core, or memory as the write leaves it. -/
theorem finish_cases (a : Word) (w : Width) (v : Word) :
    (∃ u e, SameInside s u ∧ (s.memWrite a w v).finish = u.raise e) ∨
      (s.memWrite a w v).finish = (s.memWrite a w v).state := by
  rcases target_cases s (physical a) with ⟨h, _⟩ | ⟨h, _⟩ | ⟨h, _⟩ | ⟨h, _⟩
  · exact .inr (by rw [memWrite_storage s w _ h]; rfl)
  · exact .inr (by rw [memWrite_firmware s w _ h]; rfl)
  · cases hr : s.nextReply with
    | value u => exact .inr (by rw [memWrite_handler_value s w _ h hr]; rfl)
    | fault => exact .inl ⟨_, .dbe, sameInside_callHandler s _, by rw [memWrite_handler_fault s w _ h hr]; rfl⟩
  · exact .inr (by rw [memWrite_nobody s w _ h]; rfl)

/-- Every way a read-merge-write store ends. -/
theorem storeMerge_cases (f : BitVec 2 → Word → Word → Word) (rt rs : Reg) (imm : Half) :
    (∃ u e, SameInside s u ∧ s.storeMerge f rt imm rs = u.raise e) ∨
      ∃ u v, SameInside s u ∧
        s.storeMerge f rt imm rs = (u.memWrite (alignedWord (s.ea rs imm)) .word v).state := by
  have hu := sameInside_memRead s (alignedWord (s.ea rs imm)) .word
  unfold State.storeMerge
  cases h : (s.memRead (alignedWord (s.ea rs imm)) .word).value with
  | none => exact .inl ⟨_, .dbe, hu, by simp only [h]⟩
  | some x =>
    rcases finish_cases (s.memRead (alignedWord (s.ea rs imm)) .word).state (alignedWord (s.ea rs imm)) .word
      (f (lowBits (s.ea rs imm)) x (s.reg rt)) with ⟨u, e, h1, h2⟩ | h2
    · exact .inl ⟨u, e, hu.trans h1, by simp only [h, h2]⟩
    · exact .inr ⟨_, f (lowBits (s.ea rs imm)) x (s.reg rt), hu, by simp only [h, h2]⟩

end Sys2Proof.Machine
end

