-- ==== Sys2Proof/Laws/Exec.lean ====
section
/-! SUPPORT. The inversion lemma of `exec`: the few ways an instruction can end, whichever it is. An invariant or a frame of
every instruction follows from one short argument for each way. -/

namespace Sys2Proof.Machine

/-- The ways the execution of `i` in `s` can end. `u` is `s` after at most a change outside the core. -/
inductive ExecEnd (i : Instr) (s : State) : State → Prop where
  /-- An exception. -/
  | raised {u : State} (hu : SameInside s u) (e : Exc) : ExecEnd i s (u.raise e)
  /-- An immediate write, and no transfer: for the and-link branches, not taken. -/
  | wrote (rd : Reg) (v : Word) (h : writesReg i = some rd) : ExecEnd i s (s.writeReg rd v)
  /-- A scheduled write. -/
  | scheduled {u : State} (hu : SameInside s u) (rt : Reg) (v : Word) (h : schedules i = some rt) :
    ExecEnd i s (u.armReg rt v)
  /-- A branch not taken. -/
  | nothing (h : transfers i = true) : ExecEnd i s s
  /-- A transfer. -/
  | jumped (a : Word) (h : transfers i = true) : ExecEnd i s (s.jumpTo a)
  /-- A transfer with a link. -/
  | linked (rd : Reg) (v a : Word) (h : transfers i = true) (hw : writesReg i = some rd) :
    ExecEnd i s ((s.writeReg rd v).jumpTo a)
  /-- A write of the accumulators. -/
  | accumulated (hi lo : Word) (h : writesAcc i = true) : ExecEnd i s { s with hi := hi, lo := lo }
  /-- An aligned bus write. -/
  | stored {u : State} (hu : SameInside s u) (a : Word) (w : Width) (v : Word) (h : stores i = true)
    (ha : w.aligned a = true) : ExecEnd i s (u.memWrite a w v).state
  /-- MTC0. -/
  | moved (rt n : Reg) (h : i = .mtc0 rt n) : ExecEnd i s (s.c0Set n (s.reg rt))
  /-- RFE. -/
  | returned (h : i = .rfe) : ExecEnd i s s.popModeStack

theorem ExecEnd.checked {i : Instr} {s : State} {ov : Bool} {rd : Reg} {v : Word} (h : writesReg i = some rd) {t : State}
    (ht : checkedWrite ov rd v s = .next t) : ExecEnd i s t := by
  cases ov
  · obtain rfl : s.writeReg rd v = t := by simpa [checkedWrite] using ht
    exact .wrote rd v h
  · obtain rfl : s.raise .ov = t := by simpa [checkedWrite] using ht
    exact .raised (.refl s) _

theorem ExecEnd.branch {i : Instr} (s : State) (h : transfers i = true) (c : Bool) (imm : Half) :
    ExecEnd i s (s.branchIf c imm) := by
  cases c
  · exact .nothing h
  · exact .jumped _ h

theorem ExecEnd.link {i : Instr} (s : State) (h : transfers i = true) (hw : writesReg i = some linkReg) (c : Bool)
    (imm : Half) : ExecEnd i s (branchLink c imm s) := by
  cases c
  · exact .wrote _ _ hw
  · exact .linked _ _ _ h hw

theorem ExecEnd.load {i : Instr} (s : State) (w : Width) (f : Word → Word) (rt rs : Reg) (imm : Half)
    (h : schedules i = some rt) : ExecEnd i s (s.load w f rt imm rs) := by
  obtain ⟨u, hu, ⟨e, he⟩ | ⟨v, hv⟩⟩ := load_cases s w f rt rs imm
  · rw [he]; exact .raised hu e
  · rw [hv]; exact .scheduled hu rt v h

theorem ExecEnd.loadMerge {i : Instr} (s : State) (f : BitVec 2 → Word → Word → Word) (rt rs : Reg) (imm : Half)
    (h : schedules i = some rt) : ExecEnd i s (s.loadMerge f rt imm rs) := by
  obtain ⟨u, hu, ⟨e, he⟩ | ⟨v, hv⟩⟩ := loadMerge_cases s f rt rs imm
  · rw [he]; exact .raised hu e
  · rw [hv]; exact .scheduled hu rt v h

theorem ExecEnd.store {i : Instr} (s : State) (w : Width) (rt rs : Reg) (imm : Half) (h : stores i = true) :
    ExecEnd i s (s.store w rt imm rs) := by
  rcases store_cases s w rt rs imm with ⟨u, e, hu, he⟩ | ⟨ha, hs⟩
  · rw [he]; exact .raised hu e
  · rw [hs]; exact .stored (.refl s) _ _ _ h ha

theorem ExecEnd.storeMerge {i : Instr} (s : State) (f : BitVec 2 → Word → Word → Word) (rt rs : Reg) (imm : Half)
    (h : stores i = true) : ExecEnd i s (s.storeMerge f rt imm rs) := by
  rcases storeMerge_cases s f rt rs imm with ⟨u, e, hu, he⟩ | ⟨u, v, hu, hs⟩
  · rw [he]; exact .raised hu e
  · rw [hs]; exact .stored hu _ _ _ h ((aligned_iff _ _).2 (alignedWord_mod _))

/-- Every instruction ends in one of these ways. -/
theorem exec_end (i : Instr) (s t : State) (h : exec i s = .next t) : ExecEnd i s t := by
  cases i
  case add | sub | addi => exact .checked rfl h
  case beq | bne | blez | bgtz | bltz | bgez => cases h; exact .branch s rfl _ _
  case bltzal | bgezal => cases h; exact .link s rfl rfl _ _
  case j | jr => cases h; exact .jumped _ rfl
  case jal | jalr => cases h; exact .linked _ _ _ rfl rfl
  case lb | lbu | lh | lhu | lw => cases h; exact .load s _ _ _ _ _ rfl
  case lwl | lwr => cases h; exact .loadMerge s _ _ _ _ rfl
  case sb | sh | sw => cases h; exact .store s _ _ _ _ rfl
  case swl | swr => cases h; exact .storeMerge s _ _ _ _ rfl
  case mult | multu | div | divu | mthi | mtlo => cases h; exact .accumulated _ _ rfl
  case mfc0 => cases h; exact .scheduled (.refl s) _ _ rfl
  case mtc0 => cases h; exact .moved _ _ rfl
  case rfe => cases h; exact .returned rfl
  case syscall | brk | cop1 | cop2 | cop3 | lwc0 | lwc1 | lwc2 | lwc3 | swc0 | swc1 | swc2 | swc3 =>
    cases h; exact .raised (.refl s) _
  all_goals cases h; exact .wrote _ _ rfl

/-- Every instruction answers a next state: none stops (70_reset_and_hazards.md R275). -/
theorem exec_answers (i : Instr) (s : State) : ∃ t, exec i s = .next t := by
  cases i
  case add | sub | addi => simp only [exec, execAdd, execSub, execAddi, checkedWrite]; split <;> exact ⟨_, rfl⟩
  all_goals exact ⟨_, rfl⟩

end Sys2Proof.Machine
end

