-- ==== Sys2Proof/Laws/PerInstr.lean ====
section
/-! SUPPORT. One lemma per instruction: its encoding carries the fixed bits its row of spec/opcode_table.json names. -/

namespace Sys2Proof.Laws.TableRow

open Sys2Proof Sys2Proof.Machine

/-- The fixed bits of the encoding are those of the instruction's row. -/
def Statement (i : Instr) : Prop := encode i &&& rowMask i = rowMatch i

theorem row_special {op fn : BitVec 6} {v : Word} (rs rt rd : Reg) (sh : BitVec 5)
    (h : encodeR op 0#5 0#5 0#5 0#5 fn = v) : encodeR op rs rt rd sh fn &&& 0xFC00003F#32 = v := by
  rw [show (0xFC00003F#32 : Word) = encodeR 0x3F#6 0#5 0#5 0#5 0#5 0x3F#6 from by decide, encodeR_and, ← h]
  congr 1
  all_goals first | exact BitVec.and_zero | exact BitVec.and_allOnes

theorem row_code {fn : BitVec 6} {v : Word} (c : BitVec 20) (h : encodeCode 0#20 fn = v) :
    encodeCode c fn &&& 0xFC00003F#32 = v := by
  rw [← h]
  apply BitVec.eq_of_getLsbD_eq
  intro i hi
  have hm := (by decide : ∀ j : Fin 32, (0xFC00003F#32).getLsbD j.val = decide (j.val < 6 ∨ 26 ≤ j.val)) ⟨i, hi⟩
  simp only at hm
  rw [BitVec.getLsbD_and, hm, getLsbD_encodeCode, getLsbD_encodeCode]
  by_cases h6 : i < 6
  · simp [h6]
  · by_cases h26 : i < 26
    · simp [h6, h26, show ¬ 26 ≤ i by omega]
    · simp [h6, h26]

theorem row_imm {op : BitVec 6} {v : Word} (rs rt : Reg) (imm : Half) (h : encodeI op 0#5 0#5 0#16 = v) :
    encodeI op rs rt imm &&& 0xFC000000#32 = v := by
  rw [show (0xFC000000#32 : Word) = encodeI 0x3F#6 0#5 0#5 0#16 from by decide, encodeI_and, ← h]
  congr 1
  all_goals first | exact BitVec.and_zero | exact BitVec.and_allOnes

theorem row_regimm {op : BitVec 6} {v : Word} (rs rt : Reg) (imm : Half) (h : encodeI op 0#5 rt 0#16 = v) :
    encodeI op rs rt imm &&& 0xFC1F0000#32 = v := by
  rw [show (0xFC1F0000#32 : Word) = encodeI 0x3F#6 0#5 0x1F#5 0#16 from by decide, encodeI_and, ← h]
  congr 1
  all_goals first | exact BitVec.and_zero | exact BitVec.and_allOnes

theorem row_jump {op : BitVec 6} {v : Word} (t : BitVec 26) (h : encodeJ op 0#26 = v) :
    encodeJ op t &&& 0xFC000000#32 = v := by
  rw [← h]
  apply BitVec.eq_of_getLsbD_eq
  intro i hi
  have hm := (by decide : ∀ j : Fin 32, (0xFC000000#32).getLsbD j.val = decide (26 ≤ j.val)) ⟨i, hi⟩
  simp only at hm
  rw [BitVec.getLsbD_and, hm, getLsbD_encodeJ, getLsbD_encodeJ]
  by_cases h26 : i < 26
  · simp [h26]
  · simp [h26, show 26 ≤ i by omega]

theorem row_cop0 {rs : Reg} {v : Word} (rt rd : Reg) (h : encodeR 0x10#6 rs 0#5 0#5 0#5 0#6 = v) :
    encodeR 0x10#6 rs rt rd 0#5 0#6 &&& 0xFFE00000#32 = v := by
  rw [show (0xFFE00000#32 : Word) = encodeR 0x3F#6 0x1F#5 0#5 0#5 0#5 0#6 from by decide, encodeR_and, ← h]
  congr 1
  all_goals first | exact BitVec.and_zero | exact BitVec.and_allOnes

theorem add (rd rs rt : Reg) : Statement (.add rd rs rt) := row_special (v := 0x00000020#32) _ _ _ _ (by decide)
theorem addu (rd rs rt : Reg) : Statement (.addu rd rs rt) := row_special (v := 0x00000021#32) _ _ _ _ (by decide)
theorem sub (rd rs rt : Reg) : Statement (.sub rd rs rt) := row_special (v := 0x00000022#32) _ _ _ _ (by decide)
theorem subu (rd rs rt : Reg) : Statement (.subu rd rs rt) := row_special (v := 0x00000023#32) _ _ _ _ (by decide)
theorem addi (rt rs : Reg) (imm : Half) : Statement (.addi rt rs imm) := row_imm (v := 0x20000000#32) _ _ _ (by decide)
theorem addiu (rt rs : Reg) (imm : Half) : Statement (.addiu rt rs imm) := row_imm (v := 0x24000000#32) _ _ _ (by decide)
theorem and (rd rs rt : Reg) : Statement (.and rd rs rt) := row_special (v := 0x00000024#32) _ _ _ _ (by decide)
theorem or (rd rs rt : Reg) : Statement (.or rd rs rt) := row_special (v := 0x00000025#32) _ _ _ _ (by decide)
theorem xor (rd rs rt : Reg) : Statement (.xor rd rs rt) := row_special (v := 0x00000026#32) _ _ _ _ (by decide)
theorem nor (rd rs rt : Reg) : Statement (.nor rd rs rt) := row_special (v := 0x00000027#32) _ _ _ _ (by decide)
theorem andi (rt rs : Reg) (imm : Half) : Statement (.andi rt rs imm) := row_imm (v := 0x30000000#32) _ _ _ (by decide)
theorem ori (rt rs : Reg) (imm : Half) : Statement (.ori rt rs imm) := row_imm (v := 0x34000000#32) _ _ _ (by decide)
theorem xori (rt rs : Reg) (imm : Half) : Statement (.xori rt rs imm) := row_imm (v := 0x38000000#32) _ _ _ (by decide)
theorem lui (rt : Reg) (imm : Half) : Statement (.lui rt imm) := row_imm (v := 0x3C000000#32) _ _ _ (by decide)
theorem sll (rd rt : Reg) (sa : BitVec 5) : Statement (.sll rd rt sa) := row_special (v := 0x00000000#32) _ _ _ _ (by decide)
theorem srl (rd rt : Reg) (sa : BitVec 5) : Statement (.srl rd rt sa) := row_special (v := 0x00000002#32) _ _ _ _ (by decide)
theorem sra (rd rt : Reg) (sa : BitVec 5) : Statement (.sra rd rt sa) := row_special (v := 0x00000003#32) _ _ _ _ (by decide)
theorem sllv (rd rt rs : Reg) : Statement (.sllv rd rt rs) := row_special (v := 0x00000004#32) _ _ _ _ (by decide)
theorem srlv (rd rt rs : Reg) : Statement (.srlv rd rt rs) := row_special (v := 0x00000006#32) _ _ _ _ (by decide)
theorem srav (rd rt rs : Reg) : Statement (.srav rd rt rs) := row_special (v := 0x00000007#32) _ _ _ _ (by decide)
theorem slt (rd rs rt : Reg) : Statement (.slt rd rs rt) := row_special (v := 0x0000002A#32) _ _ _ _ (by decide)
theorem sltu (rd rs rt : Reg) : Statement (.sltu rd rs rt) := row_special (v := 0x0000002B#32) _ _ _ _ (by decide)
theorem slti (rt rs : Reg) (imm : Half) : Statement (.slti rt rs imm) := row_imm (v := 0x28000000#32) _ _ _ (by decide)
theorem sltiu (rt rs : Reg) (imm : Half) : Statement (.sltiu rt rs imm) := row_imm (v := 0x2C000000#32) _ _ _ (by decide)
theorem beq (rs rt : Reg) (offset : Half) : Statement (.beq rs rt offset) := row_imm (v := 0x10000000#32) _ _ _ (by decide)
theorem bne (rs rt : Reg) (offset : Half) : Statement (.bne rs rt offset) := row_imm (v := 0x14000000#32) _ _ _ (by decide)
theorem blez (rs : Reg) (offset : Half) : Statement (.blez rs offset) := row_imm (v := 0x18000000#32) _ _ _ (by decide)
theorem bgtz (rs : Reg) (offset : Half) : Statement (.bgtz rs offset) := row_imm (v := 0x1C000000#32) _ _ _ (by decide)
theorem bltz (rs : Reg) (offset : Half) : Statement (.bltz rs offset) := row_regimm (v := 0x04000000#32) _ _ _ (by decide)
theorem bgez (rs : Reg) (offset : Half) : Statement (.bgez rs offset) := row_regimm (v := 0x04010000#32) _ _ _ (by decide)
theorem bltzal (rs : Reg) (offset : Half) : Statement (.bltzal rs offset) := row_regimm (v := 0x04100000#32) _ _ _ (by decide)
theorem bgezal (rs : Reg) (offset : Half) : Statement (.bgezal rs offset) := row_regimm (v := 0x04110000#32) _ _ _ (by decide)
theorem j (target : BitVec 26) : Statement (.j target) := row_jump (v := 0x08000000#32) _ (by decide)
theorem jal (target : BitVec 26) : Statement (.jal target) := row_jump (v := 0x0C000000#32) _ (by decide)
theorem jr (rs : Reg) : Statement (.jr rs) := row_special (v := 0x00000008#32) _ _ _ _ (by decide)
theorem jalr (rd rs : Reg) : Statement (.jalr rd rs) := row_special (v := 0x00000009#32) _ _ _ _ (by decide)
theorem lb (rt : Reg) (offset : Half) (rs : Reg) : Statement (.lb rt offset rs) := row_imm (v := 0x80000000#32) _ _ _ (by decide)
theorem lbu (rt : Reg) (offset : Half) (rs : Reg) : Statement (.lbu rt offset rs) := row_imm (v := 0x90000000#32) _ _ _ (by decide)
theorem lh (rt : Reg) (offset : Half) (rs : Reg) : Statement (.lh rt offset rs) := row_imm (v := 0x84000000#32) _ _ _ (by decide)
theorem lhu (rt : Reg) (offset : Half) (rs : Reg) : Statement (.lhu rt offset rs) := row_imm (v := 0x94000000#32) _ _ _ (by decide)
theorem lw (rt : Reg) (offset : Half) (rs : Reg) : Statement (.lw rt offset rs) := row_imm (v := 0x8C000000#32) _ _ _ (by decide)
theorem lwl (rt : Reg) (offset : Half) (rs : Reg) : Statement (.lwl rt offset rs) := row_imm (v := 0x88000000#32) _ _ _ (by decide)
theorem lwr (rt : Reg) (offset : Half) (rs : Reg) : Statement (.lwr rt offset rs) := row_imm (v := 0x98000000#32) _ _ _ (by decide)
theorem sb (rt : Reg) (offset : Half) (rs : Reg) : Statement (.sb rt offset rs) := row_imm (v := 0xA0000000#32) _ _ _ (by decide)
theorem sh (rt : Reg) (offset : Half) (rs : Reg) : Statement (.sh rt offset rs) := row_imm (v := 0xA4000000#32) _ _ _ (by decide)
theorem sw (rt : Reg) (offset : Half) (rs : Reg) : Statement (.sw rt offset rs) := row_imm (v := 0xAC000000#32) _ _ _ (by decide)
theorem swl (rt : Reg) (offset : Half) (rs : Reg) : Statement (.swl rt offset rs) := row_imm (v := 0xA8000000#32) _ _ _ (by decide)
theorem swr (rt : Reg) (offset : Half) (rs : Reg) : Statement (.swr rt offset rs) := row_imm (v := 0xB8000000#32) _ _ _ (by decide)
theorem mult (rs rt : Reg) : Statement (.mult rs rt) := row_special (v := 0x00000018#32) _ _ _ _ (by decide)
theorem multu (rs rt : Reg) : Statement (.multu rs rt) := row_special (v := 0x00000019#32) _ _ _ _ (by decide)
theorem div (rs rt : Reg) : Statement (.div rs rt) := row_special (v := 0x0000001A#32) _ _ _ _ (by decide)
theorem divu (rs rt : Reg) : Statement (.divu rs rt) := row_special (v := 0x0000001B#32) _ _ _ _ (by decide)
theorem mfhi (rd : Reg) : Statement (.mfhi rd) := row_special (v := 0x00000010#32) _ _ _ _ (by decide)
theorem mflo (rd : Reg) : Statement (.mflo rd) := row_special (v := 0x00000012#32) _ _ _ _ (by decide)
theorem mthi (rs : Reg) : Statement (.mthi rs) := row_special (v := 0x00000011#32) _ _ _ _ (by decide)
theorem mtlo (rs : Reg) : Statement (.mtlo rs) := row_special (v := 0x00000013#32) _ _ _ _ (by decide)
theorem syscall (code : BitVec 20) : Statement (.syscall code) := row_code (v := 0x0000000C#32) _ (by decide)
theorem brk (code : BitVec 20) : Statement (.brk code) := row_code (v := 0x0000000D#32) _ (by decide)
theorem mfc0 (rt rd : Reg) : Statement (.mfc0 rt rd) := row_cop0 (v := 0x40000000#32) _ _ (by decide)
theorem mtc0 (rt rd : Reg) : Statement (.mtc0 rt rd) := row_cop0 (v := 0x40800000#32) _ _ (by decide)
theorem rfe : Statement (.rfe) := by unfold Statement; decide
theorem cop1 (cofun : BitVec 26) : Statement (.cop1 cofun) := row_jump (v := 0x44000000#32) _ (by decide)
theorem cop2 (cofun : BitVec 26) : Statement (.cop2 cofun) := row_jump (v := 0x48000000#32) _ (by decide)
theorem cop3 (cofun : BitVec 26) : Statement (.cop3 cofun) := row_jump (v := 0x4C000000#32) _ (by decide)
theorem lwc0 (rt : Reg) (offset : Half) (rs : Reg) : Statement (.lwc0 rt offset rs) := row_imm (v := 0xC0000000#32) _ _ _ (by decide)
theorem lwc1 (rt : Reg) (offset : Half) (rs : Reg) : Statement (.lwc1 rt offset rs) := row_imm (v := 0xC4000000#32) _ _ _ (by decide)
theorem lwc2 (rt : Reg) (offset : Half) (rs : Reg) : Statement (.lwc2 rt offset rs) := row_imm (v := 0xC8000000#32) _ _ _ (by decide)
theorem lwc3 (rt : Reg) (offset : Half) (rs : Reg) : Statement (.lwc3 rt offset rs) := row_imm (v := 0xCC000000#32) _ _ _ (by decide)
theorem swc0 (rt : Reg) (offset : Half) (rs : Reg) : Statement (.swc0 rt offset rs) := row_imm (v := 0xE0000000#32) _ _ _ (by decide)
theorem swc1 (rt : Reg) (offset : Half) (rs : Reg) : Statement (.swc1 rt offset rs) := row_imm (v := 0xE4000000#32) _ _ _ (by decide)
theorem swc2 (rt : Reg) (offset : Half) (rs : Reg) : Statement (.swc2 rt offset rs) := row_imm (v := 0xE8000000#32) _ _ _ (by decide)
theorem swc3 (rt : Reg) (offset : Half) (rs : Reg) : Statement (.swc3 rt offset rs) := row_imm (v := 0xEC000000#32) _ _ _ (by decide)

end Sys2Proof.Laws.TableRow
end

