-- ==== Sys2Proof/Laws/Step.lean ====
section
/-! SUPPORT. The inversion lemmas of the step: what a fetch ends in, what a fetched word runs, what the poll does. -/

namespace Sys2Proof.Machine

variable (s : State)

/-! ### The fetch (40_execution_cycle.md R103) -/

theorem fetch_misaligned (h : s.pc.toNat % 4 ≠ 0) : s.fetch = .raised (s.latch.raise (.adEL s.pc)) := by
  rw [State.fetch, if_neg (mt (lowBits_eq_zero s.pc).1 h)]

theorem fetch_aligned (h : s.pc.toNat % 4 = 0) : s.fetch = (s.latch.memFetch s.pc).fetched := by
  rw [State.fetch, if_pos ((lowBits_eq_zero s.pc).2 h)]

/-- A word in a memory of the core is fetched, and nothing happens outside. -/
theorem fetch_memory (h : s.pc.toNat % 4 = 0)
    (hm : target s.params (physical s.pc) = .storage ∨ target s.params (physical s.pc) = .firmware) :
    s.fetch = .word (s.mem.readLE (physical s.pc) 4) s.latch := by
  rw [fetch_aligned s h]
  rcases hm with h' | h'
  · rw [memFetch_storage s.latch h']; rfl
  · rw [memFetch_firmware s.latch h']; rfl

theorem fetch_nobody (h : s.pc.toNat % 4 = 0) (hm : target s.params (physical s.pc) = .nobody) :
    s.fetch = .raised (s.latch.raise .ibe) := by
  rw [fetch_aligned s h, memFetch_nobody s.latch hm]; rfl

theorem fetch_handler_value (h : s.pc.toNat % 4 = 0) (hm : target s.params (physical s.pc) = .handler) {w : Word}
    (hr : s.nextReply = .value w) :
    s.fetch = .word w (s.latch.callHandler (.read 32 (physical s.pc) (segmentOf s.pc))) := by
  rw [fetch_aligned s h, memFetch_handler s.latch hm,
    readHandler_value _ .word (show s.latch.nextReply = _ from hr)]
  rfl

theorem fetch_handler_fault (h : s.pc.toNat % 4 = 0) (hm : target s.params (physical s.pc) = .handler) (hr : s.nextReply = .fault) :
    s.fetch = .raised ((s.latch.callHandler (.read 32 (physical s.pc) (segmentOf s.pc))).raise .ibe) := by
  rw [fetch_aligned s h, memFetch_handler s.latch hm,
    readHandler_fault _ .word (show s.latch.nextReply = _ from hr)]
  rfl

/-- What a fetch ends in: a word or an exception, after at most a call on a handler. -/
theorem fetch_cases :
    ∃ u, SameInside s.latch u ∧ ((∃ w, s.fetch = .word w u) ∨ ∃ e, s.fetch = .raised (u.raise e)) := by
  by_cases h : s.pc.toNat % 4 = 0
  · rw [fetch_aligned s h]
    refine ⟨_, sameInside_memFetch s.latch s.pc, ?_⟩
    unfold BusRead.fetched
    cases (s.latch.memFetch s.pc).value with
    | some w => exact .inl ⟨w, rfl⟩
    | none => exact .inr ⟨_, rfl⟩
  · exact ⟨_, .refl _, .inr ⟨_, fetch_misaligned s h⟩⟩

/-! ### The step (40_execution_cycle.md R100) -/

theorem stepOnly_word {s u : State} {w : Word} {i : Instr} (h : s.beginStep.fetch = .word w u)
    (hd : decode w = .instr i) : stepOnly s = exec i u.advance := by
  simp only [stepOnly, h, runWord, hd]

theorem stepOnly_raised {s t : State} (h : s.beginStep.fetch = .raised t) : stepOnly s = .next t := by
  simp only [stepOnly, h]

/-- What a fetched word does: an instruction's execution, or the reserved-instruction exception. -/
theorem runWord_cases {w : Word} {u t : State} (h : runWord w u = .next t) :
    (∃ i, decode w = .instr i ∧ exec i u.advance = .next t) ∨
      ((∃ why, decode w = .reserved why) ∧
        t = (u.advance.logEvent (.reservedInstruction u.advance.curPc w)).raise .ri) := by
  unfold runWord at h
  cases hd : decode w with
  | instr i => rw [hd] at h; exact .inl ⟨i, rfl, h⟩
  | reserved why => rw [hd] at h; exact .inr ⟨⟨why, rfl⟩, (Host.Outcome.next.inj h).symm⟩

/-- What a step does: an exception of the fetch, or what the fetched word does. -/
theorem stepOnly_cases {s t : State} (h : stepOnly s = .next t) :
    ∃ u, SameInside s.beginStep.latch u ∧
      ((∃ e, t = u.raise e) ∨ (∃ e u', SameInside u.advance u' ∧ t = u'.raise e) ∨
        ∃ i, exec i u.advance = .next t) := by
  obtain ⟨u, hu, ⟨w, hw⟩ | ⟨e, he⟩⟩ := fetch_cases s.beginStep
  · refine ⟨u, hu, .inr ?_⟩
    rw [stepOnly, hw] at h
    rcases runWord_cases h with ⟨i, _, hi⟩ | ⟨_, ht⟩
    · exact .inr ⟨i, hi⟩
    · exact .inl ⟨_, _, sameInside_logEvent u.advance _, ht⟩
  · exact ⟨u, hu, .inl ⟨e, by rw [stepOnly, he] at h; exact (Host.Outcome.next.inj h).symm⟩⟩

/-- Every step answers a next state (70_reset_and_hazards.md R275). -/
theorem stepOnly_answers (s : State) : ∃ t, stepOnly s = .next t := by
  obtain ⟨u, _, ⟨w, hw⟩ | ⟨e, he⟩⟩ := fetch_cases s.beginStep
  · rw [stepOnly, hw]
    simp only [runWord]
    cases decode w with
    | instr i => exact exec_answers i u.advance
    | reserved why => exact ⟨_, rfl⟩
  · exact ⟨_, stepOnly_raised he⟩

/-! ### The poll (60_exceptions.md R236) -/

/-- The state in which the poll tests for an interrupt. -/
theorem poll_taken (b : Bool)
    (h : interruptTaken s.sr (causeWithIrq s.cause b) = true) :
    s.poll b = { (s.c0Set causeNum (causeWithIrq s.cause b)).enter .int s.pc s.dsNext with dsNext := false } := by
  have h1 : (s.c0Set causeNum (causeWithIrq s.cause b)).sr = s.sr := by
    rw [State.sr, c0Get_c0Set, if_neg (by decide)]; rfl
  have h2 : (s.c0Set causeNum (causeWithIrq s.cause b)).cause = causeWithIrq s.cause b := by
    rw [State.cause, c0Get_c0Set, if_pos rfl]
  simp only [State.poll, h1, h2, h, if_true]
  rfl

theorem poll_not_taken (b : Bool)
    (h : ¬ interruptTaken s.sr (causeWithIrq s.cause b) = true) :
    s.poll b = s.c0Set causeNum (causeWithIrq s.cause b) := by
  have h1 : (s.c0Set causeNum (causeWithIrq s.cause b)).sr = s.sr := by
    rw [State.sr, c0Get_c0Set, if_neg (by decide)]; rfl
  have h2 : (s.c0Set causeNum (causeWithIrq s.cause b)).cause = causeWithIrq s.cause b := by
    rw [State.cause, c0Get_c0Set, if_pos rfl]
  simp only [State.poll, h1, h2, if_neg h]

/-- Where the step fetches after its poll. -/
theorem pollInput_pc_taken (h : s.pollTakes = true) : s.pollInput.pc = vector s.params s.sr := by
  have e : s.pollInput = _ := poll_taken { s with irqIn := s.irqIn.tail } s.irqLevel h
  rw [e]
  show vector _ (State.c0Set _ _ _).sr = _
  rw [State.sr, c0Get_c0Set, if_neg (by decide)]; rfl

theorem pollInput_pc_not_taken (h : ¬ s.pollTakes = true) : s.pollInput.pc = s.pc := by
  have e : s.pollInput = _ := poll_not_taken { s with irqIn := s.irqIn.tail } s.irqLevel h
  rw [e]; rfl

/-- Moved to main memory, the next step fetches there: its poll takes no interrupt. -/
theorem fetchAddr_toMainMemory : s.toMainMemory.fetchAddr = mainStart := by
  refine (pollInput_pc_not_taken _ ?_).trans rfl
  by_cases h : s.pollTakes = true
  · have e : s.toMainMemory.sr = s.sr &&& ~~~1#32 := by
      simp only [State.toMainMemory, h, if_true, State.sr]
      exact (c0Get_c0Set s srNum srNum _).trans (if_pos rfl)
    unfold State.pollTakes
    rw [e, interruptTaken, show srIEc (s.sr &&& ~~~1#32) = false by simp [srIEc]]
    simp
  · simp only [State.toMainMemory, h]
    exact h

end Sys2Proof.Machine
end

