-- ==== Sys2Proof/Machine/Assembler.lean ====
section
/-! DEFINITION. The assembler notation the spec writes its examples in: register aliases (10_state.md R12), operand
syntax (30_encoding.md R82), pseudo-instructions (R83). Nothing here is hardware; nothing else depends on it. -/

namespace Sys2Proof

/-- The conventional alias of a general register (10_state.md R12). -/
def regAlias (r : Reg) : String :=
  List.getD [
  "$zero", "$at", "$v0", "$v1", "$a0", "$a1", "$a2", "$a3", "$t0", "$t1", "$t2", "$t3", "$t4", "$t5", "$t6",
  "$t7", "$s0", "$s1", "$s2", "$s3", "$s4", "$s5", "$s6", "$s7", "$t8", "$t9", "$k0", "$k1", "$gp", "$sp", "$fp",
  "$ra"] r.toNat ""

/-- The numeric name `$n` of a register (R12; of a system-control register, R82). -/
def regName (r : Reg) : String := "$" ++ toString r.toNat

/-- The mnemonic (R82). -/
def Instr.mnemonic : Instr → String
  | .add .. => "ADD" | .addu .. => "ADDU" | .sub .. => "SUB" | .subu .. => "SUBU" | .addi .. => "ADDI"
  | .addiu .. => "ADDIU" | .and .. => "AND" | .or .. => "OR" | .xor .. => "XOR" | .nor .. => "NOR"
  | .andi .. => "ANDI" | .ori .. => "ORI" | .xori .. => "XORI" | .lui .. => "LUI" | .sll .. => "SLL"
  | .srl .. => "SRL" | .sra .. => "SRA" | .sllv .. => "SLLV" | .srlv .. => "SRLV" | .srav .. => "SRAV"
  | .slt .. => "SLT" | .sltu .. => "SLTU" | .slti .. => "SLTI" | .sltiu .. => "SLTIU" | .beq .. => "BEQ"
  | .bne .. => "BNE" | .blez .. => "BLEZ" | .bgtz .. => "BGTZ" | .bltz .. => "BLTZ" | .bgez .. => "BGEZ"
  | .bltzal .. => "BLTZAL" | .bgezal .. => "BGEZAL" | .j .. => "J" | .jal .. => "JAL" | .jr .. => "JR"
  | .jalr .. => "JALR" | .lb .. => "LB" | .lbu .. => "LBU" | .lh .. => "LH" | .lhu .. => "LHU" | .lw .. => "LW"
  | .lwl .. => "LWL" | .lwr .. => "LWR" | .sb .. => "SB" | .sh .. => "SH" | .sw .. => "SW" | .swl .. => "SWL"
  | .swr .. => "SWR" | .mult .. => "MULT" | .multu .. => "MULTU" | .div .. => "DIV" | .divu .. => "DIVU"
  | .mfhi .. => "MFHI" | .mflo .. => "MFLO" | .mthi .. => "MTHI" | .mtlo .. => "MTLO" | .syscall .. => "SYSCALL"
  | .brk .. => "BREAK" | .mfc0 .. => "MFC0" | .mtc0 .. => "MTC0" | .rfe => "RFE" | .cop1 .. => "COP1"
  | .cop2 .. => "COP2" | .cop3 .. => "COP3" | .lwc0 .. => "LWC0" | .lwc1 .. => "LWC1" | .lwc2 .. => "LWC2"
  | .lwc3 .. => "LWC3" | .swc0 .. => "SWC0" | .swc1 .. => "SWC1" | .swc2 .. => "SWC2" | .swc3 .. => "SWC3"

/-- `op offset(rs)` after the first operand (R82). -/
def asmBase (rt : Reg) (offset : Half) (rs : Reg) : String :=
  " " ++ regName rt ++ ", " ++ toString offset.toInt ++ "(" ++ regName rs ++ ")"

/-- Three registers. -/
def asmRegs3 (a b c : Reg) : String := " " ++ regName a ++ ", " ++ regName b ++ ", " ++ regName c

/-- Two registers. -/
def asmRegs2 (a b : Reg) : String := " " ++ regName a ++ ", " ++ regName b

/-- A code, not written when 0 (R82: optional). -/
def asmCode (code : Nat) : String := if code = 0 then "" else " " ++ toString code

/-- The operands in the assembler's order (R82): a branch offset as the raw signed word offset, a jump target as a byte
address of 28 bits; R82 gives COPz no syntax, its 26 low bits are written as a number (DESIGN CHOICE, log 24). -/
def Instr.operands : Instr → String
  | .add rd rs rt => asmRegs3 rd rs rt
  | .addu rd rs rt => asmRegs3 rd rs rt
  | .sub rd rs rt => asmRegs3 rd rs rt
  | .subu rd rs rt => asmRegs3 rd rs rt
  | .addi rt rs imm => asmRegs2 rt rs ++ ", " ++ toString imm.toInt
  | .addiu rt rs imm => asmRegs2 rt rs ++ ", " ++ toString imm.toInt
  | .and rd rs rt => asmRegs3 rd rs rt
  | .or rd rs rt => asmRegs3 rd rs rt
  | .xor rd rs rt => asmRegs3 rd rs rt
  | .nor rd rs rt => asmRegs3 rd rs rt
  | .andi rt rs imm => asmRegs2 rt rs ++ ", " ++ toString imm.toNat
  | .ori rt rs imm => asmRegs2 rt rs ++ ", " ++ toString imm.toNat
  | .xori rt rs imm => asmRegs2 rt rs ++ ", " ++ toString imm.toNat
  | .lui rt imm => " " ++ regName rt ++ ", " ++ toString imm.toNat
  | .sll rd rt sa => asmRegs2 rd rt ++ ", " ++ toString sa.toNat
  | .srl rd rt sa => asmRegs2 rd rt ++ ", " ++ toString sa.toNat
  | .sra rd rt sa => asmRegs2 rd rt ++ ", " ++ toString sa.toNat
  | .sllv rd rt rs => asmRegs3 rd rt rs
  | .srlv rd rt rs => asmRegs3 rd rt rs
  | .srav rd rt rs => asmRegs3 rd rt rs
  | .slt rd rs rt => asmRegs3 rd rs rt
  | .sltu rd rs rt => asmRegs3 rd rs rt
  | .slti rt rs imm => asmRegs2 rt rs ++ ", " ++ toString imm.toInt
  | .sltiu rt rs imm => asmRegs2 rt rs ++ ", " ++ toString imm.toInt
  | .beq rs rt offset => asmRegs2 rs rt ++ ", " ++ toString offset.toInt
  | .bne rs rt offset => asmRegs2 rs rt ++ ", " ++ toString offset.toInt
  | .blez rs offset => " " ++ regName rs ++ ", " ++ toString offset.toInt
  | .bgtz rs offset => " " ++ regName rs ++ ", " ++ toString offset.toInt
  | .bltz rs offset => " " ++ regName rs ++ ", " ++ toString offset.toInt
  | .bgez rs offset => " " ++ regName rs ++ ", " ++ toString offset.toInt
  | .bltzal rs offset => " " ++ regName rs ++ ", " ++ toString offset.toInt
  | .bgezal rs offset => " " ++ regName rs ++ ", " ++ toString offset.toInt
  | .j target => " " ++ toString (target.toNat * 4)
  | .jal target => " " ++ toString (target.toNat * 4)
  | .jr rs => " " ++ regName rs
  | .jalr rd rs => asmRegs2 rd rs
  | .lb rt offset rs => asmBase rt offset rs
  | .lbu rt offset rs => asmBase rt offset rs
  | .lh rt offset rs => asmBase rt offset rs
  | .lhu rt offset rs => asmBase rt offset rs
  | .lw rt offset rs => asmBase rt offset rs
  | .lwl rt offset rs => asmBase rt offset rs
  | .lwr rt offset rs => asmBase rt offset rs
  | .sb rt offset rs => asmBase rt offset rs
  | .sh rt offset rs => asmBase rt offset rs
  | .sw rt offset rs => asmBase rt offset rs
  | .swl rt offset rs => asmBase rt offset rs
  | .swr rt offset rs => asmBase rt offset rs
  | .mult rs rt => asmRegs2 rs rt
  | .multu rs rt => asmRegs2 rs rt
  | .div rs rt => asmRegs2 rs rt
  | .divu rs rt => asmRegs2 rs rt
  | .mfhi rd => " " ++ regName rd
  | .mflo rd => " " ++ regName rd
  | .mthi rs => " " ++ regName rs
  | .mtlo rs => " " ++ regName rs
  | .syscall code => asmCode code.toNat
  | .brk code => asmCode code.toNat
  | .mfc0 rt rd => asmRegs2 rt rd
  | .mtc0 rt rd => asmRegs2 rt rd
  | .rfe => ""
  | .cop1 cofun => " " ++ toString cofun.toNat
  | .cop2 cofun => " " ++ toString cofun.toNat
  | .cop3 cofun => " " ++ toString cofun.toNat
  | .lwc0 rt offset rs => asmBase rt offset rs
  | .lwc1 rt offset rs => asmBase rt offset rs
  | .lwc2 rt offset rs => asmBase rt offset rs
  | .lwc3 rt offset rs => asmBase rt offset rs
  | .swc0 rt offset rs => asmBase rt offset rs
  | .swc1 rt offset rs => asmBase rt offset rs
  | .swc2 rt offset rs => asmBase rt offset rs
  | .swc3 rt offset rs => asmBase rt offset rs

/-- The instruction as assembler text (R82). -/
def Instr.asm (i : Instr) : String := i.mnemonic ++ i.operands

/-! ### Pseudo-instructions and their expansions (R83) -/

/-- `NOP` (R81, R83). -/
def asmNop : List Instr := [.sll 0#5 0#5 0#5]
/-- `MOVE rd, rs`. -/
def asmMove (rd rs : Reg) : List Instr := [.addu rd rs 0#5]
/-- `LI rt, v`: R83's rows in their order, so a value that fits both of the first two is an ADDIU (log 24). -/
def asmLi (rt : Reg) (v : Int) : List Instr :=
  let w := BitVec.ofInt 32 v
  let low : Half := w.extractLsb' 0 16
  let high : Half := w.extractLsb' 16 16
  if -32768 ≤ v ∧ v ≤ 32767 then [.addiu rt 0#5 low]
  else if 0 ≤ v ∧ v ≤ 65535 then [.ori rt 0#5 low]
  else if low = 0#16 then [.lui rt high]
  else [.lui rt high, .ori rt rt low]
/-- `LA rt, addr`. -/
def asmLa (rt : Reg) (addr : Word) : List Instr := asmLi rt addr.toNat
/-- `B offset`. -/
def asmB (offset : Half) : List Instr := [.beq 0#5 0#5 offset]
/-- `BEQZ rs, offset`. -/
def asmBeqz (rs : Reg) (offset : Half) : List Instr := [.beq rs 0#5 offset]
/-- `BNEZ rs, offset`. -/
def asmBnez (rs : Reg) (offset : Half) : List Instr := [.bne rs 0#5 offset]
/-- `NOT rd, rs`. -/
def asmNot (rd rs : Reg) : List Instr := [.nor rd rs 0#5]
/-- `NEG rd, rs`. -/
def asmNeg (rd rs : Reg) : List Instr := [.sub rd 0#5 rs]
/-- `NEGU rd, rs`. -/
def asmNegu (rd rs : Reg) : List Instr := [.subu rd 0#5 rs]

end Sys2Proof
end

