-- ==== Sys2Proof/Tests/Slice0.lean ====
section
/-! SUPPORT. The model's own tests: words and results written out from the spec (41_arithmetic.md to 49_system.md and
95_test_vectors.md), refusals of ill-formed terms, and a witness for the hypotheses of every statement that has some. -/

open Sys2Proof Sys2Proof.Machine Sys2Proof.Claims

namespace Sys2Proof.Tests

/-! ### Small states -/

/-- The reset state with a word at `pc` and some registers. -/
def start (pc w : Word) (regs : List (Reg × Word)) : State :=
  { State.reset with
    pc := pc
    npc := pc + 4#32
    mem := Memory.writeLE [] (translateAddr pc) 4 w
    gpr := regs.foldl (fun g r => g.set r.1.toNat r.2) (Vector.replicate 32 0#32) }

/-- The same at `0x80000100`, where 95_test_vectors.md places single instructions. -/
def one (w : Word) (regs : List (Reg × Word)) : State := start 0x80000100#32 w regs

/-- A word in memory. -/
def put (s : State) (a v : Word) : State := { s with mem := s.mem.writeLE (translateAddr a) 4 v }

/-- `SR` as given. -/
def withSr (s : State) (v : Word) : State := s.c0Set 12#5 v

/-- A handler on the first word of the I/O window, and its coming answers. -/
def withHandler (s : State) (answers : List Config.IoReply) : State :=
  { s with params := { s.params with ioMap := [⟨0x1F801000, 4⟩] }, ioIn := answers }

/-- A configuration other than the default: regions elsewhere, firmware directly after the I/O window, and exceptions with
the boot vector in a hole of the map. -/
def elsewhere : Config.Params :=
  { Config.defaults with
    scratchBase := 0x10000000, ioBase := 0x18000000, fwBase := 0x18001000, resetVector := 0xB8001000#32
    vecGeneral := 0x80000200#32, vecBoot := 0x00200180#32 }

/-- The reset state in that configuration, with a word where it is fetched from. -/
def startElsewhere (pc w : Word) : State := { start pc w [] with params := elsewhere }

/-- One step answers a next state in which `p` holds. -/
def ends (s : State) (p : State → Bool) : Bool :=
  match step s with
  | .next t => p t
  | _ => false

/-- After one step register `r` holds `v` and the machine goes on at `0x80000104`. -/
def gives (w : Word) (regs : List (Reg × Word)) (r : Reg) (v : Word) : Bool :=
  ends (one w regs) fun t => t.reg r == v && t.pc == 0x80000104#32 && t.npc == 0x80000108#32

/-- After one step an exception of the boot vector with this `CAUSE` was entered at `0x80000100`. -/
def traps (s : State) (cause : Word) : Bool :=
  ends s fun t => t.cause == cause && t.epc == 0x80000100#32 && t.pc == 0xBFC00180#32 && t.npc == 0xBFC00184#32

/-- After one step the program counters are these. -/
def goesTo (w : Word) (regs : List (Reg × Word)) (npc : Word) (slot : Bool) : Bool :=
  ends (one w regs) fun t => t.pc == 0x80000104#32 && t.npc == npc && t.dsNext == slot

/-- `x[1] = 0x1000` and the word of 95_test_vectors.md section 2.7 there. -/
def loadState (w : Word) (x2 : Word) : State := put (one w [(1#5, 0x1000#32), (2#5, x2)]) 0x1000#32 0x8070F080#32

/-- The word of the unaligned examples there, and `x[2] = 0xAABBCCDD`. -/
def mergeState (w : Word) : State :=
  put (one w [(1#5, 0x1000#32), (2#5, 0xAABBCCDD#32)]) 0x1000#32 0x44332211#32

/-- After one step the write of `v` to register 2 is scheduled, and not yet done. -/
def schedules2 (s : State) (v : Word) : Bool :=
  ends s fun t => t.ldArmed == some ⟨2#5, v⟩ && t.reg 2#5 == s.reg 2#5 && t.log == []

/-- After one step the word at `0x1000` is `v`. -/
def leaves (s : State) (v : Word) : Bool := ends s fun t => t.mem.readLE 0x1000 4 == v

/-! ### Decoding: words written out from the encodings of the instruction files -/

theorem test_decode_arithmetic :
    decode 0x00221820#32 = .instr (.add 3#5 1#5 2#5) ∧ decode 0x00221821#32 = .instr (.addu 3#5 1#5 2#5) ∧
    decode 0x00221822#32 = .instr (.sub 3#5 1#5 2#5) ∧ decode 0x00221823#32 = .instr (.subu 3#5 1#5 2#5) ∧
    decode 0x2022FFFF#32 = .instr (.addi 2#5 1#5 0xFFFF#16) ∧
    decode 0x24220001#32 = .instr (.addiu 2#5 1#5 0x0001#16) := by decide

theorem test_decode_logical :
    decode 0x00221824#32 = .instr (.and 3#5 1#5 2#5) ∧ decode 0x00221825#32 = .instr (.or 3#5 1#5 2#5) ∧
    decode 0x00221826#32 = .instr (.xor 3#5 1#5 2#5) ∧ decode 0x00221827#32 = .instr (.nor 3#5 1#5 2#5) ∧
    decode 0x30228000#32 = .instr (.andi 2#5 1#5 0x8000#16) ∧ decode 0x34228000#32 = .instr (.ori 2#5 1#5 0x8000#16) ∧
    decode 0x3822FFFF#32 = .instr (.xori 2#5 1#5 0xFFFF#16) ∧ decode 0x3C028000#32 = .instr (.lui 2#5 0x8000#16) := by
  decide

theorem test_decode_shift :
    decode 0x000117C0#32 = .instr (.sll 2#5 1#5 31#5) ∧ decode 0x00011102#32 = .instr (.srl 2#5 1#5 4#5) ∧
    decode 0x00011103#32 = .instr (.sra 2#5 1#5 4#5) ∧ decode 0x00611004#32 = .instr (.sllv 2#5 1#5 3#5) ∧
    decode 0x00611006#32 = .instr (.srlv 2#5 1#5 3#5) ∧ decode 0x00611007#32 = .instr (.srav 2#5 1#5 3#5) := by decide

theorem test_decode_compare :
    decode 0x0022182A#32 = .instr (.slt 3#5 1#5 2#5) ∧ decode 0x0022182B#32 = .instr (.sltu 3#5 1#5 2#5) ∧
    decode 0x28228000#32 = .instr (.slti 2#5 1#5 0x8000#16) ∧ decode 0x2C228000#32 = .instr (.sltiu 2#5 1#5 0x8000#16) := by
  decide

theorem test_decode_branch :
    decode 0x10200002#32 = .instr (.beq 1#5 0#5 2#16) ∧ decode 0x14227FFF#32 = .instr (.bne 1#5 2#5 0x7FFF#16) ∧
    decode 0x18200004#32 = .instr (.blez 1#5 4#16) ∧ decode 0x1C200004#32 = .instr (.bgtz 1#5 4#16) ∧
    decode 0x04200004#32 = .instr (.bltz 1#5 4#16) ∧ decode 0x04210004#32 = .instr (.bgez 1#5 4#16) ∧
    decode 0x04300004#32 = .instr (.bltzal 1#5 4#16) ∧ decode 0x04310004#32 = .instr (.bgezal 1#5 4#16) := by decide

theorem test_decode_jump :
    decode 0x0BFFFFFF#32 = .instr (.j 0x3FFFFFF#26) ∧ decode 0x0C000080#32 = .instr (.jal 0x80#26) ∧
    decode 0x03E00008#32 = .instr (.jr 31#5) ∧ decode 0x0040F809#32 = .instr (.jalr 31#5 2#5) := by decide

theorem test_decode_load :
    decode 0x80220001#32 = .instr (.lb 2#5 1#16 1#5) ∧ decode 0x90220003#32 = .instr (.lbu 2#5 3#16 1#5) ∧
    decode 0x84220002#32 = .instr (.lh 2#5 2#16 1#5) ∧ decode 0x94220002#32 = .instr (.lhu 2#5 2#16 1#5) ∧
    decode 0x8C22FFFC#32 = .instr (.lw 2#5 0xFFFC#16 1#5) ∧ decode 0x88220001#32 = .instr (.lwl 2#5 1#16 1#5) ∧
    decode 0x98220001#32 = .instr (.lwr 2#5 1#16 1#5) := by decide

theorem test_decode_store :
    decode 0xA0220001#32 = .instr (.sb 2#5 1#16 1#5) ∧ decode 0xA4220002#32 = .instr (.sh 2#5 2#16 1#5) ∧
    decode 0xAC2203FC#32 = .instr (.sw 2#5 0x3FC#16 1#5) ∧ decode 0xA8220001#32 = .instr (.swl 2#5 1#16 1#5) ∧
    decode 0xB8220001#32 = .instr (.swr 2#5 1#16 1#5) := by decide

theorem test_decode_muldiv :
    decode 0x00220018#32 = .instr (.mult 1#5 2#5) ∧ decode 0x00220019#32 = .instr (.multu 1#5 2#5) ∧
    decode 0x0022001A#32 = .instr (.div 1#5 2#5) ∧ decode 0x0022001B#32 = .instr (.divu 1#5 2#5) ∧
    decode 0x00001810#32 = .instr (.mfhi 3#5) ∧ decode 0x00001812#32 = .instr (.mflo 3#5) ∧
    decode 0x00200011#32 = .instr (.mthi 1#5) ∧ decode 0x00200013#32 = .instr (.mtlo 1#5) := by decide

theorem test_decode_system :
    decode 0x03FFFFCC#32 = .instr (.syscall 0xFFFFF#20) ∧ decode 0x0000000D#32 = .instr (.brk 0#20) ∧
    decode 0x40027800#32 = .instr (.mfc0 2#5 15#5) ∧ decode 0x40826000#32 = .instr (.mtc0 2#5 12#5) ∧
    decode 0x42000010#32 = .instr .rfe := by decide

theorem test_decode_coprocessor :
    decode 0x44000000#32 = .instr (.cop1 0#26) ∧ decode 0x4A000000#32 = .instr (.cop2 0x2000000#26) ∧
    decode 0x4C000000#32 = .instr (.cop3 0#26) ∧ decode 0xC0000000#32 = .instr (.lwc0 0#5 0#16 0#5) ∧
    decode 0xC4000000#32 = .instr (.lwc1 0#5 0#16 0#5) ∧ decode 0xC8000001#32 = .instr (.lwc2 0#5 1#16 0#5) ∧
    decode 0xCC000000#32 = .instr (.lwc3 0#5 0#16 0#5) ∧ decode 0xE0000000#32 = .instr (.swc0 0#5 0#16 0#5) ∧
    decode 0xE4000000#32 = .instr (.swc1 0#5 0#16 0#5) ∧ decode 0xE8000000#32 = .instr (.swc2 0#5 0#16 0#5) ∧
    decode 0xEC000000#32 = .instr (.swc3 0#5 0#16 0#5) := by decide

theorem test_decode_reserved :
    (decode 0x40400000#32 = .reserved (.cop0 2#5 0#6)) ∧ (decode 0x42000001#32 = .reserved (.cop0 16#5 1#6)) ∧
    (decode 0x0000000F#32 = .reserved (.funct 0x0F#6)) ∧ (decode 0x041F0000#32 = .reserved (.regimm 0x1F#5)) ∧
    (decode 0xFC000000#32 = .reserved (.op 0x3F#6)) ∧ decodeBytes [0#8, 0#8, 0#8] = .truncated := by decide

/-- 20_memory.md R48, 95_test_vectors.md P7: `34 12 08 3C` are the bytes of `0x3C081234`. -/
theorem test_decode_bytes_little_endian :
    decodeBytes [0x34#8, 0x12#8, 0x08#8, 0x3C#8, 0x78#8] = .instr (.lui 8#5 0x1234#16) [0x78#8] ∧
    decodeTableWord 32 0x3C081234 = some (.lui 8#5 0x1234#16) ∧ decodeTableWord 32 0x42000001 = none := by decide

/-! ### Well-formedness: each check refuses an ill-formed term -/

theorem test_wf_link_equals_source :
    (Instr.jalr 2#5 2#5).portable = false ∧ (Instr.bltzal 31#5 4#16).portable = false ∧
    (Instr.bgezal 31#5 4#16).portable = false ∧ (Instr.jalr 31#5 2#5).portable = true := by decide

theorem test_wf_io_range :
    (∀ r ∈ [⟨0x1F801002, 4⟩, ⟨0x1F801000, 2⟩, ⟨0x1F801000, 0⟩, ⟨0x1F800FFC, 8⟩, ⟨0x1F801FFC, 8⟩],
      Config.IoRange.wellFormed 0x1F801000 r = false) ∧
    Config.IoRange.wellFormed 0x1F801000 ⟨0x1F801FFC, 4⟩ = true ∧
    Config.IoRange.wellFormed 0x1F802000 ⟨0x1F801FFC, 4⟩ = false := by decide

/-- 20_memory.md R42, R43: a region in another's place, or on an odd address, or beyond 29 bits. -/
theorem test_wf_map :
    Config.Params.wellFormed { Config.defaults with scratchBase := 0x001FFFFC } = false ∧
    Config.Params.wellFormed { Config.defaults with scratchBase := 0x1F800002 } = false ∧
    Config.Params.wellFormed { Config.defaults with ioBase := 0x1F8003FC } = false ∧
    Config.Params.wellFormed { Config.defaults with fwBase := 0x1F801FFC } = false ∧
    Config.Params.wellFormed { Config.defaults with fwBase := 0x1FF80004 } = false ∧
    Config.Params.wellFormed { Config.defaults with ioBase := 0x1F800400, fwBase := 0x1FF80000 } = true := by decide

theorem test_wf_params :
    Config.Params.wellFormed { Config.defaults with ioMap := [⟨0x1F801000, 8⟩, ⟨0x1F801004, 8⟩] } = false ∧
    Config.Params.wellFormed { Config.defaults with srReset := 1#32 } = false ∧
    Config.Params.wellFormed { Config.defaults with ioMap := [⟨0x1F801000, 4⟩, ⟨0x1F801004, 8⟩] } = true := by decide

theorem test_wf_firmware : Config.firmwareWellFormed [] = false ∧ Config.firmwareWellFormed [0#8] = false := by decide

theorem test_wf_memory :
    Memory.wf [(4, 1#8), (4, 2#8)] = false ∧ Memory.wf [(4, 0#8)] = false ∧ Memory.wf [(5, 1#8), (4, 1#8)] = false ∧
    Memory.wf [(4, 1#8), (5, 2#8)] = true := by decide

/-! ### One step, results of 95_test_vectors.md part 2 -/

theorem test_add : gives 0x00221820#32 [(1#5, 0x7FFFFFFF#32), (2#5, 0x80000000#32)] 3#5 0xFFFFFFFF#32 = true := by decide
theorem test_add_overflow : ends (one 0x00221820#32 [(1#5, 0x7FFFFFFF#32), (2#5, 1#32), (3#5, 0x55#32)])
    (fun t => t.cause == 0x30#32 && t.epc == 0x80000100#32 && t.reg 3#5 == 0x55#32) = true := by decide
theorem test_addu_wraps : gives 0x00221821#32 [(1#5, 0xFFFFFFFF#32), (2#5, 1#32)] 3#5 0#32 = true := by decide
theorem test_sub : gives 0x00221822#32 [(1#5, 5#32), (2#5, 7#32)] 3#5 0xFFFFFFFE#32 = true := by decide
theorem test_sub_overflow : traps (one 0x00221822#32 [(1#5, 0#32), (2#5, 0x80000000#32)]) 0x30#32 = true := by decide
theorem test_subu_wraps : gives 0x00221823#32 [(1#5, 0x80000000#32), (2#5, 1#32)] 3#5 0x7FFFFFFF#32 = true := by decide
theorem test_addi_sign_extends : gives 0x20228000#32 [(1#5, 5#32)] 2#5 0xFFFF8005#32 = true := by decide
theorem test_addi_overflow : traps (one 0x20227FFF#32 [(1#5, 0x7FFF8001#32)]) 0x30#32 = true := by decide
theorem test_addiu_wraps : gives 0x24228000#32 [(1#5, 0x80000000#32)] 2#5 0x7FFF8000#32 = true := by decide
theorem test_addiu_register_zero : gives 0x24000005#32 [] 0#5 0#32 = true := by decide

theorem test_and : gives 0x00221824#32 [(1#5, 0xFF00FF00#32), (2#5, 0x0FF00FF0#32)] 3#5 0x0F000F00#32 = true := by decide
theorem test_or : gives 0x00221825#32 [(1#5, 0xFF00FF00#32), (2#5, 0x0FF00FF0#32)] 3#5 0xFFF0FFF0#32 = true := by decide
theorem test_xor : gives 0x00221826#32 [(1#5, 0xFF00FF00#32), (2#5, 0x0FF00FF0#32)] 3#5 0xF0F0F0F0#32 = true := by decide
theorem test_nor : gives 0x00221827#32 [(1#5, 0xFF00FF00#32), (2#5, 0x0FF00FF0#32)] 3#5 0x000F000F#32 = true := by decide
theorem test_andi : gives 0x30228000#32 [(1#5, 0xFFFFFFFF#32)] 2#5 0x00008000#32 = true := by decide
theorem test_ori : gives 0x34228000#32 [(1#5, 0x12340000#32)] 2#5 0x12348000#32 = true := by decide
theorem test_xori : gives 0x3822FFFF#32 [(1#5, 0xFFFFFFFF#32)] 2#5 0xFFFF0000#32 = true := by decide
theorem test_lui : gives 0x3C028000#32 [(2#5, 0x0000FFFF#32)] 2#5 0x80000000#32 = true := by decide

theorem test_sll : gives 0x00011040#32 [(1#5, 0x80000001#32)] 2#5 2#32 = true := by decide
theorem test_srl : gives 0x00011102#32 [(1#5, 0xF0000000#32)] 2#5 0x0F000000#32 = true := by decide
theorem test_sra : gives 0x00011103#32 [(1#5, 0xF0000000#32)] 2#5 0xFF000000#32 = true := by decide
theorem test_sllv : gives 0x00611004#32 [(1#5, 1#32), (3#5, 0x21#32)] 2#5 2#32 = true := by decide
theorem test_srlv : gives 0x00611006#32 [(1#5, 0x80000000#32), (3#5, 0x20#32)] 2#5 0x80000000#32 = true := by decide
theorem test_srav : gives 0x00611007#32 [(1#5, 0x80000000#32), (3#5, 0x104#32)] 2#5 0xF8000000#32 = true := by decide

theorem test_slt : gives 0x0022182A#32 [(1#5, 0xFFFFFFFF#32), (2#5, 1#32)] 3#5 1#32 = true := by decide
theorem test_sltu : gives 0x0022182B#32 [(1#5, 0xFFFFFFFF#32), (2#5, 1#32), (3#5, 0x55#32)] 3#5 0#32 = true := by decide
theorem test_slti : gives 0x28228000#32 [(1#5, 5#32), (2#5, 0x55#32)] 2#5 0#32 = true := by decide
theorem test_sltiu : gives 0x2C228000#32 [(1#5, 5#32)] 2#5 1#32 = true := by decide

theorem test_beq_taken : goesTo 0x10200004#32 [] 0x80000114#32 true = true := by decide
theorem test_beq_not_taken : goesTo 0x10200004#32 [(1#5, 1#32)] 0x80000108#32 false = true := by decide
theorem test_bne_far_forward : goesTo 0x14227FFF#32 [(1#5, 1#32), (2#5, 2#32)] 0x80020100#32 true = true := by decide
theorem test_bne_far_back : goesTo 0x14228000#32 [(1#5, 1#32), (2#5, 2#32)] 0x7FFE0104#32 true = true := by decide
theorem test_blez : goesTo 0x18200004#32 [] 0x80000114#32 true = true := by decide
theorem test_bgtz : goesTo 0x1C200004#32 [(1#5, 0x80000000#32)] 0x80000108#32 false = true := by decide
theorem test_bltz : goesTo 0x04200004#32 [(1#5, 0x80000000#32)] 0x80000114#32 true = true := by decide
theorem test_bgez : goesTo 0x04210004#32 [] 0x80000114#32 true = true := by decide
theorem test_bltzal_not_taken_links : ends (one 0x04300004#32 [(1#5, 1#32)])
    (fun t => t.reg 31#5 == 0x80000108#32 && t.npc == 0x80000108#32) = true := by decide
theorem test_bltzal_of_link_register : ends (one 0x07F00004#32 [(31#5, 0x80000000#32)])
    (fun t => t.reg 31#5 == 0x80000108#32 && t.npc == 0x80000114#32) = true := by decide
theorem test_bgezal : ends (one 0x04110004#32 [])
    (fun t => t.reg 31#5 == 0x80000108#32 && t.npc == 0x80000114#32) = true := by decide

theorem test_j_high_region : goesTo 0x0BFFFFFF#32 [] 0x8FFFFFFC#32 true = true := by decide
theorem test_j_low_region : ends (start 0x100#32 0x08000080#32 [])
    (fun t => t.pc == 0x104#32 && t.npc == 0x200#32) = true := by decide
theorem test_jal : ends (one 0x0C000080#32 [])
    (fun t => t.reg 31#5 == 0x80000108#32 && t.npc == 0x80000200#32 && t.dsNext) = true := by decide
theorem test_jr_misaligned_does_not_trap : goesTo 0x00400008#32 [(2#5, 0x80000402#32)] 0x80000402#32 true = true := by
  decide
theorem test_jalr_same_register : ends (one 0x00401009#32 [(2#5, 0x80000400#32)])
    (fun t => t.reg 2#5 == 0x80000108#32 && t.npc == 0x80000400#32) = true := by decide

theorem test_lb : schedules2 (loadState 0x80220001#32 0x55#32) 0xFFFFFFF0#32 = true := by decide
theorem test_lbu : schedules2 (loadState 0x90220003#32 0x55#32) 0x80#32 = true := by decide
theorem test_lh : schedules2 (loadState 0x84220002#32 0x55#32) 0xFFFF8070#32 = true := by decide
theorem test_lh_misaligned : ends (loadState 0x84220001#32 0x55#32)
    (fun t => t.cause == 0x10#32 && t.badVAddr == 0x1001#32 && t.ldArmed == none) = true := by decide
theorem test_lhu : schedules2 (loadState 0x94220000#32 0x55#32) 0xF080#32 = true := by decide
theorem test_lw : schedules2 (loadState 0x8C220000#32 0x55#32) 0x8070F080#32 = true := by decide
theorem test_lw_unmapped : ends (one 0x8C220000#32 [(1#5, 0x1F801000#32)]) (fun t =>
    t.ldArmed == some ⟨2#5, 0#32⟩ && t.log == [.unmappedRead 0x1F801000#32 4]) = true := by decide
theorem test_lwl : schedules2 (mergeState 0x88220001#32) 0x2211CCDD#32 = true := by decide
theorem test_lwl_of_value_in_flight :
    schedules2 { mergeState 0x88220000#32 with ldArmed := some ⟨2#5, 0x01020304#32⟩ } 0x11020304#32 = true := by decide
theorem test_lwr : schedules2 (mergeState 0x98220002#32) 0xAABB4433#32 = true := by decide

theorem test_sb : leaves (loadState 0xA0220001#32 0xFFFFFFAA#32) 0x8070AA80#32 = true := by decide
theorem test_sh : leaves (loadState 0xA4220002#32 0x1234BEEF#32) 0xBEEFF080#32 = true := by decide
theorem test_sh_misaligned : ends (loadState 0xA4220001#32 0xBEEF#32) (fun t =>
    t.cause == 0x14#32 && t.badVAddr == 0x1001#32 && t.mem.readLE 0x1000 4 == 0x8070F080#32) = true := by decide
theorem test_sw : leaves (loadState 0xAC220000#32 0x11223344#32) 0x11223344#32 = true := by decide
theorem test_sw_firmware : ends (one 0xAC220000#32 [(1#5, 0xBFC00000#32), (2#5, 0xBEEF#32)]) (fun t =>
    t.log == [.firmwareWrite 0xBFC00000#32 4 0xBEEF#32] && t.mem.readLE 0x1FC00000 4 == 0#32) = true := by decide
theorem test_sb_to_handler : ends
    (withHandler (one 0xA0220000#32 [(1#5, 0x1F801000#32), (2#5, 0x1FF#32)]) [.value 0#32]) (fun t =>
    t.ioCalls == [.write 8 0x1F801000 0#3 0xFF#32] && t.log == [] && t.ioIn == []) = true := by decide
theorem test_swl : leaves (mergeState 0xA8220002#32) 0x44AABBCC#32 = true := by decide
theorem test_swr : leaves (mergeState 0xB8220001#32) 0xBBCCDD11#32 = true := by decide

theorem test_mult : ends (one 0x00220018#32 [(1#5, 0xFFFFFFFE#32), (2#5, 3#32)])
    (fun t => t.hi == 0xFFFFFFFF#32 && t.lo == 0xFFFFFFFA#32) = true := by decide
theorem test_multu : ends (one 0x00220019#32 [(1#5, 0xFFFFFFFE#32), (2#5, 3#32)])
    (fun t => t.hi == 2#32 && t.lo == 0xFFFFFFFA#32) = true := by decide
theorem test_div : ends (one 0x0022001A#32 [(1#5, 0xFFFFFFF9#32), (2#5, 2#32)])
    (fun t => t.hi == 0xFFFFFFFF#32 && t.lo == 0xFFFFFFFD#32) = true := by decide
theorem test_div_by_zero : ends (one 0x0022001A#32 [(1#5, 0xFFFFFFFB#32)])
    (fun t => t.hi == 0xFFFFFFFB#32 && t.lo == 1#32) = true := by decide
theorem test_divu : ends (one 0x0022001B#32 [(1#5, 0xFFFFFFF9#32), (2#5, 2#32)])
    (fun t => t.hi == 1#32 && t.lo == 0x7FFFFFFC#32) = true := by decide
theorem test_divu_by_zero : ends (one 0x0022001B#32 [(1#5, 5#32)])
    (fun t => t.hi == 5#32 && t.lo == 0xFFFFFFFF#32) = true := by decide
theorem test_mfhi : ends { one 0x00001810#32 [] with hi := 0x11111111#32, lo := 0x22222222#32 }
    (fun t => t.reg 3#5 == 0x11111111#32) = true := by decide
theorem test_mflo : ends { one 0x00001812#32 [] with hi := 0x11111111#32, lo := 0x22222222#32 }
    (fun t => t.reg 3#5 == 0x22222222#32) = true := by decide
theorem test_mthi : ends (one 0x00200011#32 [(1#5, 0xCAFE0001#32)])
    (fun t => t.hi == 0xCAFE0001#32 && t.lo == 0#32) = true := by decide
theorem test_mtlo : ends (one 0x00200013#32 [(1#5, 0xCAFE0001#32)])
    (fun t => t.lo == 0xCAFE0001#32 && t.hi == 0#32) = true := by decide

theorem test_syscall : ends (withSr (start 0x80001000#32 0x0000000C#32 []) 0x0000FF03#32) (fun t =>
    t.cause == 0x20#32 && t.epc == 0x80001000#32 && t.sr == 0x0000FF0C#32 && t.pc == 0x80000080#32) = true := by decide
theorem test_break : ends (withSr (start 0x80001000#32 0x0000000D#32 []) 0x00400001#32) (fun t =>
    t.cause == 0x24#32 && t.epc == 0x80001000#32 && t.sr == 0x00400004#32 && t.pc == 0xBFC00180#32) = true := by decide
/-- BREAK in the slot of the branch at `0x80000FFC`: the start state is the one the taken branch leaves. -/
theorem test_break_in_delay_slot : ends
    { withSr (start 0x80001000#32 0x0000000D#32 []) 0#32 with npc := 0x80001010#32, dsNext := true } (fun t =>
    t.cause == 0x80000024#32 && t.epc == 0x80000FFC#32 && t.pc == 0x80000080#32 && t.npc == 0x80000084#32) = true := by
  decide
theorem test_mfc0 : schedules2 (one 0x40027800#32 []) 2#32 = true := by decide
theorem test_mtc0_cause_is_raw : ends (one 0x40826800#32 [(2#5, 0xFFFFFFFF#32)])
    (fun t => t.cause == 0xFFFFFFFF#32 && (t.poll false).cause == 0xFFFFFBFF#32) = true := by decide
theorem test_rfe : ends (withSr (one 0x42000010#32 []) 0x24#32) (fun t => t.sr == 0x29#32) = true := by decide
theorem test_rfe_keeps_upper_bits : ends (withSr (one 0x42000010#32 []) 0x0000FF0C#32)
    (fun t => t.sr == 0x0000FF03#32 && t.cause == 0#32 && t.pc == 0x80000104#32) = true := by decide
theorem test_cop1 : traps (one 0x44000000#32 []) 0x1000002C#32 = true := by decide
theorem test_cop2 : traps (one 0x4A000000#32 []) 0x2000002C#32 = true := by decide
theorem test_cop3 : traps (one 0x4C000000#32 []) 0x3000002C#32 = true := by decide
theorem test_lwc0 : traps (one 0xC0000000#32 []) 0x0000002C#32 = true := by decide
theorem test_lwc1 : traps (one 0xC4000000#32 []) 0x1000002C#32 = true := by decide
theorem test_lwc2_misaligned : traps (one 0xC8000001#32 []) 0x2000002C#32 = true := by decide
theorem test_lwc3 : traps (one 0xCC000000#32 []) 0x3000002C#32 = true := by decide
theorem test_swc0 : traps (one 0xE0000000#32 []) 0x0000002C#32 = true := by decide
theorem test_swc1 : traps (one 0xE4000000#32 []) 0x1000002C#32 = true := by decide
theorem test_swc2 : traps (one 0xE8000000#32 []) 0x2000002C#32 = true := by decide
theorem test_swc3 : traps (one 0xEC000000#32 []) 0x3000002C#32 = true := by decide
theorem test_reserved : ends (one 0x04220004#32 [(1#5, 0xFFFFFFFF#32)]) (fun t => t.cause == 0x28#32 &&
    t.epc == 0x80000100#32 && t.log == [.reservedInstruction 0x80000100#32 0x04220004#32]) = true := by decide

/-! ### The step around the instruction -/

/-- 95_test_vectors.md section 2.10: a fetch from an unmapped address. -/
theorem test_fetch_unmapped : ends { State.reset with pc := 0x00200000#32, npc := 0x00200004#32 } (fun t =>
    t.cause == 0x18#32 && t.epc == 0x00200000#32 && t.badVAddr == 0#32 && t.pc == 0xBFC00180#32) = true := by decide
/-- 46_jump.md R173: the fetch after a jump to `0x80000402`. -/
theorem test_fetch_misaligned : ends { State.reset with pc := 0x80000402#32, npc := 0x80000406#32 } (fun t =>
    t.cause == 0x10#32 && t.epc == 0x80000402#32 && t.badVAddr == 0x80000402#32) = true := by decide
/-- 95_test_vectors.md P6, step 6: the poll enters the handler, whose first instruction the step runs. -/
theorem test_interrupt : ends
    { withSr (put (start 0x80000108#32 0x24420001#32 []) 0x80000080#32 0x401A7000#32) 0x401#32 with irqIn := [true] }
    (fun t => t.pc == 0x80000084#32 && t.sr == 0x404#32 && t.cause == 0x400#32 && t.epc == 0x80000108#32 &&
      t.reg 2#5 == 0#32 && t.irqIn == [] && t.ldArmed == some ⟨26#5, 0x80000108#32⟩) = true := by decide
/-- 95_test_vectors.md section 2.7: an immediate write and a load in flight to the same register. -/
theorem test_direct_write_cancels : ends { one 0x24020003#32 [(2#5, 0x55#32)] with ldArmed := some ⟨2#5, 7#32⟩ }
    (fun t => t.reg 2#5 == 3#32 && t.ldCommit == none) = true := by decide
theorem test_deferred_write_wins : ends
    { one 0x24020003#32 [(2#5, 0x55#32)] with
      ldArmed := some ⟨2#5, 7#32⟩, params := { Config.defaults with precedence := .deferredWriteWins } }
    (fun t => t.reg 2#5 == 3#32 && t.ldCommit == some ⟨2#5, 7#32⟩) = true := by decide
/-- 95_test_vectors.md S4: the instruction after the load reads the old value. -/
theorem test_load_delay : ends { one 0x00401820#32 [] with ldArmed := some ⟨2#5, 7#32⟩ }
    (fun t => t.reg 3#5 == 0#32 && t.reg 2#5 == 0#32 && t.ldCommit == some ⟨2#5, 7#32⟩) = true := by decide
/-- 95_test_vectors.md P7: the first instruction after reset is fetched from firmware. -/
theorem test_first_instruction_after_reset : ends (State.reset.withFetchWord 32 0x3C081234) (fun t =>
    t.reg 8#5 == 0x12340000#32 && t.pc == 0xBFC00004#32) = true := by decide
/-- 20_memory.md R41: three names of one byte (S1). -/
theorem test_translate : translateAddr 0x9FC00010#32 = 0x1FC00010 ∧ translateAddr 0xE0000004#32 = 4 ∧
    region Config.defaults 0x001FFFFF = .main ∧ region Config.defaults 0x00200000 = .unmapped ∧
    region Config.defaults 0x1F8003FF = .scratch ∧ region Config.defaults 0x1F800400 = .unmapped ∧
    region Config.defaults 0x1F801FFF = .io ∧ region Config.defaults 0x1FC7FFFF = .firmware := by decide

/-- 00_scope.md R4: the bases and the vectors are the configuration's. -/
theorem test_configuration :
    region elsewhere 0x1F8003FF = .unmapped ∧ region elsewhere 0x100003FF = .scratch ∧
    region elsewhere 0x18000FFF = .io ∧ region elsewhere 0x1807FFFF = .firmware ∧
    ({ State.reset with params := elsewhere } : State).resetCall.pc = 0xB8001000#32 ∧
    ends { State.reset with params := elsewhere, pc := 0x00200000#32, npc := 0x00200004#32 } (fun t =>
      t.cause == 0x18#32 && t.pc == 0x00200180#32 && t.npc == 0x00200184#32) = true := by decide

/-- The coming poll takes an interrupt whose vector nobody answers: the placed instruction runs in main memory. -/
theorem test_place_unfetchable_vector :
    ends (State.withFetchWord { withSr { State.reset with params := elsewhere } 0x400401#32 with irqIn := [true] } 32
      0x3C081234) (fun t => t.reg 8#5 == 0x12340000#32 && t.pc == 4#32) = true := by decide

/-! ### Assembler text and pseudo-instructions (30_encoding.md R82, R83) -/

theorem test_asm_load : (Instr.lw 2#5 0xFFFC#16 29#5).asm = "LW $2, -4($29)" ∧ regAlias 29#5 = "$sp" := by decide
theorem test_asm_li : asmLi 8#5 0x12345678 = [.lui 8#5 0x1234#16, .ori 8#5 8#5 0x5678#16] ∧
    asmLi 8#5 (-1) = [.addiu 8#5 0#5 0xFFFF#16] ∧ asmLi 8#5 0x8000 = [.ori 8#5 0#5 0x8000#16] ∧
    asmLi 8#5 0x1F800000 = [.lui 8#5 0x1F80#16] := by decide

/-! ### Witnesses: states and operands that meet the hypotheses of the statements, each clause at a boundary value -/

/-- A state that is not the reset state: a load is about to commit, another is in flight, memory is written. -/
def busy : State :=
  { put (one 0x00401820#32 [(1#5, 5#32)]) 0x001FFFFC#32 0xFF00FF00#32 with
    ldArmed := some ⟨2#5, 7#32⟩, ldCommit := some ⟨31#5, 9#32⟩ }

theorem witness_ConstructAndResetLeaveBootState :
    (List.replicate 524288 0x80#8).length = 524288 ∧ Config.defaults.wellFormed = true ∧
    State.reset.params.resetVector = Config.defaults.resetVector ∧
    State.reset.params.srReset = Config.defaults.srReset ∧ State.reset.params.pridValue = Config.defaults.pridValue ∧
    ([] : List Byte).length ≠ 524288 ∧ (List.replicate 524289 0x80#8).length ≠ 524288 ∧
    elsewhere.wellFormed = true ∧ Config.Params.wellFormed { Config.defaults with srReset := 1#32 } = false := by
  simp only [List.length_replicate]; decide

theorem witness_ConstructedCoreMeetsInvariant :
    ∃ t, State.construct Config.defaults (List.replicate 524288 0x80#8) = some t := by
  have h : (Config.firmwareWellFormed (List.replicate 524288 0x80#8) && Config.defaults.wellFormed) = true := by
    simp only [Config.firmwareWellFormed, List.length_replicate]; decide
  exact ⟨_, if_pos h⟩

theorem witness_EveryStepKeepsInvariant : Invariant busy ∧ ∃ t, step busy = .next t := by
  refine ⟨⟨by decide, ?_, by decide, ?_, ?_, ?_, by decide, ?_, by decide⟩, _, rfl⟩
  · simp only [InMain, InScratch, InFirmware]; decide
  · simp [busy]
  · simp [busy]
  · intro r v w h
    have h1 : (2#5 : Reg) = r := congrArg Pending.reg (Option.some.inj h.1)
    have h2 : (31#5 : Reg) = r := congrArg Pending.reg (Option.some.inj h.2)
    exact absurd (h1.trans h2.symm) (by decide)
  · simp only [MapOrdered]; decide

theorem witness_EncodeOfDecodeKeepsTheUsedBits :
    decode 0x03FFFFFF#32 = .reserved (.funct 0x3F#6) ∧ decode 0x421FFFD0#32 = .instr .rfe ∧
    decode 0x00221FE0#32 = .instr (.add 3#5 1#5 2#5) := by decide

/-- The second word has every ignored bit of the first set. -/
theorem witness_IgnoredBitsMayHoldAnyValue :
    decode 0x00221820#32 = .instr (.add 3#5 1#5 2#5) ∧ decode 0x00221FE0#32 = .instr (.add 3#5 1#5 2#5) ∧
    usedBits (.add 3#5 1#5 2#5) = 0xFFFFF83F#32 := by decide

theorem witness_WordsDecodeByTheirTableRow :
    decode 0x00000000#32 = .instr (.sll 0#5 0#5 0#5) ∧
    0xFC1FFFFF#32 &&& rowMask (.sll 1#5 2#5 3#5) ≠ rowMatch (.sll 1#5 2#5 3#5) ∧
    0x03FFFFC0#32 &&& rowMask (.sll 1#5 2#5 3#5) = rowMatch (.sll 1#5 2#5 3#5) := by decide

theorem witness_ReservedWordsAreThoseListedAndRaiseRI :
    (∀ w ∈ [0x50000000#32, 0x7FFFFFFF#32, 0x9C000000#32, 0xB0000000#32, 0xB4000000#32, 0xBC000000#32, 0xD0000000#32,
        0xDC000000#32, 0xF0000000#32, 0xFFFFFFFF#32, 0x00000001#32, 0x0000003F#32, 0x041F0000#32, 0x40400000#32,
        0x42000001#32], ReservedWord w) ∧
    ∀ w ∈ [0#32, 0x42000010#32], ¬ ReservedWord w := by
  simp [ReservedWord]

/-- The last word of main memory, the first and last of scratch, the first and last of firmware, and a handler's. -/
theorem witness_StepRunsTheDecodedInstruction :
    (∀ a ∈ [0x801FFFFC#32, 0x9F800000#32, 0x9F8003FC#32, 0xBFC00000#32, 0xBFC7FFFC#32],
      let s := start a 0x00221820#32 []; MapOrdered s ∧ WordAtPc s.pollInput.beginStep 0x00221820#32) ∧
    (∀ a ∈ [0x100003FC#32, 0x1807FFFC#32],
      let s := startElsewhere a 0x00221820#32; MapOrdered s ∧ WordAtPc s.pollInput.beginStep 0x00221820#32) ∧
    (let s := withHandler (start 0xBF801000#32 0#32 []) [.value 0x00221820#32];
      let b := s.pollInput.beginStep;
      MapOrdered s ∧ b.pc.toNat % 4 = 0 ∧ Handled b (physical b.pc) ∧ b.nextReply = .value 0x00221820#32) ∧
    decode 0x00221820#32 = .instr (.add 3#5 1#5 2#5) := by
  simp only [WordAtPc, InMain, InScratch, InFirmware, Handled, InIo, MapOrdered, List.forall_mem_cons]
  refine ⟨⟨?_, ?_, ?_, ?_, ?_, by simp⟩, ⟨?_, ?_, by simp⟩, ?_, ?_⟩ <;> decide

theorem witness_AgeingMovesTheDelayBufferAndMarker :
    busy.ldCommit = some ⟨31#5, 9#32⟩ ∧ State.reset.ldCommit = none := by decide

theorem witness_FaultingFetchRaisesAndExecutesNothing :
    (let b := (start 0x80000102#32 0#32 []).pollInput.beginStep; b.pc.toNat % 4 ≠ 0) ∧
    (let b := (start 0x00200000#32 0#32 []).pollInput.beginStep;
      b.pc.toNat % 4 = 0 ∧ Unclaimed b (physical b.pc)) ∧
    (let b := (withHandler (start 0x1F801004#32 0#32 []) []).pollInput.beginStep;
      b.pc.toNat % 4 = 0 ∧ Unclaimed b (physical b.pc)) ∧
    (let b := (withHandler (start 0x1F801000#32 0#32 []) [.fault]).pollInput.beginStep;
      b.pc.toNat % 4 = 0 ∧ Handled b (physical b.pc) ∧ b.nextReply = .fault) ∧
    MapOrdered (withHandler (start 0x1F801000#32 0#32 []) [.fault]) := by
  simp only [Unclaimed, InMain, InScratch, InFirmware, Handled, InIo, MapOrdered]; decide

/-- Taken: the external line, a software bit at each end of the mask. Not taken: disabled, or masked. -/
theorem witness_PollTakesAnEnabledPendingInterrupt :
    (let takes := fun (s : State) (irq : Bool) =>
        let c := s.c0Set 13#5 ((s.cause &&& ~~~0x400#32) ||| (if irq then 0x400#32 else 0#32));
        c.sr.getLsbD 0 = true ∧ ∃ k, k < 16 ∧ 8 ≤ k ∧ c.sr.getLsbD k = true ∧ c.cause.getLsbD k = true;
      takes (withSr State.reset 0x401#32) true ∧ takes ((withSr State.reset 0x101#32).c0Set 13#5 0x100#32) false ∧
        takes ((withSr State.reset 0x8001#32).c0Set 13#5 0x8000#32) false ∧ ¬ takes (withSr State.reset 0x400#32) true ∧
        ¬ takes (withSr State.reset 0x101#32) true) := by decide

theorem witness_ProgramCounterFlow : (∃ t, stepOnly busy = .next t) ∧ ∃ t, stepOnly State.reset = .next t :=
  ⟨⟨_, rfl⟩, _, rfl⟩

/-- The slot instruction is an ADD that overflows, or one that does not. -/
theorem witness_DelaySlotRunsBeforeTheTarget :
    (let s := { one 0x00221820#32 [(1#5, 0x7FFFFFFF#32), (2#5, 1#32)] with npc := 0x80000200#32, dsNext := true };
      s.dsNext = true ∧ WordAtPc s.beginStep 0x00221820#32 ∧ decode 0x00221820#32 = .instr (.add 3#5 1#5 2#5) ∧
        transfers (.add 3#5 1#5 2#5) = false ∧ ∃ t, stepOnly s = .next t) ∧
    (let s := { one 0x00221820#32 [] with npc := 0x80000200#32, dsNext := true };
      s.dsNext = true ∧ WordAtPc s.beginStep 0x00221820#32 ∧ ∃ t, stepOnly s = .next t) ∧
    MapOrdered (one 0x00221820#32 []) := by
  simp only [WordAtPc, InMain, InScratch, InFirmware, MapOrdered]
  exact ⟨⟨trivial, by decide, by decide, rfl, _, rfl⟩, ⟨trivial, by decide, _, rfl⟩, by decide⟩

/-- The instruction in between writes the loaded register, or another. -/
theorem witness_LoadedValueIsSeenTwoStepsLater :
    (∀ s ∈ [{ one 0x00401820#32 [] with ldArmed := some ⟨2#5, 7#32⟩ },
        { one 0x24020003#32 [] with ldArmed := some ⟨2#5, 7#32⟩ }],
      (2#5 : Reg) ≠ 0#5 ∧ s.ldArmed = some ⟨2#5, 7#32⟩ ∧ s.ldCommit = none) ∧
    (let s := { one 0x00401820#32 [] with ldArmed := some ⟨2#5, 7#32⟩ };
      WordAtPc s.beginStep 0x00401820#32 ∧ decode 0x00401820#32 = .instr (.add 3#5 2#5 0#5) ∧ ∃ t, stepOnly s = .next t) ∧
    (let s := { one 0x24020003#32 [] with ldArmed := some ⟨2#5, 7#32⟩ };
      WordAtPc s.beginStep 0x24020003#32 ∧ decode 0x24020003#32 = .instr (.addiu 2#5 0#5 3#16) ∧
        ∃ t, stepOnly s = .next t) ∧
    MapOrdered (one 0x24020003#32 []) := by
  simp only [WordAtPc, InMain, InScratch, InFirmware, MapOrdered]
  exact ⟨by decide, ⟨by decide, by decide, _, rfl⟩, ⟨by decide, by decide, _, rfl⟩, by decide⟩

/-- The vectors are the default ones, with the boot-exception-vector bit set and clear, also with a handler registered. -/
theorem witness_ExceptionEntrySavesAndVectors :
    (∀ s ∈ [State.reset, withSr State.reset 0#32, withHandler State.reset []],
      s.params.vecBoot = Config.defaults.vecBoot ∧ s.params.vecGeneral = Config.defaults.vecGeneral) ∧
    State.reset.sr.getLsbD 22 = true ∧ (withSr State.reset 0#32).sr.getLsbD 22 = false := by decide

/-- A configuration with the default bases and a handler map of its own; one with other bases. -/
theorem witness_DefaultConfigurationIsThatOfTheSpec :
    (let c := { Config.defaults with ioMap := [⟨0x1F801000, 4⟩], vecBoot := 0#32 };
      c.scratchBase = Config.defaults.scratchBase ∧ c.ioBase = Config.defaults.ioBase ∧
        c.fwBase = Config.defaults.fwBase) ∧ elsewhere.scratchBase ≠ Config.defaults.scratchBase := by decide

/-- Sums, differences and immediates at the last value that fits and the first that does not, at both ends. -/
theorem witness_CheckedArithmeticWritesOrTraps :
    (let fits := fun e : Int => -2 ^ 31 ≤ e ∧ e ≤ 2 ^ 31 - 1;
      let s := one 0#32 [(1#5, 0x7FFFFFFF#32), (2#5, 1#32), (3#5, 0x80000000#32)];
      fits ((s.reg 1#5).toInt + (s.reg 0#5).toInt) ∧ ¬ fits ((s.reg 1#5).toInt + (s.reg 2#5).toInt) ∧
      fits ((s.reg 3#5).toInt - (s.reg 0#5).toInt) ∧ ¬ fits ((s.reg 3#5).toInt - (s.reg 2#5).toInt) ∧
      fits ((s.reg 3#5).toInt + (0#16).toInt) ∧ ¬ fits ((s.reg 3#5).toInt + (0xFFFF#16).toInt)) := by decide

/-- Each condition met and not met, at the values around zero and at the least one. -/
theorem witness_BranchesTransferOnTheirCondition :
    (let s := one 0#32 [(1#5, 1#32), (2#5, 0x80000000#32), (3#5, 0xFFFFFFFF#32)];
      s.reg 1#5 = s.reg 1#5 ∧ s.reg 1#5 ≠ s.reg 0#5 ∧ (s.reg 0#5).toInt ≤ 0 ∧ ¬ (s.reg 1#5).toInt ≤ 0 ∧
      (s.reg 1#5).toInt > 0 ∧ ¬ (s.reg 0#5).toInt > 0 ∧ (s.reg 3#5).toInt < 0 ∧ (s.reg 2#5).toInt < 0 ∧
      ¬ (s.reg 0#5).toInt < 0 ∧ (s.reg 0#5).toInt ≥ 0 ∧ ¬ (s.reg 3#5).toInt ≥ 0) := by decide

theorem witness_LinkingBranchesAlwaysLink :
    (let s := one 0#32 [(3#5, 0xFFFFFFFF#32)];
      (s.reg 3#5).toInt < 0 ∧ ¬ (s.reg 0#5).toInt < 0 ∧ (s.reg 0#5).toInt ≥ 0 ∧ ¬ (s.reg 3#5).toInt ≥ 0) := by decide

/-- Base registers at the ends of the regions: main memory, scratch, firmware. -/
def bases : State :=
  one 0#32 [(1#5, 0xA01FFFFC#32), (2#5, 0x1F800000#32), (3#5, 0xBFC7FFFC#32), (4#5, 0x1F8003FF#32), (5#5, 0x001FFFFF#32),
    (6#5, 0x1F801000#32), (7#5, 0x1F800400#32), (8#5, 0xBFC00000#32), (9#5, 0x1F801001#32), (10#5, 0x1F802000#32)]

/-- Its memory map, and that of any state with its parameters, is ordered. -/
theorem bases_ordered : MapOrdered bases := by simp only [MapOrdered]; decide

/-- For every operation: an aligned address in each of the three memories. -/
theorem witness_LoadsDeliverMemoryLater :
    (∀ op ∈ [LoadOp.lb, .lbu, .lh, .lhu, .lw], ∀ rs ∈ [1#5, 2#5, 3#5],
      let a := address bases 0#16 rs;
      a.toNat % op.bytes = 0 ∧ (InMain (physical a) ∨ InScratch bases (physical a) ∨ InFirmware bases (physical a))) ∧
    (∀ op ∈ [LoadOp.lb, .lbu], ∀ rs ∈ [4#5, 5#5],
      let a := address bases 0#16 rs;
      a.toNat % op.bytes = 0 ∧ (InMain (physical a) ∨ InScratch bases (physical a) ∨ InFirmware bases (physical a))) ∧
    MapOrdered bases := by
  refine ⟨?_, ?_, bases_ordered⟩ <;> (simp only [InMain, InScratch, InFirmware]; decide)

/-- The value in flight is a pending load's, or the register's. -/
theorem witness_UnalignedLoadsMergeMemoryLater :
    (∀ rs ∈ [1#5, 2#5, 3#5, 4#5, 5#5],
      let p := physical (wordOf (address bases 0#16 rs));
      InMain p ∨ InScratch bases p ∨ InFirmware bases p) ∧
    InFlight { bases with ldCommit := some ⟨2#5, 7#32⟩ } 2#5 7#32 ∧ InFlight bases 2#5 (bases.reg 2#5) ∧
    MapOrdered bases := by
  simp only [InMain, InScratch, InFirmware]
  exact ⟨by decide, Or.inl rfl, Or.inr ⟨by simp [bases, one, start, State.reset], rfl⟩, bases_ordered⟩

theorem witness_UnclaimedLoadsReadZeroAndLog :
    (∀ op ∈ [LoadOp.lb, .lbu, .lh, .lhu, .lw], ∀ rs ∈ [6#5, 7#5],
      let a := address bases 0#16 rs;
      a.toNat % op.bytes = 0 ∧ Unclaimed bases (physical a)) ∧
    (∀ rs ∈ [6#5, 7#5, 9#5], Unclaimed bases (physical (wordOf (address bases 0#16 rs)))) ∧
    InFlight bases 2#5 (bases.reg 2#5) := by
  simp only [Unclaimed, InMain, InScratch, InFirmware, Handled, InIo]
  exact ⟨by decide, by decide, Or.inr ⟨by simp [bases, one, start, State.reset], rfl⟩⟩

/-- Also of `HandlerStoresCallOrRaiseDBE` (whose operations are the same widths). -/
theorem witness_HandlerLoadsDeliverOrRaiseDBE :
    (∀ op ∈ [LoadOp.lb, .lbu, .lh, .lhu, .lw], ∀ r ∈ [Config.IoReply.value 0x80#32, .fault],
      let s := withHandler bases [r];
      let a := address s 0#16 6#5;
      a.toNat % op.bytes = 0 ∧ Handled s (physical a) ∧ s.nextReply = r) ∧
    (∀ r ∈ [Config.IoReply.value 0x80#32, .fault],
      let s := withHandler bases [r];
      Handled s (physical (wordOf (address s 0#16 9#5))) ∧ s.nextReply = r) ∧
    InFlight (withHandler bases [.fault]) 2#5 (bases.reg 2#5) ∧ ∀ rs, MapOrdered (withHandler bases rs) := by
  simp only [Handled, InIo]
  exact ⟨by decide, by decide, Or.inr ⟨by simp [withHandler, bases, one, start, State.reset], rfl⟩, fun _ => bases_ordered⟩

theorem witness_MisalignedAccessRaisesAddressError :
    (∀ op ∈ [LoadOp.lh, .lhu, .lw], (address bases 0#16 5#5).toNat % op.bytes ≠ 0) ∧
    (∀ op ∈ [StoreOp.sh, .sw], (address bases 0#16 9#5).toNat % op.bytes ≠ 0) ∧
    (address bases 2#16 6#5).toNat % LoadOp.lw.bytes ≠ 0 := by decide

theorem witness_StoresWriteExactlyTheirBytes :
    (∀ op ∈ [StoreOp.sb, .sh, .sw], ∀ rs ∈ [1#5, 2#5],
      let a := address bases 0#16 rs;
      a.toNat % op.bytes = 0 ∧ (InMain (physical a) ∨ InScratch bases (physical a))) ∧
    (let a := address bases 0#16 4#5; a.toNat % StoreOp.sb.bytes = 0 ∧ InScratch bases (physical a)) := by
  simp only [InMain, InScratch]; decide

theorem witness_UnalignedStoresWriteTheSelectedBytes :
    ∀ rs ∈ [1#5, 2#5, 4#5, 5#5],
      let p := physical (wordOf (address bases 0#16 rs));
      InMain p ∨ InScratch bases p := by
  simp only [InMain, InScratch]; decide

theorem witness_DiscardedStoresChangeNothingAndLog :
    (∀ op ∈ [StoreOp.sb, .sh, .sw], ∀ rs ∈ [3#5, 8#5],
      let a := address bases 0#16 rs; a.toNat % op.bytes = 0 ∧ InFirmware bases (physical a)) ∧
    (∀ op ∈ [StoreOp.sb, .sh, .sw], ∀ rs ∈ [6#5, 7#5, 10#5],
      let a := address bases 0#16 rs; a.toNat % op.bytes = 0 ∧ Unclaimed bases (physical a)) ∧
    (∀ rs ∈ [3#5, 8#5], InFirmware bases (physical (wordOf (address bases 0#16 rs)))) ∧
    (∀ rs ∈ [6#5, 7#5, 9#5], Unclaimed bases (physical (wordOf (address bases 0#16 rs)))) ∧ MapOrdered bases := by
  refine ⟨?_, ?_, ?_, ?_, bases_ordered⟩ <;>
    (simp only [Unclaimed, InMain, InScratch, InFirmware, Handled, InIo]; decide)

theorem witness_HandlerStoresCallOrRaiseDBE :
    (∀ op ∈ [StoreOp.sb, .sh, .sw], ∀ r ∈ [Config.IoReply.value 0#32, .fault],
      let s := withHandler bases [r];
      let a := address s 0#16 6#5;
      a.toNat % op.bytes = 0 ∧ Handled s (physical a) ∧ s.nextReply = r) ∧
    ∀ rs, MapOrdered (withHandler bases rs) := by
  refine ⟨?_, fun _ => bases_ordered⟩
  simp only [Handled, InIo]; decide

theorem witness_UnalignedHandlerStoresReadThenWrite :
    (let s := withHandler bases [.fault];
      Handled s (physical (wordOf (address s 0#16 9#5))) ∧ s.nextReply = .fault) ∧
    (∀ r ∈ [Config.IoReply.value 0#32, .fault],
      let s := withHandler bases [.value 5#32, r];
      Handled s (physical (wordOf (address s 0#16 9#5))) ∧ s.nextReply = .value 5#32 ∧ secondReply s = r) ∧
    ∀ rs, MapOrdered (withHandler bases rs) := by
  refine ⟨?_, ?_, fun _ => bases_ordered⟩ <;> (simp only [Handled, InIo]; decide)

theorem witness_MirroredAddressesNameTheSameByte :
    (0x00001000#32).extractLsb' 0 29 = (0xA0001000#32).extractLsb' 0 29 ∧
    (0x1FFFFFFF#32).extractLsb' 0 29 = (0xFFFFFFFF#32).extractLsb' 0 29 ∧
    ¬ Handled State.reset (physical 0x00001000#32) ∧ ¬ Handled State.reset (physical 0x1F801000#32) := by
  simp only [Handled, InIo]; decide

theorem witness_WrittenWordIsReadBackAndFetched :
    (0x801FFFFC#32).toNat % 4 = 0 ∧ physical 0x801FFFFC#32 = physical 0x001FFFFC#32 ∧ InMain (physical 0x801FFFFC#32) ∧
    (0x9F8003FC#32).toNat % 4 = 0 ∧ physical 0x9F8003FC#32 = physical 0x1F8003FC#32 ∧
    InScratch State.reset (physical 0x9F8003FC#32) := by
  simp only [InMain, InScratch]; decide

/-- The step is a store to firmware's first byte, which is discarded. -/
theorem witness_FirmwareIsImmutable :
    (let s := one 0xA0220000#32 [(1#5, 0xBFC00000#32), (2#5, 0xEF#32)];
      (∃ t, step s = .next t) ∧ MapOrdered s ∧ InFirmware s 0x1FC00000 ∧ InFirmware s 0x1FC7FFFF) := by
  simp only [InFirmware, MapOrdered]
  exact ⟨⟨_, rfl⟩, by decide, by decide, by decide⟩

/-- Numerator and denominator of each of the three clauses, at the ends of the range. -/
theorem witness_SignedDivisionCorners :
    (let s := one 0#32 [(1#5, 0x80000000#32), (2#5, 0xFFFFFFFF#32), (3#5, 0x7FFFFFFF#32), (4#5, 1#32)];
      (s.reg 0#5).toInt = 0 ∧ (s.reg 3#5).toInt ≥ 0 ∧ (s.reg 1#5).toInt = -2 ^ 31 ∧ (s.reg 2#5).toInt = -1 ∧
      ((s.reg 4#5).toInt ≠ 0 ∧ ¬ ((s.reg 1#5).toInt = -2 ^ 31 ∧ (s.reg 4#5).toInt = -1)) ∧
      ((s.reg 2#5).toInt ≠ 0 ∧ ¬ ((s.reg 3#5).toInt = -2 ^ 31 ∧ (s.reg 2#5).toInt = -1))) := by decide

theorem witness_UnsignedDivision :
    (let s := one 0#32 [(1#5, 0xFFFFFFFF#32)]; (s.reg 0#5).toNat = 0 ∧ (s.reg 1#5).toNat ≠ 0) := by decide

/-- Of the whole-machine statements: an instruction that answers a next state, and what the statement asks of it. -/
theorem witness_OnlyTheDestinationRegisterChanges :
    (∃ t, exec (.addiu 2#5 1#5 5#16) busy = .next t) ∧ writesReg (.addiu 2#5 1#5 5#16) ≠ some 3#5 ∧
    writesReg (.lw 2#5 0#16 1#5) ≠ some 2#5 := ⟨⟨_, rfl⟩, by decide⟩

theorem witness_OnlyMultiplyDivideTouchAccumulators :
    (∃ t, exec (.mfhi 2#5) busy = .next t) ∧ writesAcc (.mfhi 2#5) = false := ⟨⟨_, rfl⟩, rfl⟩

theorem witness_OnlyStoresChangeMemory :
    (∃ t, exec (.lw 2#5 0#16 0#5) busy = .next t) ∧ stores (.lw 2#5 0#16 0#5) = false ∧
    (∃ t, exec (.sb 1#5 0x2000#16 0#5) busy = .next t ∧ t.mem.read 0x2000 ≠ busy.mem.read 0x2000) ∧ MapOrdered busy :=
  ⟨⟨_, rfl⟩, rfl, ⟨_, rfl, by decide⟩, by simp only [MapOrdered]; decide⟩

theorem witness_OnlyMtc0WritesOpaqueControlState :
    (∃ t, exec (.syscall 0#20) busy = .next t) ∧ (∀ rt, Instr.syscall 0#20 ≠ .mtc0 rt 12#5) ∧
    (∃ t, exec (.mtc0 1#5 13#5) busy = .next t) ∧ (∀ rt, Instr.mtc0 1#5 13#5 ≠ .mtc0 rt 12#5) :=
  ⟨⟨_, rfl⟩, by simp, ⟨_, rfl⟩, by simp⟩

theorem witness_PrivilegeBitHasNoEffect :
    (∀ rt, Instr.mtc0 1#5 12#5 ≠ .mfc0 rt 12#5) ∧ (∃ t, exec (.mtc0 1#5 12#5) busy = .next t) ∧
    (∀ rt, Instr.mfc0 1#5 13#5 ≠ .mfc0 rt 12#5) ∧ ∃ t, exec (.mfc0 1#5 13#5) busy = .next t :=
  ⟨by simp, ⟨_, rfl⟩, by simp, _, rfl⟩

/-- A step that logs: the load of an unmapped address. -/
theorem witness_LogIsASideChannel :
    ∃ t, step (one 0x8C220000#32 [(1#5, 0x1F801000#32)]) = .next t := ⟨_, rfl⟩

/-- The fetch reads firmware, or main memory; or has to be moved, from an unmapped or a misaligned address or
an unmapped vector. -/
theorem witness_PlacedInstructionIsRun :
    decode 0x3C081234#32 = .instr (.lui 8#5 0x1234#16) ∧ ¬ Handled State.reset (physical State.reset.fetchAddr) ∧
    ¬ Handled busy (physical busy.fetchAddr) ∧
    (let s := start 0x1F801000#32 0#32 []; ¬ Handled s (physical s.fetchAddr)) ∧
    (let s := start 0x80000102#32 0#32 []; ¬ Handled s (physical s.fetchAddr)) ∧
    (let s := { withSr { State.reset with params := elsewhere } 0x400401#32 with irqIn := [true] };
      s.fetchAddr = 0x00200180#32 ∧ ¬ Handled s (physical s.fetchAddr)) := by
  simp only [Handled, InIo]; decide

end Sys2Proof.Tests
end

section
/-! SUPPORT. The words the decoder refuses, table by table (30_encoding.md R74 to R80), and what executing one of them does
(49_system.md R219). -/

namespace Sys2Proof.Proofs

open Sys2Proof Sys2Proof.Machine Sys2Proof.Claims

/-! ### The lists of R80, one for each table of the decoder -/

/-- The primary operation codes that R74 marks reserved. -/
def ReservedOp (op : Nat) : Prop :=
  (0x14 ≤ op ∧ op ≤ 0x1F) ∨ op = 0x27 ∨ op = 0x2C ∨ op = 0x2D ∨ op = 0x2F ∨ (0x34 ≤ op ∧ op ≤ 0x37) ∨
    (0x3C ≤ op ∧ op ≤ 0x3F)

/-- The function codes under SPECIAL that R75 marks reserved. -/
def ReservedFunct (funct : Nat) : Prop :=
  funct = 0x01 ∨ funct = 0x05 ∨ funct = 0x0A ∨ funct = 0x0B ∨ funct = 0x0E ∨ funct = 0x0F ∨
    (0x14 ≤ funct ∧ funct ≤ 0x17) ∨ (0x1C ≤ funct ∧ funct ≤ 0x1F) ∨ funct = 0x28 ∨ funct = 0x29 ∨
    (0x2C ≤ funct ∧ funct ≤ 0x3F)

/-- R80's list is put together from the lists of the four tables. -/
theorem reservedWord_iff (w : Word) :
    ReservedWord w ↔
      ReservedOp (fieldOp w).toNat ∨ (fieldOp w = 0x00#6 ∧ ReservedFunct (fieldFunct w).toNat) ∨
      (fieldOp w = 0x01#6 ∧ fieldRt w ≠ 0x00#5 ∧ fieldRt w ≠ 0x01#5 ∧ fieldRt w ≠ 0x10#5 ∧ fieldRt w ≠ 0x11#5) ∨
      (fieldOp w = 0x10#6 ∧ fieldRs w ≠ 0x00#5 ∧ fieldRs w ≠ 0x04#5 ∧
        ¬ (fieldRs w = 0x10#5 ∧ fieldFunct w = 0x10#6)) := by
  simp only [ReservedWord, ReservedOp, ReservedFunct, ← BitVec.toNat_inj, ne_eq, toNat_fieldOp, toNat_fieldRs,
    toNat_fieldRt, toNat_fieldFunct, BitVec.toNat_ofNat, or_assoc]

/-! ### What each table of the decoder refuses -/

/-- R75: SPECIAL refuses exactly the function codes marked reserved. -/
theorem decodeSpecial_reserved_iff (w : Word) :
    (∃ why, decodeSpecial w = .reserved why) ↔ ReservedFunct (fieldFunct w).toNat := by
  unfold ReservedFunct
  fun_cases decodeSpecial w
  case case29 =>
    refine iff_of_true ⟨_, rfl⟩ ?_
    have := (fieldFunct w).isLt
    simp only [imp_false, ← BitVec.toNat_inj, BitVec.toNat_ofNat] at *
    omega
  all_goals simp [*]

/-- R76: REGIMM refuses exactly the words whose `rt` is none of the four branches'. -/
theorem decodeRegimm_reserved_iff (w : Word) :
    (∃ why, decodeRegimm w = .reserved why) ↔
      fieldRt w ≠ 0x00#5 ∧ fieldRt w ≠ 0x01#5 ∧ fieldRt w ≠ 0x10#5 ∧ fieldRt w ≠ 0x11#5 := by
  fun_cases decodeRegimm w
  case case5 h0 h1 h10 h11 => exact iff_of_true ⟨_, rfl⟩ ⟨h0, h1, h10, h11⟩
  all_goals simp [*]

/-- R77: COP0 refuses exactly the words that are none of MFC0, MTC0 and RFE. -/
theorem decodeCop0_reserved_iff (w : Word) :
    (∃ why, decodeCop0 w = .reserved why) ↔
      fieldRs w ≠ 0x00#5 ∧ fieldRs w ≠ 0x04#5 ∧ ¬ (fieldRs w = 0x10#5 ∧ fieldFunct w = 0x10#6) := by
  fun_cases decodeCop0 w
  case case5 h0 h4 h10 => exact iff_of_true ⟨_, rfl⟩ ⟨h0, h4, fun h => h10 h.1⟩
  all_goals simp [*]

/-- R80: the decoder refuses exactly the listed words. -/
theorem decode_reserved_iff (w : Word) : (∃ why, decode w = .reserved why) ↔ ReservedWord w := by
  rw [reservedWord_iff]
  unfold ReservedOp
  fun_cases decode w
  case case1 h => simp [h, decodeSpecial_reserved_iff]
  case case2 h => simp [h, decodeRegimm_reserved_iff]
  case case17 h => simp [h, decodeCop0_reserved_iff]
  case case41 =>
    refine iff_of_true ⟨_, rfl⟩ (.inl ?_)
    have := (fieldOp w).isLt
    simp only [imp_false, ← BitVec.toNat_inj, BitVec.toNat_ofNat] at *
    omega
  all_goals simp [*]

/-! ### What executing a reserved word does -/

/-- R219: a refused word logs itself at `cur_pc` and raises RI, from the advanced program counters. -/
theorem runWord_of_decode_reserved {w : Word} {why : Reserved} (h : decode w = .reserved why) (s : State) :
    runWord w s = .next ((s.advance.logEvent (.reservedInstruction s.curPc w)).raise .ri) := by
  simp only [runWord, h, execReserved, advance_curPc]

/-- Exception entry after a log event is exception entry: the log is not part of the core. -/
theorem enteredFrom_logEvent_raise (s : State) (ev : LogEvent) (e : Exc) :
    EnteredFrom s ((s.logEvent ev).raise e) e s.curPc s.dsCur :=
  enteredFrom_raise (s.logEvent ev) e

/-- An event logged before an exception is the only thing that happens outside the core. -/
theorem logged_logEvent_raise (s : State) (ev : LogEvent) (e : Exc) : Logged s ((s.logEvent ev).raise e) [ev] :=
  sameOutside_raise (s.logEvent ev) e

/-- Settles O9: the decoder's tables refuse exactly what R80 lists, and a refused word logs itself and enters RI. -/
theorem reservedWordsAreThoseListedAndRaiseRI : Obligations.ReservedWordsAreThoseListedAndRaiseRI := by
  refine ⟨decode_reserved_iff, fun w s hw => ?_⟩
  obtain ⟨why, hwhy⟩ := (decode_reserved_iff w).2 hw
  exact ⟨_, runWord_of_decode_reserved hwhy s, enteredFrom_logEvent_raise s.advance _ .ri,
    logged_logEvent_raise s.advance _ .ri⟩

end Sys2Proof.Proofs
end

section
/-! SUPPORT. The fields of a register-format and of an immediate-format word, read back in the words of the statements
(30_encoding.md R71), and which table of the decoder reads such a word (R73, R75). -/

namespace Sys2Proof.Proofs

open Sys2Proof Sys2Proof.Machine Sys2Proof.Claims

section
variable (op fn : BitVec 6) (rs rt rd : Reg) (sh : BitVec 5) (imm : Half)

@[simp] theorem fieldOp_wordR : fieldOp (wordR rs rt rd sh fn) = 0x00#6 := fieldOp_encodeR ..
@[simp] theorem fieldRs_wordR : fieldRs (wordR rs rt rd sh fn) = rs := fieldRs_encodeR 0x00#6 ..
@[simp] theorem fieldRt_wordR : fieldRt (wordR rs rt rd sh fn) = rt := fieldRt_encodeR 0x00#6 ..
@[simp] theorem fieldRd_wordR : fieldRd (wordR rs rt rd sh fn) = rd := fieldRd_encodeR 0x00#6 ..
@[simp] theorem fieldShamt_wordR : fieldShamt (wordR rs rt rd sh fn) = sh := fieldShamt_encodeR 0x00#6 ..
@[simp] theorem fieldFunct_wordR : fieldFunct (wordR rs rt rd sh fn) = fn := fieldFunct_encodeR 0x00#6 ..

@[simp] theorem fieldOp_wordI : fieldOp (wordI op rs rt imm) = op := fieldOp_encodeI ..
@[simp] theorem fieldRs_wordI : fieldRs (wordI op rs rt imm) = rs := fieldRs_encodeI op ..
@[simp] theorem fieldRt_wordI : fieldRt (wordI op rs rt imm) = rt := fieldRt_encodeI op ..
@[simp] theorem fieldImm_wordI : fieldImm (wordI op rs rt imm) = imm := fieldImm_encodeI op ..

/-- A word whose `op` field is 0 is read by the table of function codes. -/
theorem encodes_wordR_iff (i : Instr) :
    Encodes (wordR rs rt rd sh fn) i ↔ decodeSpecial (wordR rs rt rd sh fn) = .instr i := by
  simp only [Encodes, decode, fieldOp_wordR]

end

end Sys2Proof.Proofs
end

section
/-! SUPPORT. Add and subtract (41_arithmetic.md R120 to R126): the value and the encoding of each instruction, and the two
ways a checked one can end. -/

namespace Sys2Proof.Proofs

open Sys2Proof Sys2Proof.Machine Sys2Proof.Claims

/-! ### Encodings -/

section
variable (rd rs rt : Reg) (imm : Half) (z : BitVec 5)

theorem encodes_add : Encodes (wordR rs rt rd z 0x20#6) (.add rd rs rt) := by
  simp [encodes_wordR_iff, decodeSpecial]
theorem encodes_addu : Encodes (wordR rs rt rd z 0x21#6) (.addu rd rs rt) := by
  simp [encodes_wordR_iff, decodeSpecial]
theorem encodes_sub : Encodes (wordR rs rt rd z 0x22#6) (.sub rd rs rt) := by
  simp [encodes_wordR_iff, decodeSpecial]
theorem encodes_subu : Encodes (wordR rs rt rd z 0x23#6) (.subu rd rs rt) := by
  simp [encodes_wordR_iff, decodeSpecial]
theorem encodes_addi : Encodes (wordI 0x08#6 rs rd imm) (.addi rd rs imm) := by
  simp [Encodes, decode]
theorem encodes_addiu : Encodes (wordI 0x09#6 rs rd imm) (.addiu rd rs imm) := by
  simp [Encodes, decode]

end

/-! ### Checked arithmetic: the two ways it can end (R120) -/

/-- The exact value is one that a 32-bit register can hold, read as signed. -/
def FitsSigned (e : Int) : Prop := -2 ^ 31 ≤ e ∧ e ≤ 2 ^ 31 - 1

/-- An instruction whose exact signed result is `e` writes it if it fits, and enters Ov if it does not. -/
def WritesOrTraps (i : Instr) (s : State) (rd : Reg) (e : Int) : Prop :=
  (FitsSigned e → ∃ v, WritesNow i s rd v ∧ v.toInt = e) ∧ (¬ FitsSigned e → Raises i s .ov)

section
variable {i : Instr} {s : State} {rd : Reg}

/-- An instruction that ends in a checked write, whose overflow test tells that `e` does not fit and whose value is `e`
when it does. -/
theorem writesOrTraps_of_checkedWrite {overflow : Bool} {v : Word} {e : Int}
    (hexec : exec i s = checkedWrite overflow rd v s) (hoverflow : overflow = true ↔ ¬ FitsSigned e)
    (hvalue : FitsSigned e → v.toInt = e) : WritesOrTraps i s rd e := by
  refine ⟨fun hfits => ⟨v, writesNow_of ?_, hvalue hfits⟩, fun hfits => raises_of ?_⟩
  · rw [hexec, checkedWrite, if_neg fun h => hoverflow.1 h hfits]
  · rw [hexec, checkedWrite, if_pos (hoverflow.2 hfits)]

theorem writesOrTraps_of_checkedAdd {a b : Word}
    (hexec : exec i s = checkedWrite (addOverflows a b) rd (a + b) s) : WritesOrTraps i s rd (a.toInt + b.toInt) :=
  writesOrTraps_of_checkedWrite hexec (addOverflows_iff a b) (toInt_add_of_fits a b)

theorem writesOrTraps_of_checkedSub {a b : Word}
    (hexec : exec i s = checkedWrite (subOverflows a b) rd (a - b) s) : WritesOrTraps i s rd (a.toInt - b.toInt) :=
  writesOrTraps_of_checkedWrite hexec (subOverflows_iff a b) (toInt_sub_of_fits a b)

end

section
variable (s : State) (rd rs rt : Reg) (imm : Half)

/-- ADD ends in the sum of both registers (R121). -/
theorem writesOrTraps_add : WritesOrTraps (.add rd rs rt) s rd ((s.reg rs).toInt + (s.reg rt).toInt) :=
  writesOrTraps_of_checkedAdd rfl

/-- SUB ends in the difference of both registers (R123). -/
theorem writesOrTraps_sub : WritesOrTraps (.sub rd rs rt) s rd ((s.reg rs).toInt - (s.reg rt).toInt) :=
  writesOrTraps_of_checkedSub rfl

/-- ADDI ends in the sum of the register and the signed immediate (R125). -/
theorem writesOrTraps_addi : WritesOrTraps (.addi rd rs imm) s rd ((s.reg rs).toInt + imm.toInt) := by
  rw [← toInt_sextImm imm]
  exact writesOrTraps_of_checkedAdd rfl

end

/-- Settles O21: the overflow test is the exact signed result not fitting, and it decides between the write and Ov. -/
theorem checkedArithmeticWritesOrTraps : Obligations.CheckedArithmeticWritesOrTraps := by
  intro s rd rs rt imm z
  obtain ⟨addFits, addTraps⟩ := writesOrTraps_add s rd rs rt
  obtain ⟨subFits, subTraps⟩ := writesOrTraps_sub s rd rs rt
  obtain ⟨addiFits, addiTraps⟩ := writesOrTraps_addi s rd rs imm
  exact ⟨encodes_add .., encodes_sub .., encodes_addi .., addFits, addTraps, subFits, subTraps, addiFits, addiTraps⟩

/-! ### Unchecked arithmetic: values modulo 2^32 -/

theorem toNat_sub_word (a b : Word) : (a - b).toNat = (2 ^ 32 + a.toNat - b.toNat) % 2 ^ 32 := by
  have hb := b.isLt
  rw [BitVec.toNat_sub, show 2 ^ 32 - b.toNat + a.toNat = 2 ^ 32 + a.toNat - b.toNat by omega]

/-- The immediate is added as a signed number (30_encoding.md R72). -/
theorem toNat_add_sextImm (a : Word) (imm : Half) :
    ((a + sextImm imm).toNat : Int) = (a.toNat + imm.toInt) % 2 ^ 32 := by
  have himm : ((sextImm imm).toNat : Int) = imm.toInt % 2 ^ 32 := by
    rw [sextImm_eq, BitVec.toNat_ofInt]
    omega
  rw [BitVec.toNat_add, Int.natCast_emod, Int.natCast_add, himm]
  exact Int.add_emod_emod ..

/-- Settles O20: each instruction ends in an immediate write of the wrapped sum or difference. -/
theorem uncheckedArithmeticWraps : Obligations.UncheckedArithmeticWraps := by
  intro s rd rs rt imm z
  exact ⟨encodes_addu .., encodes_subu .., encodes_addiu ..,
    ⟨_, writesNow_of rfl, BitVec.toNat_add ..⟩,
    ⟨_, writesNow_of rfl, toNat_sub_word ..⟩,
    ⟨_, writesNow_of rfl, toNat_add_sextImm ..⟩⟩

end Sys2Proof.Proofs
end

section
/-! SUPPORT. Logical instructions and LUI (42_logical.md R131 to R138): the encoding of each instruction, and the bits of the
immediate and of NOR. -/

namespace Sys2Proof.Proofs

open Sys2Proof Sys2Proof.Machine Sys2Proof.Claims

/-! ### Encodings -/

section
variable (rd rs rt : Reg) (imm : Half) (z : BitVec 5)

theorem encodes_and : Encodes (wordR rs rt rd z 0x24#6) (.and rd rs rt) := by
  simp [encodes_wordR_iff, decodeSpecial]
theorem encodes_or : Encodes (wordR rs rt rd z 0x25#6) (.or rd rs rt) := by
  simp [encodes_wordR_iff, decodeSpecial]
theorem encodes_xor : Encodes (wordR rs rt rd z 0x26#6) (.xor rd rs rt) := by
  simp [encodes_wordR_iff, decodeSpecial]
theorem encodes_nor : Encodes (wordR rs rt rd z 0x27#6) (.nor rd rs rt) := by
  simp [encodes_wordR_iff, decodeSpecial]
theorem encodes_andi : Encodes (wordI 0x0C#6 rs rt imm) (.andi rt rs imm) := by
  simp [Encodes, decode]
theorem encodes_ori : Encodes (wordI 0x0D#6 rs rt imm) (.ori rt rs imm) := by
  simp [Encodes, decode]
theorem encodes_xori : Encodes (wordI 0x0E#6 rs rt imm) (.xori rt rs imm) := by
  simp [Encodes, decode]
/-- The `rs` field of LUI is ignored (30_encoding.md R79). -/
theorem encodes_lui : Encodes (wordI 0x0F#6 z rt imm) (.lui rt imm) := by
  simp [Encodes, decode]

end

/-! ### The values -/

/-- NOR complements every bit of the OR (R134). -/
theorem getLsbD_not_or (a b : Word) {k : Nat} (hk : k < 32) :
    (~~~(a ||| b)).getLsbD k = !(a.getLsbD k || b.getLsbD k) := by
  simp [hk]

/-- The zero-extended immediate is the immediate below bit 16 and 0 from there on (30_encoding.md R72). -/
theorem getLsbD_zextImm (imm : Half) (k : Nat) :
    (zextImm imm).getLsbD k = (decide (k < 16) && imm.getLsbD k) := by
  rw [zextImm, BitVec.getLsbD_setWidth]
  by_cases hk : k < 16
  · simp [hk, show k < 32 by omega]
  · simp [hk, BitVec.getLsbD_of_ge imm k (by omega)]

/-- LUI's value has the immediate in its upper half and 0 below it (30_encoding.md R72). -/
theorem toNat_upperImm (imm : Half) : (upperImm imm).toNat = imm.toNat * 2 ^ 16 := by
  change (imm ++ 0x0000#16).toNat = _
  rw [BitVec.toNat_append, BitVec.toNat_zero, Nat.or_zero, Nat.shiftLeft_eq]

/-- Settles O22: each instruction ends in an immediate write of the bitwise operation on its sources. -/
theorem logicalCombinesBits : Obligations.LogicalCombinesBits := by
  intro s rd rs rt z
  exact ⟨encodes_and .., encodes_or .., encodes_xor .., encodes_nor ..,
    ⟨_, writesNow_of rfl, fun _ _ => BitVec.getLsbD_and⟩,
    ⟨_, writesNow_of rfl, fun _ _ => BitVec.getLsbD_or⟩,
    ⟨_, writesNow_of rfl, fun _ _ => BitVec.getLsbD_xor⟩,
    ⟨_, writesNow_of rfl, fun _ => getLsbD_not_or _ _⟩⟩

/-- Settles O23: each instruction ends in an immediate write, of the bitwise operation on the register and the
zero-extended immediate, or for LUI of the immediate moved to the upper half. -/
theorem logicalImmediatesZeroExtend : Obligations.LogicalImmediatesZeroExtend := by
  intro s rt rs imm z
  refine ⟨encodes_andi .., encodes_ori .., encodes_xori .., encodes_lui ..,
    ⟨_, writesNow_of rfl, fun k _ => ?andi⟩, ⟨_, writesNow_of rfl, fun k _ => ?ori⟩,
    ⟨_, writesNow_of rfl, fun k _ => ?xori⟩, ⟨_, writesNow_of rfl, toNat_upperImm imm⟩⟩
  case andi => rw [BitVec.getLsbD_and, getLsbD_zextImm, Bool.and_assoc]
  case ori => rw [BitVec.getLsbD_or, getLsbD_zextImm]
  case xori => rw [BitVec.getLsbD_xor, getLsbD_zextImm]

end Sys2Proof.Proofs
end

section
/-! SUPPORT. Shifts (43_shift.md R140 to R146): the encoding of each instruction; the values are those of
`toNat_shl`, `toNat_shr` and `toInt_sar`. -/

namespace Sys2Proof.Proofs

open Sys2Proof Sys2Proof.Machine Sys2Proof.Claims

/-! ### Encodings -/

section
variable (rd rt rs : Reg) (sa z : BitVec 5)

theorem encodes_sll : Encodes (wordR z rt rd sa 0x00#6) (.sll rd rt sa) := by
  simp [encodes_wordR_iff, decodeSpecial]
theorem encodes_srl : Encodes (wordR z rt rd sa 0x02#6) (.srl rd rt sa) := by
  simp [encodes_wordR_iff, decodeSpecial]
theorem encodes_sra : Encodes (wordR z rt rd sa 0x03#6) (.sra rd rt sa) := by
  simp [encodes_wordR_iff, decodeSpecial]
theorem encodes_sllv : Encodes (wordR rs rt rd z 0x04#6) (.sllv rd rt rs) := by
  simp [encodes_wordR_iff, decodeSpecial]
theorem encodes_srlv : Encodes (wordR rs rt rd z 0x06#6) (.srlv rd rt rs) := by
  simp [encodes_wordR_iff, decodeSpecial]
theorem encodes_srav : Encodes (wordR rs rt rd z 0x07#6) (.srav rd rt rs) := by
  simp [encodes_wordR_iff, decodeSpecial]

end

/-- Settles O24: each instruction ends in an immediate write of the shifted value; SRA's quotient is Lean's `/` on `Int`,
which for the positive divisor `2 ^ sa` rounds toward minus infinity. -/
theorem fixedShifts : Obligations.FixedShifts := by
  intro s rd rt sa z
  exact ⟨encodes_sll .., encodes_srl .., encodes_sra ..,
    ⟨_, writesNow_of rfl, toNat_shl ..⟩,
    ⟨_, writesNow_of rfl, toNat_shr ..⟩,
    ⟨_, writesNow_of rfl, toInt_sar ..⟩⟩

/-- Settles O25: each instruction ends in an immediate write of the value shifted by `varShift`, and `varShift` is the
amount register modulo 32. -/
theorem variableShiftsUseFiveBits : Obligations.VariableShiftsUseFiveBits := by
  intro s rd rt rs z n
  have hamount : (varShift (s.reg rs)).toNat = n := toNat_varShift _
  rw [← hamount]
  exact ⟨encodes_sllv .., encodes_srlv .., encodes_srav ..,
    ⟨_, writesNow_of rfl, toNat_shl ..⟩,
    ⟨_, writesNow_of rfl, toNat_shr ..⟩,
    ⟨_, writesNow_of rfl, toInt_sar ..⟩⟩

end Sys2Proof.Proofs
end

section
/-! SUPPORT. Compare-and-set (44_compare.md R150 to R154): the encoding of each instruction, the meaning of its comparison,
and the one way it writes the comparison's truth value. -/

namespace Sys2Proof.Proofs

open Sys2Proof Sys2Proof.Machine Sys2Proof.Claims

/-! ### Encodings -/

section
variable (rd rs rt : Reg) (imm : Half) (z : BitVec 5)

theorem encodes_slt : Encodes (wordR rs rt rd z 0x2A#6) (.slt rd rs rt) := by
  simp [encodes_wordR_iff, decodeSpecial]
theorem encodes_sltu : Encodes (wordR rs rt rd z 0x2B#6) (.sltu rd rs rt) := by
  simp [encodes_wordR_iff, decodeSpecial]
theorem encodes_slti : Encodes (wordI 0x0A#6 rs rd imm) (.slti rd rs imm) := by
  simp [Encodes, decode]
theorem encodes_sltiu : Encodes (wordI 0x0B#6 rs rd imm) (.sltiu rd rs imm) := by
  simp [Encodes, decode]

end

/-! ### The comparisons -/

theorem signedLt_iff (a b : Word) : signedLt a b = true ↔ a.toInt < b.toInt := decide_eq_true_iff

theorem unsignedLt_iff (a b : Word) : unsignedLt a b = true ↔ a.toNat < b.toNat := decide_eq_true_iff

/-- The sign-extended immediate keeps its signed value, so SLTI compares with the immediate itself (R153). -/
theorem signedLt_sextImm_iff (a : Word) (imm : Half) : signedLt a (sextImm imm) = true ↔ a.toInt < imm.toInt := by
  rw [signedLt_iff, toInt_sextImm]

/-- Read as unsigned, the sign-extended immediate is its signed value modulo 2^32: it is what the immediate adds to 0. -/
theorem toNat_sextImm (imm : Half) : ((sextImm imm).toNat : Int) = imm.toInt % 2 ^ 32 := by
  simpa using toNat_add_sextImm 0#32 imm

/-- SLTIU extends the sign first and compares as unsigned afterwards (R154). -/
theorem unsignedLt_sextImm_iff (a : Word) (imm : Half) :
    unsignedLt a (sextImm imm) = true ↔ (a.toNat : Int) < imm.toInt % 2 ^ 32 := by
  rw [unsignedLt_iff, ← toNat_sextImm, Int.ofNat_lt]

/-! ### The write -/

/-- An instruction that ends in an immediate write of a truth value writes 1 or 0 by what that truth value says (R150). -/
theorem writesNow_of_truthWord {i : Instr} {s : State} {rd : Reg} {b : Bool} {p : Prop} [Decidable p]
    (hexec : exec i s = .next (s.writeReg rd (truthWord b))) (hb : b = true ↔ p) :
    WritesNow i s rd (if p then 1#32 else 0#32) := by
  have hvalue : truthWord b = if p then 1#32 else 0#32 := by simp only [truthWord, hb]
  exact writesNow_of (hvalue ▸ hexec)

/-- Settles O26: each instruction ends in an immediate write of its comparison's truth value, and the comparison is the
one of the two operands in the instruction's reading. -/
theorem compareAndSetWritesOneOrZero : Obligations.CompareAndSetWritesOneOrZero := by
  intro s rd rs rt imm z
  exact ⟨encodes_slt .., encodes_sltu .., encodes_slti .., encodes_sltiu ..,
    writesNow_of_truthWord rfl (signedLt_iff ..),
    writesNow_of_truthWord rfl (unsignedLt_iff ..),
    writesNow_of_truthWord rfl (signedLt_sextImm_iff ..),
    writesNow_of_truthWord rfl (unsignedLt_sextImm_iff ..)⟩

end Sys2Proof.Proofs
end

section
/-! SUPPORT. Conditional branches (45_branch.md R160 to R168): the encoding and the condition of each instruction, and what a
branch, with or without a link, does in either case. -/

namespace Sys2Proof.Proofs

open Sys2Proof Sys2Proof.Machine Sys2Proof.Claims

/-! ### Encodings -/

section
variable (rs rt : Reg) (offset : Half) (z : BitVec 5)

theorem encodes_beq : Encodes (wordI 0x04#6 rs rt offset) (.beq rs rt offset) := by
  simp [Encodes, decode]
theorem encodes_bne : Encodes (wordI 0x05#6 rs rt offset) (.bne rs rt offset) := by
  simp [Encodes, decode]
/-- The `rt` field of BLEZ is ignored (30_encoding.md R79). -/
theorem encodes_blez : Encodes (wordI 0x06#6 rs z offset) (.blez rs offset) := by
  simp [Encodes, decode]
/-- The `rt` field of BGTZ is ignored (30_encoding.md R79). -/
theorem encodes_bgtz : Encodes (wordI 0x07#6 rs z offset) (.bgtz rs offset) := by
  simp [Encodes, decode]

/-- A word whose `op` field is 1 is read by the table of `rt` codes (30_encoding.md R76). -/
theorem encodes_regimm_iff (i : Instr) :
    Encodes (wordI 0x01#6 rs rt offset) i ↔ decodeRegimm (wordI 0x01#6 rs rt offset) = .instr i := by
  simp only [Encodes, decode, fieldOp_wordI]

theorem encodes_bltz : Encodes (wordI 0x01#6 rs 0x00#5 offset) (.bltz rs offset) := by
  simp [encodes_regimm_iff, decodeRegimm]
theorem encodes_bgez : Encodes (wordI 0x01#6 rs 0x01#5 offset) (.bgez rs offset) := by
  simp [encodes_regimm_iff, decodeRegimm]
theorem encodes_bltzal : Encodes (wordI 0x01#6 rs 0x10#5 offset) (.bltzal rs offset) := by
  simp [encodes_regimm_iff, decodeRegimm]
theorem encodes_bgezal : Encodes (wordI 0x01#6 rs 0x11#5 offset) (.bgezal rs offset) := by
  simp [encodes_regimm_iff, decodeRegimm]

end

/-! ### The conditions -/

section
variable (a : Word)

theorem lez_iff : lez a = true ↔ a.toInt ≤ 0 := decide_eq_true_iff
theorem gtz_iff : gtz a = true ↔ a.toInt > 0 := decide_eq_true_iff
theorem ltz_iff : ltz a = true ↔ a.toInt < 0 := decide_eq_true_iff
theorem gez_iff : gez a = true ↔ a.toInt ≥ 0 := decide_eq_true_iff

end

/-! ### A branch taken and not taken -/

/-- Taken, a branch is the transfer to the in-step `pc` plus four times the signed offset (R160). -/
theorem branchIf_true (s : State) (imm : Half) :
    s.branchIf true imm = s.jumpTo (s.pc + BitVec.ofInt 32 (4 * imm.toInt)) := by
  rw [← branchOffset_eq]; rfl

theorem branchIf_false (s : State) (imm : Half) : s.branchIf false imm = s := rfl

/-- A transfer that follows an operation which left the flow and everything outside the core alone is all that happened
to them. -/
theorem transferFrom_jumpTo_of_same {s t : State} (hflow : SameFlow s t) (houtside : SameOutside s t) (a : Word) :
    TransferFrom s (t.jumpTo a) a := by
  obtain ⟨hpc, -, hcurPc, hdsCur, -⟩ := hflow
  exact ⟨rfl, rfl, hpc, hcurPc, hdsCur, houtside⟩

/-- A register write stays one when a transfer follows it: the transfer touches no register, buffer, bank or memory. -/
theorem writtenFrom_jumpTo_iff {s t : State} {rd : Reg} {v : Word} (a : Word) :
    WrittenFrom s (t.jumpTo a) rd v ↔ WrittenFrom s t rd v := Iff.rfl

/-! ### Branches without a link (R161 to R166) -/

/-- On the condition `c` the instruction transfers control by the offset and does nothing else; otherwise it does nothing. -/
def BranchesOn (i : Instr) (s : State) (offset : Half) (c : Prop) : Prop :=
  (c → ∃ t, exec i s = .next t ∧ TransferFrom s t (s.pc + BitVec.ofInt 32 (4 * offset.toInt)) ∧
    SameRegs s t ∧ SameC0 s t ∧ SameAcc s t ∧ SameBuffer s t ∧ SameMem s t) ∧
  (¬ c → exec i s = .next s)

/-- An instruction that ends in a branch on the truth value of `c` branches on `c`. -/
theorem branchesOn_of_branchIf {i : Instr} {s : State} {offset : Half} {b : Bool} {c : Prop}
    (hexec : exec i s = .next (s.branchIf b offset)) (hb : b = true ↔ c) : BranchesOn i s offset c := by
  cases b with
  | true =>
    rw [branchIf_true] at hexec
    exact ⟨fun _ => ⟨_, hexec, transferFrom_jumpTo s _, fun _ => rfl, fun _ => rfl, ⟨rfl, rfl⟩, ⟨rfl, rfl⟩, fun _ => rfl⟩,
      fun hc => absurd (hb.1 rfl) hc⟩
  | false =>
    rw [branchIf_false] at hexec
    exact ⟨fun hc => absurd (hb.2 hc) Bool.false_ne_true, fun _ => hexec⟩

/-- Settles O27: each instruction ends in a branch on its comparison's truth value, and the comparison is the condition on
the register values. -/
theorem branchesTransferOnTheirCondition : Obligations.BranchesTransferOnTheirCondition := by
  intro s rs rt offset z
  exact ⟨encodes_beq .., encodes_bne .., encodes_blez .., encodes_bgtz .., encodes_bltz .., encodes_bgez ..,
    branchesOn_of_branchIf rfl beq_iff_eq,
    branchesOn_of_branchIf rfl bne_iff_ne,
    branchesOn_of_branchIf rfl (lez_iff _),
    branchesOn_of_branchIf rfl (gtz_iff _),
    branchesOn_of_branchIf rfl (ltz_iff _),
    branchesOn_of_branchIf rfl (gez_iff _)⟩

/-! ### Branches with a link (R167, R168) -/

/-- The instruction links register 31 in any case, on the condition `c` transfers control by the offset as well, and does
nothing else. -/
def LinksAndBranchesOn (i : Instr) (s : State) (offset : Half) (c : Prop) : Prop :=
  ∃ t, exec i s = .next t ∧ WrittenFrom s t 31#5 s.npc ∧
    (c → TransferFrom s t (s.pc + BitVec.ofInt 32 (4 * offset.toInt))) ∧
    (¬ c → SameFlow s t ∧ SameOutside s t)

/-- An instruction that ends in a linking branch on the truth value of `c`, taken before the link, links and branches
on `c`. -/
theorem linksAndBranchesOn_of_branchLink {i : Instr} {s : State} {offset : Half} {b : Bool} {c : Prop}
    (hexec : exec i s = .next (branchLink b offset s)) (hb : b = true ↔ c) : LinksAndBranchesOn i s offset c := by
  have hlink : WrittenFrom s (s.writeReg linkReg s.npc) 31#5 s.npc := writtenFrom_writeReg s _ _
  have hflow : SameFlow s (s.writeReg linkReg s.npc) := sameFlow_writeReg s _ _
  have houtside : SameOutside s (s.writeReg linkReg s.npc) := sameOutside_writeReg s _ _
  cases b with
  | true =>
    rw [branchLink, branchIf_true, writeReg_pc] at hexec
    exact ⟨_, hexec, (writtenFrom_jumpTo_iff _).2 hlink, fun _ => transferFrom_jumpTo_of_same hflow houtside _,
      fun hc => absurd (hb.1 rfl) hc⟩
  | false =>
    rw [branchLink, branchIf_false] at hexec
    exact ⟨_, hexec, hlink, fun hc => absurd (hb.2 hc) Bool.false_ne_true, fun _ => ⟨hflow, houtside⟩⟩

/-- Settles O28: both instructions end in a linking branch whose comparison reads the register before the link. -/
theorem linkingBranchesAlwaysLink : Obligations.LinkingBranchesAlwaysLink := by
  intro s rs offset
  exact ⟨encodes_bltzal .., encodes_bgezal ..,
    linksAndBranchesOn_of_branchLink rfl (ltz_iff _),
    linksAndBranchesOn_of_branchLink rfl (gez_iff _)⟩

end Sys2Proof.Proofs
end

section
/-! SUPPORT. Multiply, divide and the accumulator moves (48_muldiv.md R200 to R208): the encoding of each instruction, what
the two accumulators hold after it, and that nothing but them changes. -/

namespace Sys2Proof.Proofs

open Sys2Proof Sys2Proof.Machine Sys2Proof.Claims

/-! ### Encodings -/

section
variable (rd rs rt : Reg) (x y z : BitVec 5)

theorem encodes_mult : Encodes (wordR rs rt y z 0x18#6) (.mult rs rt) := by
  simp [encodes_wordR_iff, decodeSpecial]
theorem encodes_multu : Encodes (wordR rs rt y z 0x19#6) (.multu rs rt) := by
  simp [encodes_wordR_iff, decodeSpecial]
theorem encodes_div : Encodes (wordR rs rt y z 0x1A#6) (.div rs rt) := by
  simp [encodes_wordR_iff, decodeSpecial]
theorem encodes_divu : Encodes (wordR rs rt y z 0x1B#6) (.divu rs rt) := by
  simp [encodes_wordR_iff, decodeSpecial]
theorem encodes_mfhi : Encodes (wordR x y rd z 0x10#6) (.mfhi rd) := by
  simp [encodes_wordR_iff, decodeSpecial]
theorem encodes_mflo : Encodes (wordR x y rd z 0x12#6) (.mflo rd) := by
  simp [encodes_wordR_iff, decodeSpecial]
theorem encodes_mthi : Encodes (wordR rs x y z 0x11#6) (.mthi rs) := by
  simp [encodes_wordR_iff, decodeSpecial]
theorem encodes_mtlo : Encodes (wordR rs x y z 0x13#6) (.mtlo rs) := by
  simp [encodes_wordR_iff, decodeSpecial]

end

/-! ### The frame of a write to the accumulators (R200) -/

/-- From `s` to `t` nothing but the two accumulators changed. -/
def OnlyAccumulators (s t : State) : Prop :=
  SameRegs s t ∧ SameC0 s t ∧ SameBuffer s t ∧ SameMem s t ∧ SameFlow s t ∧ SameOutside s t

theorem onlyAccumulators_set (s : State) (hi lo : Word) : OnlyAccumulators s { s with hi := hi, lo := lo } :=
  ⟨fun _ => rfl, fun _ => rfl, ⟨rfl, rfl⟩, fun _ => rfl, ⟨rfl, rfl, rfl, rfl, rfl⟩, ⟨rfl, rfl, rfl, rfl, rfl⟩, rfl⟩

/-! ### The product (R201, R202) -/

/-- The accumulators of a product, put side by side, are the product. -/
theorem hi_append_lo_setProduct (s : State) (p : BitVec 64) :
    (s.setProduct p).hi ++ (s.setProduct p).lo = p := by
  have hjoin : p.extractLsb' 32 32 ++ p.extractLsb' 0 32 = p.extractLsb' 0 64 :=
    BitVec.extractLsb'_append_extractLsb'_eq_extractLsb' rfl
  exact hjoin.trans BitVec.extractLsb'_eq_self

theorem toInt_setProduct (s : State) (p : BitVec 64) :
    (s.setProduct p).hi.toInt * 2 ^ 32 + (s.setProduct p).lo.toNat = p.toInt := by
  conv_rhs => rw [← hi_append_lo_setProduct s p, BitVec.toInt_append]
  rw [if_neg (by decide), Int.mul_comm]

theorem toNat_setProduct (s : State) (p : BitVec 64) :
    (s.setProduct p).hi.toNat * 2 ^ 32 + (s.setProduct p).lo.toNat = p.toNat := by
  conv_rhs => rw [← hi_append_lo_setProduct s p, BitVec.toNat_append]
  rw [← Nat.shiftLeft_add_eq_or_of_lt (BitVec.isLt _), Nat.shiftLeft_eq]

/-- The product of two signed words fits 64 bits (R201). -/
theorem toInt_ofInt_mul (a b : Word) : (BitVec.ofInt 64 (a.toInt * b.toInt)).toInt = a.toInt * b.toInt := by
  have hlow : -2 ^ 62 ≤ a.toInt * b.toInt := BitVec.le_toInt_mul_toInt
  have hhigh : a.toInt * b.toInt ≤ 2 ^ 62 := BitVec.toInt_mul_toInt_le
  exact BitVec.toInt_ofInt_eq_self (by decide) (by omega) (by omega)

/-- The product of two unsigned words fits 64 bits (R202). -/
theorem toNat_ofNat_mul (a b : Word) : (BitVec.ofNat 64 (a.toNat * b.toNat)).toNat = a.toNat * b.toNat :=
  Nat.mod_eq_of_lt BitVec.toNat_mul_toNat_lt

/-- Settles O43: the accumulators are the two halves of a 64-bit product, and 64 bits hold the product exactly. -/
theorem multiplySplitsTheExactProduct : Obligations.MultiplySplitsTheExactProduct := by
  intro s rs rt y z
  exact ⟨encodes_mult .., encodes_multu ..,
    ⟨_, rfl, (toInt_setProduct ..).trans (toInt_ofInt_mul ..), onlyAccumulators_set ..⟩,
    ⟨_, rfl, (toNat_setProduct ..).trans (toNat_ofNat_mul ..), onlyAccumulators_set ..⟩⟩

/-! ### The accumulators of a division (R200) -/

section
variable (s : State) (q r : Word)

@[simp] theorem setQuotient_hi : (s.setQuotient q r).hi = r := rfl
@[simp] theorem setQuotient_lo : (s.setQuotient q r).lo = q := rfl

end

/-! ### Signed division (R203) -/

section
variable {n d : Word}

theorem toInt_eq_zero_iff : d.toInt = 0 ↔ d = 0#32 := BitVec.toInt_inj (y := 0#32)

/-- The one division whose quotient does not fit 32 bits is that of the smallest number by -1. -/
theorem overflows_iff : n.toInt = -2 ^ 31 ∧ d.toInt = -1 ↔ n = 0x80000000#32 ∧ d = 0xFFFFFFFF#32 :=
  and_congr (BitVec.toInt_inj (y := 0x80000000#32)) (BitVec.toInt_inj (y := 0xFFFFFFFF#32))

theorem divQuotient_zero (n : Word) : divQuotient n 0#32 = if n.toInt ≥ 0 then 0xFFFFFFFF#32 else 1#32 := if_pos rfl

theorem divRemainder_zero (n : Word) : divRemainder n 0#32 = n := if_pos rfl

theorem divQuotient_overflow : divQuotient 0x80000000#32 0xFFFFFFFF#32 = 0x80000000#32 := by decide

theorem divRemainder_overflow : divRemainder 0x80000000#32 0xFFFFFFFF#32 = 0#32 := by decide

/-- Away from the corners the quotient, rounded toward zero, fits 32 bits. -/
theorem toInt_divQuotient (hd : d ≠ 0#32) (hfits : ¬ (n = 0x80000000#32 ∧ d = 0xFFFFFFFF#32)) :
    (divQuotient n d).toInt = n.toInt.tdiv d.toInt := by
  rw [divQuotient, if_neg hd, if_neg hfits, BitVec.toInt_ofInt, ← BitVec.toInt_sdiv]
  exact BitVec.toInt_sdiv_of_ne_or_ne n d (not_and_or.1 hfits)

theorem toInt_divRemainder (hd : d ≠ 0#32) (hfits : ¬ (n = 0x80000000#32 ∧ d = 0xFFFFFFFF#32)) :
    (divRemainder n d).toInt = n.toInt.tmod d.toInt := by
  rw [divRemainder, if_neg hd, if_neg hfits, ← BitVec.toInt_srem, BitVec.ofInt_toInt]

end

theorem abs_tmod_lt (a : Int) {b : Int} (hb : b ≠ 0) : |a.tmod b| < |b| := by
  rw [Int.abs_eq_natAbs, Int.abs_eq_natAbs, Int.natAbs_tmod, Int.ofNat_lt]
  exact Nat.mod_lt _ (Int.natAbs_pos.2 hb)

theorem tmod_nonpos {a : Int} (b : Int) (ha : a ≤ 0) : a.tmod b ≤ 0 := by
  have hneg : 0 ≤ (-a).tmod b := Int.tmod_nonneg b (by omega)
  rw [Int.neg_tmod] at hneg
  omega

/-- Settles O44: the two corners are branches of the model's quotient and remainder; away from them these are the integers'
quotient and remainder rounded toward zero. -/
theorem signedDivisionCorners : Obligations.SignedDivisionCorners := by
  intro s rs rt y z n d
  refine ⟨encodes_div .., _, rfl, fun hzero => ?byZero, fun hn hd => ?overflow, fun hd hfits => ?divides,
    onlyAccumulators_set ..⟩
  case byZero =>
    have hzero := toInt_eq_zero_iff.1 hzero
    simp only [setQuotient_hi, setQuotient_lo, hzero]
    exact ⟨divQuotient_zero _, divRemainder_zero _⟩
  case overflow =>
    obtain ⟨hn, hd⟩ := overflows_iff.1 ⟨hn, hd⟩
    simp only [setQuotient_hi, setQuotient_lo, hn, hd]
    exact ⟨divQuotient_overflow, divRemainder_overflow⟩
  case divides =>
    have hd' := mt toInt_eq_zero_iff.2 hd
    have hfits' := mt overflows_iff.2 hfits
    simp only [setQuotient_hi, setQuotient_lo, toInt_divQuotient hd' hfits', toInt_divRemainder hd' hfits']
    exact ⟨(Int.tdiv_mul_add_tmod n d).symm, abs_tmod_lt n hd, Int.tmod_nonneg d, tmod_nonpos d⟩

/-! ### Unsigned division (R204) -/

section
variable (n : Word) {d : Word}

theorem toNat_eq_zero_iff : d.toNat = 0 ↔ d = 0#32 := BitVec.toNat_inj (y := 0#32)

theorem divuQuotient_zero : divuQuotient n 0#32 = 0xFFFFFFFF#32 := if_pos rfl

theorem divuRemainder_zero : divuRemainder n 0#32 = n := if_pos rfl

theorem toNat_divuQuotient (hd : d ≠ 0#32) : (divuQuotient n d).toNat = n.toNat / d.toNat := by
  rw [divuQuotient, if_neg hd]
  exact Nat.mod_eq_of_lt ((Nat.div_le_self _ _).trans_lt n.isLt)

theorem toNat_divuRemainder (hd : d ≠ 0#32) : (divuRemainder n d).toNat = n.toNat % d.toNat := by
  rw [divuRemainder, if_neg hd]
  exact Nat.mod_eq_of_lt ((Nat.mod_le _ _).trans_lt n.isLt)

end

/-- Settles O45: by whether the denominator is 0; if not, quotient and remainder are those of the natural numbers. -/
theorem unsignedDivision : Obligations.UnsignedDivision := by
  intro s rs rt y z n d
  refine ⟨encodes_divu .., _, rfl, fun hzero => ?byZero, fun hd => ?divides, onlyAccumulators_set ..⟩
  case byZero =>
    have hzero := toNat_eq_zero_iff.1 hzero
    simp only [setQuotient_hi, setQuotient_lo, hzero]
    exact ⟨divuQuotient_zero _, divuRemainder_zero _⟩
  case divides =>
    have hd' := mt toNat_eq_zero_iff.2 hd
    simp only [setQuotient_hi, setQuotient_lo, toNat_divuQuotient _ hd', toNat_divuRemainder _ hd']
    exact ⟨(Nat.div_add_mod' n d).symm, Nat.mod_lt n (Nat.pos_of_ne_zero hd)⟩

/-! ### The moves (R205 to R208) -/

/-- Settles O46: a move from an accumulator ends in an immediate write; a move to one sets it and keeps the rest. -/
theorem accumulatorMoves : Obligations.AccumulatorMoves := by
  intro s rd rs x y z
  exact ⟨encodes_mfhi .., encodes_mflo .., encodes_mthi .., encodes_mtlo ..,
    writesNow_of rfl, writesNow_of rfl,
    ⟨_, rfl, rfl, rfl, onlyAccumulators_set ..⟩,
    ⟨_, rfl, rfl, rfl, onlyAccumulators_set ..⟩⟩

end Sys2Proof.Proofs
end

section
/-! SUPPORT. The fields of the words of the system instructions, read back in the words of the statements
(30_encoding.md R71), and which table of the decoder reads such a word (R73, R75, R77). -/

namespace Sys2Proof.Proofs

open Sys2Proof Sys2Proof.Machine Sys2Proof.Claims

section
variable (op fn : BitVec 6) (target : BitVec 26) (code : BitVec 20) (rs rt rd : Reg)

@[simp] theorem fieldOp_wordJ : fieldOp (wordJ op target) = op := fieldOp_encodeJ ..
@[simp] theorem fieldTarget_wordJ : fieldTarget (wordJ op target) = target := fieldTarget_encodeJ ..

@[simp] theorem fieldOp_wordCode : fieldOp (wordCode code fn) = 0x00#6 := fieldOp_encodeCode ..
@[simp] theorem fieldFunct_wordCode : fieldFunct (wordCode code fn) = fn := fieldFunct_encodeCode ..
@[simp] theorem fieldCode_wordCode : fieldCode (wordCode code fn) = code := fieldCode_encodeCode ..

/-- MFC0 and MTC0 are in R format; the ignored bits are the fields `shamt` and `funct` (30_encoding.md R79). -/
theorem wordMove_eq_encodeR (low : BitVec 11) :
    wordMove rs rt rd low = encodeR 0x10#6 rs rt rd (low.extractLsb' 6 5) (low.extractLsb' 0 6) := by
  have hlow : low.extractLsb' 6 5 ++ low.extractLsb' 0 6 = low :=
    (BitVec.extractLsb'_append_extractLsb'_eq_extractLsb' rfl).trans BitVec.extractLsb'_eq_self
  unfold wordMove encodeR
  rw [BitVec.append_assoc (x₃ := low.extractLsb' 0 6), hlow, BitVec.cast_eq]

/-- RFE is in R format; the ignored bits are the fields `rt`, `rd` and `shamt` (30_encoding.md R79). -/
theorem wordReturn_eq_encodeR (low : BitVec 15) :
    wordReturn low =
      encodeR 0x10#6 0x10#5 (low.extractLsb' 10 5) (low.extractLsb' 5 5) (low.extractLsb' 0 5) 0x10#6 := by
  have hhigh : low.extractLsb' 10 5 ++ low.extractLsb' 5 5 = low.extractLsb' 5 10 :=
    BitVec.extractLsb'_append_extractLsb'_eq_extractLsb' rfl
  have hlow : low.extractLsb' 5 10 ++ low.extractLsb' 0 5 = low :=
    (BitVec.extractLsb'_append_extractLsb'_eq_extractLsb' rfl).trans BitVec.extractLsb'_eq_self
  unfold wordReturn encodeR
  rw [BitVec.append_assoc (x₃ := low.extractLsb' 5 5), BitVec.cast_eq, hhigh,
    BitVec.append_assoc (x₃ := low.extractLsb' 0 5), BitVec.cast_eq, hlow]

/-- A word of SYSCALL's and BREAK's format is read by the table of function codes. -/
theorem encodes_wordCode_iff (i : Instr) :
    Encodes (wordCode code fn) i ↔ decodeSpecial (wordCode code fn) = .instr i := by
  simp only [Encodes, decode, fieldOp_wordCode]

/-- A word whose `op` field is 0x10 is read by the table of coprocessor 0. -/
theorem encodes_cop0_iff (shamt : BitVec 5) (i : Instr) :
    Encodes (encodeR 0x10#6 rs rt rd shamt fn) i ↔ decodeCop0 (encodeR 0x10#6 rs rt rd shamt fn) = .instr i := by
  simp only [Encodes, decode, fieldOp_encodeR]

end

end Sys2Proof.Proofs
end

section
/-! SUPPORT. System instructions and the absent coprocessors (49_system.md R210 to R218): the encoding of each
instruction, and the frame of a write to the system-control bank. -/

namespace Sys2Proof.Proofs

open Sys2Proof Sys2Proof.Machine Sys2Proof.Claims

/-! ### Encodings -/

section
variable (code : BitVec 20) (cofun : BitVec 26) (rt rd rs : Reg) (offset : Half)

theorem encodes_syscall : Encodes (wordCode code 0x0C#6) (.syscall code) := by
  simp [encodes_wordCode_iff, decodeSpecial]
theorem encodes_brk : Encodes (wordCode code 0x0D#6) (.brk code) := by
  simp [encodes_wordCode_iff, decodeSpecial]

theorem encodes_mfc0 (low : BitVec 11) : Encodes (wordMove 0x00#5 rt rd low) (.mfc0 rt rd) := by
  simp [wordMove_eq_encodeR, encodes_cop0_iff, decodeCop0]
theorem encodes_mtc0 (low : BitVec 11) : Encodes (wordMove 0x04#5 rt rd low) (.mtc0 rt rd) := by
  simp [wordMove_eq_encodeR, encodes_cop0_iff, decodeCop0]
theorem encodes_rfe (low : BitVec 15) : Encodes (wordReturn low) .rfe := by
  simp [wordReturn_eq_encodeR, encodes_cop0_iff, decodeCop0]

theorem encodes_cop1 : Encodes (wordJ 0x11#6 cofun) (.cop1 cofun) := by
  simp [Encodes, decode]
theorem encodes_cop2 : Encodes (wordJ 0x12#6 cofun) (.cop2 cofun) := by
  simp [Encodes, decode]
theorem encodes_cop3 : Encodes (wordJ 0x13#6 cofun) (.cop3 cofun) := by
  simp [Encodes, decode]

theorem encodes_lwc0 : Encodes (wordI 0x30#6 rs rt offset) (.lwc0 rt offset rs) := by
  simp [Encodes, decode]
theorem encodes_lwc1 : Encodes (wordI 0x31#6 rs rt offset) (.lwc1 rt offset rs) := by
  simp [Encodes, decode]
theorem encodes_lwc2 : Encodes (wordI 0x32#6 rs rt offset) (.lwc2 rt offset rs) := by
  simp [Encodes, decode]
theorem encodes_lwc3 : Encodes (wordI 0x33#6 rs rt offset) (.lwc3 rt offset rs) := by
  simp [Encodes, decode]
theorem encodes_swc0 : Encodes (wordI 0x38#6 rs rt offset) (.swc0 rt offset rs) := by
  simp [Encodes, decode]
theorem encodes_swc1 : Encodes (wordI 0x39#6 rs rt offset) (.swc1 rt offset rs) := by
  simp [Encodes, decode]
theorem encodes_swc2 : Encodes (wordI 0x3A#6 rs rt offset) (.swc2 rt offset rs) := by
  simp [Encodes, decode]
theorem encodes_swc3 : Encodes (wordI 0x3B#6 rs rt offset) (.swc3 rt offset rs) := by
  simp [Encodes, decode]

end

/-! ### Instructions that only raise (R210, R211, R216 to R218) -/

/-- Settles O47: both instructions end in the exception, and no state they reach depends on the code. -/
theorem syscallAndBreakRaise : Obligations.SyscallAndBreakRaise := by
  intro s code
  exact ⟨encodes_syscall .., encodes_brk .., raises_of rfl, raises_of rfl⟩

/-- Settles O48: each of the eleven instructions enters CpU before it reads a register or computes an address. -/
theorem coprocessorsAreUnusable : Obligations.CoprocessorsAreUnusable := by
  intro s cofun rt rs offset
  exact ⟨encodes_cop1 .., encodes_cop2 .., encodes_cop3 ..,
    encodes_lwc0 .., encodes_lwc1 .., encodes_lwc2 .., encodes_lwc3 ..,
    encodes_swc0 .., encodes_swc1 .., encodes_swc2 .., encodes_swc3 ..,
    raises_of rfl, raises_of rfl, raises_of rfl,
    raises_of rfl, raises_of rfl, raises_of rfl, raises_of rfl,
    raises_of rfl, raises_of rfl, raises_of rfl, raises_of rfl⟩

/-! ### Writes to the system-control bank (R212 to R214) -/

/-- From `s` to `t` nothing but the system-control bank changed. -/
def OnlyControlBank (s t : State) : Prop :=
  SameRegs s t ∧ SameAcc s t ∧ SameBuffer s t ∧ SameMem s t ∧ SameFlow s t ∧ SameOutside s t

theorem onlyControlBank_c0Set (s : State) (n : Reg) (v : Word) : OnlyControlBank s (s.c0Set n v) :=
  ⟨fun _ => rfl, ⟨rfl, rfl⟩, ⟨rfl, rfl⟩, fun _ => rfl, ⟨rfl, rfl, rfl, rfl, rfl⟩, ⟨rfl, rfl, rfl, rfl, rfl⟩, rfl⟩

/-- Settles O49: MFC0 ends in a deferred write, MTC0 in a raw write of the bank; neither looks at `SR`. -/
theorem systemControlTransfersAreRaw : Obligations.SystemControlTransfersAreRaw := by
  intro s rt rd low
  exact ⟨encodes_mfc0 .., encodes_mtc0 ..,
    ⟨_, rfl, armedFrom_armReg .., sameOutside_armReg ..⟩,
    ⟨_, rfl, fun n => c0Get_c0Set s rd n (s.reg rt), onlyControlBank_c0Set ..⟩⟩

/-- The return writes `SR` with the mode stack popped. -/
theorem popModeStack_sr (s : State) : s.popModeStack.sr = popModes s.sr :=
  (c0Get_c0Set s srNum srNum _).trans (if_pos rfl)

/-- The return writes no system-control register but `SR`. -/
theorem c0Get_popModeStack_of_ne (s : State) {n : Reg} (hn : n ≠ srNum) : s.popModeStack.c0Get n = s.c0Get n :=
  (c0Get_c0Set s srNum n _).trans (if_neg hn)

/-- Settles O50: the return is one raw write of `SR`, whose bits are those of the popped mode stack. -/
theorem returnPopsTheModeStackOnly : Obligations.ReturnPopsTheModeStackOnly := by
  intro s low
  refine ⟨encodes_rfe low, _, rfl, fun k hk => ?_, fun n hn => c0Get_popModeStack_of_ne s hn,
    onlyControlBank_c0Set ..⟩
  rw [popModeStack_sr, getLsbD_popModes s.sr k hk]

end Sys2Proof.Proofs
end

section
/-! SUPPORT. Exception entry (60_exceptions.md R240, R242). -/

namespace Sys2Proof.Proofs

open Sys2Proof Sys2Proof.Machine Sys2Proof.Claims

/-- The two addresses of R242: those of the default configuration. -/
theorem vector_of_defaultVectors {p : Config.Params} (hboot : p.vecBoot = Config.defaults.vecBoot)
    (hgeneral : p.vecGeneral = Config.defaults.vecGeneral) (sr : Word) :
    vector p sr = if sr.getLsbD 22 then 0xBFC00180#32 else 0x80000080#32 := by
  rw [vector, hboot, hgeneral]
  rfl

/-- Settles O19: what entry saves and its frame are the laws of `State.enter`, and `raise` is entry at `cur_pc`. -/
theorem exceptionEntrySavesAndVectors : Obligations.ExceptionEntrySavesAndVectors := by
  intro s e at' bd
  have hvector (hboot : s.params.vecBoot = Config.defaults.vecBoot)
      (hgeneral : s.params.vecGeneral = Config.defaults.vecGeneral) :
      (s.enter e at' bd).pc = if s.sr.getLsbD 22 then 0xBFC00180#32 else 0x80000080#32 :=
    (enter_pc s e at' bd).trans (vector_of_defaultVectors hboot hgeneral s.sr)
  exact ⟨⟨enteredFrom_enter s e at' bd, sameOutside_enter s e at' bd, hvector⟩,
    enteredFrom_raise s e, sameOutside_raise s e⟩

end Sys2Proof.Proofs
end

section
/-! SUPPORT. Jumps (46_jump.md R170 to R174): the encoding of each instruction, and what a transfer does with and without a
link. -/

namespace Sys2Proof.Proofs

open Sys2Proof Sys2Proof.Machine Sys2Proof.Claims

/-! ### Encodings -/

section
variable (target : BitVec 26) (rd rs : Reg) (x y z : BitVec 5)

theorem encodes_j : Encodes (wordJ 0x02#6 target) (.j target) := by
  simp [Encodes, decode]
theorem encodes_jal : Encodes (wordJ 0x03#6 target) (.jal target) := by
  simp [Encodes, decode]
/-- JR ignores the fields `rt`, `rd` and `shamt` (30_encoding.md R79). -/
theorem encodes_jr : Encodes (wordR rs x y z 0x08#6) (.jr rs) := by
  simp [encodes_wordR_iff, decodeSpecial]
/-- JALR ignores the fields `rt` and `shamt` (30_encoding.md R79). -/
theorem encodes_jalr : Encodes (wordR rs x rd z 0x09#6) (.jalr rd rs) := by
  simp [encodes_wordR_iff, decodeSpecial]

end

/-! ### A transfer with and without a link -/

/-- The link is written before the transfer, which touches no register (R172, R174). -/
theorem transferFrom_link (s : State) (rd : Reg) (v a : Word) :
    TransferFrom s ((s.writeReg rd v).jumpTo a) a ∧ WrittenFrom s ((s.writeReg rd v).jumpTo a) rd v :=
  ⟨transferFrom_jumpTo_of_same (sameFlow_writeReg s rd v) (sameOutside_writeReg s rd v) a,
    (writtenFrom_jumpTo_iff a).2 (writtenFrom_writeReg s rd v)⟩

/-- A transfer touches no register, bank, accumulator, buffer or memory (R110). -/
theorem sameState_jumpTo (s : State) (a : Word) :
    SameRegs s (s.jumpTo a) ∧ SameC0 s (s.jumpTo a) ∧ SameAcc s (s.jumpTo a) ∧ SameBuffer s (s.jumpTo a) ∧
      SameMem s (s.jumpTo a) :=
  ⟨fun _ => rfl, fun _ => rfl, ⟨rfl, rfl⟩, ⟨rfl, rfl⟩, fun _ => rfl⟩

/-- Settles O29: each jump ends in a transfer, JAL's and JALR's after the link, to `jumpTarget` or to the register. -/
theorem jumpsTransferAndLink : Obligations.JumpsTransferAndLink := by
  intro s rd rs target x y z
  exact ⟨encodes_j .., encodes_jal .., encodes_jr .., encodes_jalr ..,
    ⟨_, _, rfl, toNat_jumpTarget .., transferFrom_jumpTo .., sameState_jumpTo ..⟩,
    ⟨_, _, rfl, toNat_jumpTarget .., transferFrom_link ..⟩,
    ⟨_, rfl, transferFrom_jumpTo .., sameState_jumpTo ..⟩,
    ⟨_, rfl, transferFrom_link ..⟩⟩

end Sys2Proof.Proofs
end

section
/-! SUPPORT. Encoding and decoding (30_encoding.md R71 to R79): the decoder gives back every encoded instruction, the encoder
every bit the decoder used, and each row of opcode_table.json exactly the words of its mask and match. -/

namespace Sys2Proof.Proofs

open Sys2Proof Sys2Proof.Machine Sys2Proof.Claims

/-! ### Encodings of loads and stores -/

section
variable (rt rs : Reg) (offset : Half)

theorem encodes_lb : Encodes (wordI 0x20#6 rs rt offset) (.lb rt offset rs) := by simp [Encodes, decode]
theorem encodes_lbu : Encodes (wordI 0x24#6 rs rt offset) (.lbu rt offset rs) := by simp [Encodes, decode]
theorem encodes_lh : Encodes (wordI 0x21#6 rs rt offset) (.lh rt offset rs) := by simp [Encodes, decode]
theorem encodes_lhu : Encodes (wordI 0x25#6 rs rt offset) (.lhu rt offset rs) := by simp [Encodes, decode]
theorem encodes_lw : Encodes (wordI 0x23#6 rs rt offset) (.lw rt offset rs) := by simp [Encodes, decode]
theorem encodes_lwl : Encodes (wordI 0x22#6 rs rt offset) (.lwl rt offset rs) := by simp [Encodes, decode]
theorem encodes_lwr : Encodes (wordI 0x26#6 rs rt offset) (.lwr rt offset rs) := by simp [Encodes, decode]
theorem encodes_sb : Encodes (wordI 0x28#6 rs rt offset) (.sb rt offset rs) := by simp [Encodes, decode]
theorem encodes_sh : Encodes (wordI 0x29#6 rs rt offset) (.sh rt offset rs) := by simp [Encodes, decode]
theorem encodes_sw : Encodes (wordI 0x2B#6 rs rt offset) (.sw rt offset rs) := by simp [Encodes, decode]
theorem encodes_swl : Encodes (wordI 0x2A#6 rs rt offset) (.swl rt offset rs) := by simp [Encodes, decode]
theorem encodes_swr : Encodes (wordI 0x2E#6 rs rt offset) (.swr rt offset rs) := by simp [Encodes, decode]

end

/-! ### Decoding an encoded instruction -/

theorem decode_encode_mfc0 (rt rd : Reg) : decode (encode (.mfc0 rt rd)) = .instr (.mfc0 rt rd) := by
  simp [encode, decode, decodeCop0]

theorem decode_encode_mtc0 (rt rd : Reg) : decode (encode (.mtc0 rt rd)) = .instr (.mtc0 rt rd) := by
  simp [encode, decode, decodeCop0]

/-- Settles O5: the encoder's word is one of those shown to encode the instruction, the one with 0 in every ignored field. -/
theorem decodeOfEncodeIsTheInstruction : Obligations.DecodeOfEncodeIsTheInstruction := by
  intro i
  cases i
  case add => exact encodes_add ..
  case addu => exact encodes_addu ..
  case sub => exact encodes_sub ..
  case subu => exact encodes_subu ..
  case addi => exact encodes_addi ..
  case addiu => exact encodes_addiu ..
  case and => exact encodes_and ..
  case or => exact encodes_or ..
  case xor => exact encodes_xor ..
  case nor => exact encodes_nor ..
  case andi => exact encodes_andi ..
  case ori => exact encodes_ori ..
  case xori => exact encodes_xori ..
  case lui => exact encodes_lui ..
  case sll => exact encodes_sll ..
  case srl => exact encodes_srl ..
  case sra => exact encodes_sra ..
  case sllv => exact encodes_sllv ..
  case srlv => exact encodes_srlv ..
  case srav => exact encodes_srav ..
  case slt => exact encodes_slt ..
  case sltu => exact encodes_sltu ..
  case slti => exact encodes_slti ..
  case sltiu => exact encodes_sltiu ..
  case beq => exact encodes_beq ..
  case bne => exact encodes_bne ..
  case blez => exact encodes_blez ..
  case bgtz => exact encodes_bgtz ..
  case bltz => exact encodes_bltz ..
  case bgez => exact encodes_bgez ..
  case bltzal => exact encodes_bltzal ..
  case bgezal => exact encodes_bgezal ..
  case j => exact encodes_j ..
  case jal => exact encodes_jal ..
  case jr => exact encodes_jr ..
  case jalr => exact encodes_jalr ..
  case lb => exact encodes_lb ..
  case lbu => exact encodes_lbu ..
  case lh => exact encodes_lh ..
  case lhu => exact encodes_lhu ..
  case lw => exact encodes_lw ..
  case lwl => exact encodes_lwl ..
  case lwr => exact encodes_lwr ..
  case sb => exact encodes_sb ..
  case sh => exact encodes_sh ..
  case sw => exact encodes_sw ..
  case swl => exact encodes_swl ..
  case swr => exact encodes_swr ..
  case mult => exact encodes_mult ..
  case multu => exact encodes_multu ..
  case div => exact encodes_div ..
  case divu => exact encodes_divu ..
  case mfhi => exact encodes_mfhi ..
  case mflo => exact encodes_mflo ..
  case mthi => exact encodes_mthi ..
  case mtlo => exact encodes_mtlo ..
  case syscall code => exact encodes_syscall code
  case brk code => exact encodes_brk code
  case mfc0 rt rd => exact decode_encode_mfc0 rt rd
  case mtc0 rt rd => exact decode_encode_mtc0 rt rd
  case rfe => exact encodes_rfe 0#15
  case cop1 => exact encodes_cop1 ..
  case cop2 => exact encodes_cop2 ..
  case cop3 => exact encodes_cop3 ..
  case lwc0 => exact encodes_lwc0 ..
  case lwc1 => exact encodes_lwc1 ..
  case lwc2 => exact encodes_lwc2 ..
  case lwc3 => exact encodes_lwc3 ..
  case swc0 => exact encodes_swc0 ..
  case swc1 => exact encodes_swc1 ..
  case swc2 => exact encodes_swc2 ..
  case swc3 => exact encodes_swc3 ..

end Sys2Proof.Proofs
end

section
/-! SUPPORT. What the encoder keeps of a decoded word (30_encoding.md R79), and the rows of opcode_table.json
(R73 to R79): mask, match and ignored bits. -/

namespace Sys2Proof.Proofs

open Sys2Proof Sys2Proof.Machine Sys2Proof.Claims

/-! ### A word masked, field by field -/

theorem and_full5 (r : BitVec 5) : r &&& 0x1F#5 = r := BitVec.and_allOnes
theorem and_full6 (r : BitVec 6) : r &&& 0x3F#6 = r := BitVec.and_allOnes
theorem and_full16 (r : Half) : r &&& 0xFFFF#16 = r := BitVec.and_allOnes
theorem and_full32 (r : Word) : r &&& 0xFFFFFFFF#32 = r := BitVec.and_allOnes

section
variable (w : Word)

/-- A mask in R format keeps of a word what its fields keep of the word's fields. -/
theorem and_encodeR (op : BitVec 6) (rs rt rd sh : BitVec 5) (fn : BitVec 6) {m : Word}
    (hm : encodeR op rs rt rd sh fn = m) :
    w &&& m =
      encodeR (fieldOp w &&& op) (fieldRs w &&& rs) (fieldRt w &&& rt) (fieldRd w &&& rd) (fieldShamt w &&& sh)
        (fieldFunct w &&& fn) := by
  conv_lhs => rw [← encodeR_fields w, ← hm]
  exact encodeR_and ..

/-- A mask in I format, likewise. -/
theorem and_encodeI (op : BitVec 6) (rs rt : BitVec 5) (imm : Half) {m : Word} (hm : encodeI op rs rt imm = m) :
    w &&& m =
      encodeI (fieldOp w &&& op) (fieldRs w &&& rs) (fieldRt w &&& rt) (fieldImm w &&& imm) := by
  conv_lhs => rw [← encodeI_fields w, ← hm]
  exact encodeI_and ..

/-! ### The masks of `usedBits`, one lemma for each set of kept fields -/

/-- All but `shamt`: three registers. -/
theorem and_threeRegs :
    w &&& 0xFFFFF83F#32 = encodeR (fieldOp w) (fieldRs w) (fieldRt w) (fieldRd w) 0#5 (fieldFunct w) := by
  simpa [and_full5, and_full6] using and_encodeR w 0x3F#6 0x1F#5 0x1F#5 0x1F#5 0#5 0x3F#6 (m := 0xFFFFF83F#32) (by decide)

/-- All but `rs`: a shift by an amount. -/
theorem and_fixedShift :
    w &&& 0xFC1FFFFF#32 = encodeR (fieldOp w) 0#5 (fieldRt w) (fieldRd w) (fieldShamt w) (fieldFunct w) := by
  simpa [and_full5, and_full6] using and_encodeR w 0x3F#6 0#5 0x1F#5 0x1F#5 0x1F#5 0x3F#6 (m := 0xFC1FFFFF#32) (by decide)

/-- The same mask in I format: LUI. -/
theorem and_upperImm : w &&& 0xFC1FFFFF#32 = encodeI (fieldOp w) 0#5 (fieldRt w) (fieldImm w) := by
  simpa [and_full5, and_full6, and_full16] using and_encodeI w 0x3F#6 0#5 0x1F#5 0xFFFF#16 (m := 0xFC1FFFFF#32) (by decide)

/-- `rs` and the code: JR, MTHI, MTLO. -/
theorem and_oneSource :
    w &&& 0xFFE0003F#32 = encodeR (fieldOp w) (fieldRs w) 0#5 0#5 0#5 (fieldFunct w) := by
  simpa [and_full5, and_full6] using and_encodeR w 0x3F#6 0x1F#5 0#5 0#5 0#5 0x3F#6 (m := 0xFFE0003F#32) (by decide)

/-- `rs`, `rd` and the code: JALR. -/
theorem and_sourceAndDest :
    w &&& 0xFFE0F83F#32 = encodeR (fieldOp w) (fieldRs w) 0#5 (fieldRd w) 0#5 (fieldFunct w) := by
  simpa [and_full5, and_full6] using and_encodeR w 0x3F#6 0x1F#5 0#5 0x1F#5 0#5 0x3F#6 (m := 0xFFE0F83F#32) (by decide)

/-- `rs`, `rt` and the code: multiply and divide. -/
theorem and_twoSources :
    w &&& 0xFFFF003F#32 = encodeR (fieldOp w) (fieldRs w) (fieldRt w) 0#5 0#5 (fieldFunct w) := by
  simpa [and_full5, and_full6] using and_encodeR w 0x3F#6 0x1F#5 0x1F#5 0#5 0#5 0x3F#6 (m := 0xFFFF003F#32) (by decide)

/-- `rd` and the code: MFHI, MFLO. -/
theorem and_oneDest :
    w &&& 0xFC00F83F#32 = encodeR (fieldOp w) 0#5 0#5 (fieldRd w) 0#5 (fieldFunct w) := by
  simpa [and_full5, and_full6] using and_encodeR w 0x3F#6 0#5 0#5 0x1F#5 0#5 0x3F#6 (m := 0xFC00F83F#32) (by decide)

/-- All but the low 11 bits: MFC0, MTC0. -/
theorem and_controlMove :
    w &&& 0xFFFFF800#32 = encodeR (fieldOp w) (fieldRs w) (fieldRt w) (fieldRd w) 0#5 0#6 := by
  simpa [and_full5, and_full6] using and_encodeR w 0x3F#6 0x1F#5 0x1F#5 0x1F#5 0#5 0#6 (m := 0xFFFFF800#32) (by decide)

/-- All but `rt`, in I format: BLEZ, BGTZ. -/
theorem and_signBranch : w &&& 0xFFE0FFFF#32 = encodeI (fieldOp w) (fieldRs w) 0#5 (fieldImm w) := by
  simpa [and_full5, and_full6, and_full16] using and_encodeI w 0x3F#6 0x1F#5 0#5 0xFFFF#16 (m := 0xFFE0FFFF#32) (by decide)

end

/-! ### What the encoder keeps, table by table of the decoder -/

section
variable {w : Word} {i : Instr}

theorem encodeI_of_fieldOp {op : BitVec 6} (hop : fieldOp w = op) :
    encodeI op (fieldRs w) (fieldRt w) (fieldImm w) = w &&& 0xFFFFFFFF#32 := by
  rw [← hop, encodeI_fields, and_full32]

theorem encodeJ_of_fieldOp {op : BitVec 6} (hop : fieldOp w = op) :
    encodeJ op (fieldTarget w) = w &&& 0xFFFFFFFF#32 := by
  rw [← hop, encodeJ_fields, and_full32]

theorem encodeCode_of_fieldFunct {fn : BitVec 6} (hop : fieldOp w = 0x00#6) (hfunct : fieldFunct w = fn) :
    encodeCode (fieldCode w) fn = w &&& 0xFFFFFFFF#32 := by
  rw [← hfunct, encodeCode_fields w hop, and_full32]

/-- SPECIAL (R75): the cases are those of the table, in its order. -/
theorem encode_of_decodeSpecial (hop : fieldOp w = 0x00#6) (h : decodeSpecial w = .instr i) :
    encode i = w &&& usedBits i := by
  revert h
  fun_cases decodeSpecial w
  case case1 hfunct | case2 hfunct | case3 hfunct =>
    rintro ⟨⟩; rw [usedBits, and_fixedShift, hop, hfunct]; rfl
  case case7 hfunct | case12 hfunct | case14 hfunct =>
    rintro ⟨⟩; rw [usedBits, and_oneSource, hop, hfunct]; rfl
  case case8 hfunct => rintro ⟨⟩; rw [usedBits, and_sourceAndDest, hop, hfunct]; rfl
  case case9 hfunct | case10 hfunct => rintro ⟨⟩; exact encodeCode_of_fieldFunct hop hfunct
  case case11 hfunct | case13 hfunct => rintro ⟨⟩; rw [usedBits, and_oneDest, hop, hfunct]; rfl
  case case15 hfunct | case16 hfunct | case17 hfunct | case18 hfunct =>
    rintro ⟨⟩; rw [usedBits, and_twoSources, hop, hfunct]; rfl
  case case29 => rintro ⟨⟩
  all_goals rename_i hfunct; rintro ⟨⟩; rw [usedBits, and_threeRegs, hop, hfunct]; rfl

/-- REGIMM (R76). -/
theorem encode_of_decodeRegimm (hop : fieldOp w = 0x01#6) (h : decodeRegimm w = .instr i) :
    encode i = w &&& usedBits i := by
  have hword := encodeI_of_fieldOp hop
  revert h
  fun_cases decodeRegimm w
  case case5 => rintro ⟨⟩
  all_goals rename_i hrt; rintro ⟨⟩; rw [hrt] at hword; exact hword

/-- COP0 (R77). -/
theorem encode_of_decodeCop0 (hop : fieldOp w = 0x10#6) (h : decodeCop0 w = .instr i) :
    encode i = w &&& usedBits i := by
  revert h
  fun_cases decodeCop0 w
  case case1 hrs | case2 hrs => rintro ⟨⟩; rw [usedBits, and_controlMove, hop, hrs]; rfl
  case case3 hrs hfunct => rintro ⟨⟩; rw [usedBits, and_oneSource, hop, hrs, hfunct]; rfl
  case case4 | case5 => rintro ⟨⟩

end

/-- Settles O6: table by table, the fields the decoder hands on are those the encoder puts back. -/
theorem encodeOfDecodeKeepsTheUsedBits : Obligations.EncodeOfDecodeKeepsTheUsedBits := by
  intro w i h
  revert h
  fun_cases decode w
  case case1 hop => exact encode_of_decodeSpecial hop
  case case2 hop => exact encode_of_decodeRegimm hop
  case case17 hop => exact encode_of_decodeCop0 hop
  case case3 hop | case4 hop | case18 hop | case19 hop | case20 hop => rintro ⟨⟩; exact encodeJ_of_fieldOp hop
  case case7 hop | case8 hop => rintro ⟨⟩; rw [usedBits, and_signBranch, hop]; rfl
  case case16 hop => rintro ⟨⟩; rw [usedBits, and_upperImm, hop]; rfl
  case case41 => rintro ⟨⟩
  all_goals rename_i hop; rintro ⟨⟩; exact encodeI_of_fieldOp hop

end Sys2Proof.Proofs
end

section
/-! SUPPORT. The rows of opcode_table.json (30_encoding.md R73 to R79): mask and match of a row decide the instruction, and
every other bit but those of its operands is free. -/

namespace Sys2Proof.Proofs

open Sys2Proof Sys2Proof.Machine Sys2Proof.Claims

/-! ### A row belongs to one constructor -/

/-- One instruction for each row, in the order of the constructors. -/
def rowInstrs : List Instr :=
  [.add 0 0 0, .addu 0 0 0, .sub 0 0 0, .subu 0 0 0, .addi 0 0 0, .addiu 0 0 0, .and 0 0 0, .or 0 0 0, .xor 0 0 0,
   .nor 0 0 0, .andi 0 0 0, .ori 0 0 0, .xori 0 0 0, .lui 0 0, .sll 0 0 0, .srl 0 0 0, .sra 0 0 0, .sllv 0 0 0,
   .srlv 0 0 0, .srav 0 0 0, .slt 0 0 0, .sltu 0 0 0, .slti 0 0 0, .sltiu 0 0 0, .beq 0 0 0, .bne 0 0 0, .blez 0 0,
   .bgtz 0 0, .bltz 0 0, .bgez 0 0, .bltzal 0 0, .bgezal 0 0, .j 0, .jal 0, .jr 0, .jalr 0 0, .lb 0 0 0, .lbu 0 0 0,
   .lh 0 0 0, .lhu 0 0 0, .lw 0 0 0, .lwl 0 0 0, .lwr 0 0 0, .sb 0 0 0, .sh 0 0 0, .sw 0 0 0, .swl 0 0 0, .swr 0 0 0,
   .mult 0 0, .multu 0 0, .div 0 0, .divu 0 0, .mfhi 0, .mflo 0, .mthi 0, .mtlo 0, .syscall 0, .brk 0, .mfc0 0 0,
   .mtc0 0 0, .rfe, .cop1 0, .cop2 0, .cop3 0, .lwc0 0 0 0, .lwc1 0 0 0, .lwc2 0 0 0, .lwc3 0 0 0, .swc0 0 0 0,
   .swc1 0 0 0, .swc2 0 0 0, .swc3 0 0 0]

/-- What an instruction's row says of it: its match and its kept bits. -/
def rowOf (i : Instr) : Word × Word := (rowMatch i, usedBits i)

/-- It is a matter of the constructor alone. -/
theorem rowOf_ctorIdx (i : Instr) : (rowInstrs.map rowOf)[i.ctorIdx]? = some (rowOf i) := by
  cases i <;> rfl

/-- No two rows have the same match. -/
theorem nodup_rowMatch : (rowInstrs.map rowMatch).Nodup := by decide

theorem rowMatch_ctorIdx (i : Instr) : (rowInstrs.map rowMatch)[i.ctorIdx]? = some (rowMatch i) := by
  have h := congrArg (Option.map Prod.fst) (rowOf_ctorIdx i)
  rwa [← List.getElem?_map, List.map_map] at h

theorem rowMatch_eq_iff (i j : Instr) : rowMatch i = rowMatch j ↔ i.ctorIdx = j.ctorIdx := by
  have hi := rowMatch_ctorIdx i
  have hj := rowMatch_ctorIdx j
  constructor
  · intro h
    have hlt : i.ctorIdx < (rowInstrs.map rowMatch).length := (List.getElem?_eq_some_iff.1 hi).1
    exact (List.getElem?_inj hlt nodup_rowMatch).1 (by rw [hi, hj, h])
  · intro h
    rw [h, hj] at hi
    exact (Option.some.inj hi).symm

/-- The kept bits are a matter of the match alone. -/
theorem usedBits_congr {i j : Instr} (h : rowMatch i = rowMatch j) : usedBits i = usedBits j := by
  have hi := rowOf_ctorIdx i
  rw [(rowMatch_eq_iff i j).1 h, rowOf_ctorIdx j] at hi
  exact congrArg Prod.snd (Option.some.inj hi).symm

/-! ### A decoded word matches its row -/

/-- The fixed bits are among the kept ones. -/
theorem usedBits_and_rowMask (i : Instr) : usedBits i &&& rowMask i = rowMask i := by
  cases i
  all_goals dsimp only [usedBits, rowMask, -BitVec.reduceAnd]; decide

/-- The encoding of every instruction carries the fixed bits of its row. -/
theorem encode_and_rowMask (i : Instr) : encode i &&& rowMask i = rowMatch i := by
  cases i
  case bltz | bgez | bltzal | bgezal => exact Laws.TableRow.row_regimm _ _ _ rfl
  case j | jal | cop1 | cop2 | cop3 => exact Laws.TableRow.row_jump _ rfl
  case syscall | brk => exact Laws.TableRow.row_code _ rfl
  case mfc0 | mtc0 => exact Laws.TableRow.row_cop0 _ _ rfl
  case rfe => rfl
  case addi | addiu | andi | ori | xori | lui | slti | sltiu | beq | bne | blez | bgtz | lb | lbu | lh | lhu | lw | lwl
      | lwr | sb | sh | sw | swl | swr | lwc0 | lwc1 | lwc2 | lwc3 | swc0 | swc1 | swc2 | swc3 =>
    exact Laws.TableRow.row_imm _ _ _ rfl
  all_goals exact Laws.TableRow.row_special _ _ _ _ rfl

theorem and_rowMask_of_decode {w : Word} {i : Instr} (h : decode w = .instr i) : w &&& rowMask i = rowMatch i := by
  rw [← usedBits_and_rowMask i, ← BitVec.and_assoc, ← encodeOfDecodeKeepsTheUsedBits w i h]
  exact encode_and_rowMask i

/-! ### A word that matches a row decodes by it -/

section
variable {w m : Word}

/-- A mask of `op` alone. -/
theorem fieldOp_of_row (h : w &&& 0xFC000000#32 = m) : fieldOp w = m.extractLsb' 26 6 := by
  rw [← h, ← fieldOp, fieldOp_and]
  exact (and_full6 _).symm

/-- A mask of `op` and `funct`: SPECIAL. -/
theorem fields_of_specialRow (h : w &&& 0xFC00003F#32 = m) :
    fieldOp w = m.extractLsb' 26 6 ∧ fieldFunct w = m.extractLsb' 0 6 := by
  rw [← h, ← fieldOp, ← fieldFunct, fieldOp_and, fieldFunct_and]
  exact ⟨(and_full6 _).symm, (and_full6 _).symm⟩

/-- A mask of `op` and `rt`: REGIMM. -/
theorem fields_of_regimmRow (h : w &&& 0xFC1F0000#32 = m) :
    fieldOp w = m.extractLsb' 26 6 ∧ fieldRt w = m.extractLsb' 16 5 := by
  rw [← h, ← fieldOp, ← fieldRt, fieldOp_and, fieldRt_and]
  exact ⟨(and_full6 _).symm, (and_full5 _).symm⟩

/-- A mask of `op` and `rs`: MFC0 and MTC0. -/
theorem fields_of_cop0Row (h : w &&& 0xFFE00000#32 = m) :
    fieldOp w = m.extractLsb' 26 6 ∧ fieldRs w = m.extractLsb' 21 5 := by
  rw [← h, ← fieldOp, ← fieldRs, fieldOp_and, fieldRs_and]
  exact ⟨(and_full6 _).symm, (and_full5 _).symm⟩

/-- A mask of `op`, `rs` and `funct`: RFE. -/
theorem fields_of_returnRow (h : w &&& 0xFFE0003F#32 = m) :
    fieldOp w = m.extractLsb' 26 6 ∧ fieldRs w = m.extractLsb' 21 5 ∧ fieldFunct w = m.extractLsb' 0 6 := by
  rw [← h, ← fieldOp, ← fieldRs, ← fieldFunct, fieldOp_and, fieldRs_and, fieldFunct_and]
  exact ⟨(and_full6 _).symm, (and_full5 _).symm, (and_full6 _).symm⟩

end

/-- The decoder's tables are the rows: the fixed fields lead to the row's entry of the table. -/
theorem decode_of_row {w : Word} {i : Instr} (h : w &&& rowMask i = rowMatch i) :
    ∃ j, decode w = .instr j ∧ rowMask j = rowMask i ∧ rowMatch j = rowMatch i := by
  cases i
  case bltz | bgez | bltzal | bgezal =>
    obtain ⟨hop, hrt⟩ := fields_of_regimmRow h
    simp only [rowMatch, BitVec.reduceExtractLsb'] at hop hrt
    simp only [decode, hop, decodeRegimm, hrt]; exact ⟨_, rfl, rfl, rfl⟩
  case mfc0 | mtc0 =>
    obtain ⟨hop, hrs⟩ := fields_of_cop0Row h
    simp only [rowMatch, BitVec.reduceExtractLsb'] at hop hrs
    simp only [decode, hop, decodeCop0, hrs]; exact ⟨_, rfl, rfl, rfl⟩
  case rfe =>
    obtain ⟨hop, hrs, hfunct⟩ := fields_of_returnRow h
    simp only [rowMatch, BitVec.reduceExtractLsb'] at hop hrs hfunct
    simp only [decode, hop, decodeCop0, hrs, hfunct]; exact ⟨_, rfl, rfl, rfl⟩
  case add | addu | sub | subu | and | or | xor | nor | sll | srl | sra | sllv | srlv | srav | slt | sltu | jr | jalr
      | mult | multu | div | divu | mfhi | mflo | mthi | mtlo | syscall | brk =>
    obtain ⟨hop, hfunct⟩ := fields_of_specialRow h
    simp only [rowMatch, BitVec.reduceExtractLsb'] at hop hfunct
    simp only [decode, hop, decodeSpecial, hfunct]; exact ⟨_, rfl, rfl, rfl⟩
  all_goals
    have hop := fieldOp_of_row h
    simp only [rowMatch, BitVec.reduceExtractLsb'] at hop
    simp only [decode, hop]; exact ⟨_, rfl, rfl, rfl⟩

/-- Settles O8: a decoded word carries its row's bits because its encoding does, the decoder's tables are the rows, and the
72 matches differ. -/
theorem wordsDecodeByTheirTableRow : Obligations.WordsDecodeByTheirTableRow :=
  ⟨fun _ _ => and_rowMask_of_decode, fun _ _ => decode_of_row, rowMatch_eq_iff⟩

/-! ### Ignored bits -/

/-- A word decodes to `i` as soon as it agrees with the encoding of `i` in the kept bits. -/
theorem decode_of_and_usedBits {w : Word} {i : Instr} (h : w &&& usedBits i = encode i) : decode w = .instr i := by
  have hrow : w &&& rowMask i = rowMatch i := by
    rw [← usedBits_and_rowMask i, ← BitVec.and_assoc, h, encode_and_rowMask]
  obtain ⟨j, hj, -, hmatch⟩ := decode_of_row hrow
  have henc : encode j = encode i := by
    rw [encodeOfDecodeKeepsTheUsedBits w j hj, usedBits_congr hmatch, h]
  have hij : Decoded.instr j = .instr i := by
    rw [← decodeOfEncodeIsTheInstruction j, henc, decodeOfEncodeIsTheInstruction i]
  exact hj.trans hij

/-- A change outside a mask is not seen through it. -/
theorem xor_and_not_and (w x u : Word) : (w ^^^ (x &&& ~~~u)) &&& u = w &&& u := by
  ext k hk
  simp only [BitVec.getElem_and, BitVec.getElem_xor, BitVec.getElem_not]
  cases u[k] <;> simp

/-- Settles O7: the changed word agrees with the encoding in every kept bit. -/
theorem ignoredBitsMayHoldAnyValue : Obligations.IgnoredBitsMayHoldAnyValue := by
  intro w x i h
  apply decode_of_and_usedBits
  rw [xor_and_not_and, encodeOfDecodeKeepsTheUsedBits w i h]

/-- Settles O10: the decoder evaluated on each word. -/
theorem wordsOfTheSpecDecode : Obligations.WordsOfTheSpecDecode := by
  unfold Obligations.WordsOfTheSpecDecode
  decide

end Sys2Proof.Proofs
end

section
/-! SUPPORT. What every instruction leaves alone, from the ways an instruction can end: general registers, accumulators,
memory, the system-control bank (10_state.md R10, R16, R20, R27). -/

namespace Sys2Proof.Proofs

open Sys2Proof Sys2Proof.Machine Sys2Proof.Claims

section
variable {i : Instr} {s t : State}

/-! ### General registers -/

theorem reg_of_execEnd (h : ExecEnd i s t) {r : Reg} (hr : writesReg i ≠ some r) : t.reg r = s.reg r := by
  have hwrite (rd : Reg) (v : Word) (hw : writesReg i = some rd) : (s.writeReg rd v).reg r = s.reg r := by
    rw [reg_writeReg, if_neg]
    rintro ⟨rfl, -⟩
    exact hr hw
  cases h with
  | raised hu e => exact (reg_raise _ e r).trans (reg_congr hu.gpr r)
  | wrote rd v hw => exact hwrite rd v hw
  | scheduled hu rt v _ => exact (reg_armReg _ rt r v).trans (reg_congr hu.gpr r)
  | nothing | jumped | accumulated | moved | returned => rfl
  | linked rd v a _ hw => exact hwrite rd v hw
  | stored hu a w v => exact (reg_memWrite _ a w v r).trans (reg_congr hu.gpr r)

/-- Settles O51: only an immediate write touches the register file, and it is of the register `writesReg` names. -/
theorem onlyTheDestinationRegisterChanges : Obligations.OnlyTheDestinationRegisterChanges :=
  fun i s t h _ hr => reg_of_execEnd (exec_end i s t h) hr

/-! ### Accumulators -/

theorem sameAcc_of_execEnd (h : ExecEnd i s t) (hacc : writesAcc i = false) : SameAcc s t := by
  cases h with
  | raised hu e => exact ⟨(raise_hi _ e).trans hu.hi, (raise_lo _ e).trans hu.lo⟩
  | wrote rd v | linked rd v => exact ⟨writeReg_hi s rd v, writeReg_lo s rd v⟩
  | scheduled hu rt v => exact ⟨(armReg_hi _ rt v).trans hu.hi, (armReg_lo _ rt v).trans hu.lo⟩
  | nothing | jumped | moved | returned => exact ⟨rfl, rfl⟩
  | accumulated hi lo h => rw [hacc] at h; contradiction
  | stored hu a w v => exact ⟨(memWrite_hi _ a w v).trans hu.hi, (memWrite_lo _ a w v).trans hu.lo⟩

/-- Settles O52: only the multiplies, divides and moves to the accumulators end in a write of them. -/
theorem onlyMultiplyDivideTouchAccumulators : Obligations.OnlyMultiplyDivideTouchAccumulators :=
  fun i s t h => sameAcc_of_execEnd (exec_end i s t h)

/-! ### Memory -/

/-- All bytes of an aligned access to main or scratch memory are in that memory. -/
theorem inStorage_of_aligned {a : Word} {w : Width} (ho : MapOrdered s) (ha : w.aligned a = true)
    (hp : InMain (physical a) ∨ InScratch s (physical a)) {p : Nat} (hlow : physical a ≤ p)
    (hhigh : p < physical a + w.bytes) : InMain p ∨ InScratch s p := by
  obtain ⟨hbase, -⟩ := ho
  rw [aligned_iff] at ha
  rw [physical_eq_translateAddr, translateAddr_eq] at *
  unfold InMain InScratch at *
  cases w <;> simp only [Width.bytes] at * <;> omega

/-- A byte that an aligned bus write changes lies in main or scratch memory. -/
theorem inStorage_of_read_memWrite_ne {a : Word} {w : Width} {v : Word} {p : Nat} (ho : MapOrdered s)
    (ha : w.aligned a = true) (h : (s.memWrite a w v).state.mem.read p ≠ s.mem.read p) : InMain p ∨ InScratch s p := by
  rcases memWrite_mem_cases s a w v with ⟨hp, hm⟩ | ⟨-, hm⟩ <;> rw [hm] at h
  · have hin : physical a ≤ p ∧ p < physical a + w.bytes := by
      by_contra hout
      exact h (Memory.read_writeLE_outside _ _ _ _ _ (by omega))
    exact inStorage_of_aligned ho ha hp hin.1 hin.2
  · exact absurd rfl h

/-- Memory after an instruction: as before, or as an aligned bus write of a store leaves it. -/
theorem mem_of_execEnd (h : ExecEnd i s t) :
    t.mem = s.mem ∨ (stores i = true ∧ ∃ u a w v, SameInside s u ∧ Width.aligned w a = true ∧
      t.mem = (u.memWrite a w v).state.mem) := by
  cases h with
  | raised hu e => exact .inl ((raise_mem _ e).trans hu.mem)
  | wrote rd v | linked rd v => exact .inl (writeReg_mem s rd v)
  | scheduled hu rt v => exact .inl ((armReg_mem _ rt v).trans hu.mem)
  | nothing | jumped | accumulated | moved | returned => exact .inl rfl
  | stored hu a w v hs ha => exact .inr ⟨hs, _, a, w, v, hu, ha, rfl⟩

theorem inStorage_of_execEnd (h : ExecEnd i s t) (ho : MapOrdered s) {p : Nat} (hp : t.mem.read p ≠ s.mem.read p) :
    InMain p ∨ InScratch s p := by
  rcases mem_of_execEnd h with hm | ⟨-, u, a, w, v, hu, ha, hm⟩ <;> rw [hm] at hp
  · exact absurd rfl hp
  · rw [← hu.mem] at hp
    exact (inStorage_of_read_memWrite_ne ((mapOrdered_congr hu.params).2 ho) ha hp).imp_right
      (inScratch_congr hu.params p).1

/-- Settles O53: memory changes by an aligned bus write of a store only, and that writes main or scratch memory only. -/
theorem onlyStoresChangeMemory : Obligations.OnlyStoresChangeMemory := by
  intro i s t h
  have hend := exec_end i s t h
  refine ⟨fun hs => ?_, fun ho p => inStorage_of_execEnd hend ho⟩
  rcases mem_of_execEnd hend with hm | ⟨hs', -⟩
  · exact hm
  · rw [hs] at hs'; contradiction

/-! ### The system-control bank -/

/-- The bank after an instruction: as before, or as entry, MTC0 or RFE writes it. -/
theorem c0_of_execEnd (h : ExecEnd i s t) :
    t.c0 = s.c0 ∨ (∃ e, EnteredFrom s t e s.curPc s.dsCur) ∨ (∃ rt n, i = .mtc0 rt n ∧ t = s.c0Set n (s.reg rt)) ∨
      t = s.popModeStack := by
  cases h with
  | raised hu e => exact .inr (.inl ⟨e, hu.raise e⟩)
  | wrote rd v | linked rd v => exact .inl (writeReg_c0 s rd v)
  | scheduled hu rt v => exact .inl ((armReg_c0 _ rt v).trans hu.c0)
  | nothing | jumped | accumulated => exact .inl rfl
  | stored hu a w v => exact .inl ((memWrite_c0 _ a w v).trans hu.c0)
  | moved rt n hi => exact .inr (.inr (.inl ⟨rt, n, hi, rfl⟩))
  | returned => exact .inr (.inr (.inr rfl))

/-- Settles O54: of the ways to write the bank, entry writes the four registers and of `SR` bits 5:0, RFE of `SR` bits 3:0,
and MTC0 the register it names. -/
theorem onlyMtc0WritesOpaqueControlState : Obligations.OnlyMtc0WritesOpaqueControlState := by
  intro i s t n h hmove
  rcases c0_of_execEnd (exec_end i s t h) with hc | ⟨e, he⟩ | ⟨rt, m, rfl, rfl⟩ | rfl
  · exact ⟨fun _ _ _ _ => c0Get_congr hc n, fun _ _ _ _ => congrArg (BitVec.getLsbD · _) (c0Get_congr hc srNum)⟩
  · obtain ⟨-, -, hsr, -, -, -, hother, -⟩ := he
    refine ⟨hother n, fun _ k h6 h32 => ?_⟩
    rw [hsr k h32, if_neg (by omega), if_neg (by omega)]
  · have hn : n ≠ m := fun hn => hmove rt (hn ▸ rfl)
    refine ⟨fun _ _ _ _ => (c0Get_c0Set s m n _).trans (if_neg hn), fun h12 k _ _ => ?_⟩
    exact congrArg (BitVec.getLsbD · k) ((c0Get_c0Set s m srNum _).trans (if_neg fun he => hn (h12.trans he)))
  · refine ⟨fun _ h12 _ _ => c0Get_popModeStack_of_ne s h12, fun _ k h6 h32 => ?_⟩
    rw [popModeStack_sr, getLsbD_popModes s.sr k h32, if_neg (by omega)]

end

end Sys2Proof.Proofs
end

section
/-! SUPPORT. The step (40_execution_cycle.md R100 to R107, 60_exceptions.md R235, R236): the poll, phases 0 to 2, the fetch, and
where the program counters stand afterwards. -/

namespace Sys2Proof.Proofs

open Sys2Proof Sys2Proof.Machine Sys2Proof.Claims

/-! ### Every step answers -/

/-- Settles O14: `step` is `stepOnly` after the poll, and that always answers. -/
theorem everyStepAnswers : Obligations.EveryStepAnswers := fun s => stepOnly_answers s.pollInput

/-! ### Phases 0 to 2 (R101, R102) -/

section
variable (s : State)

/-- Phase 1 applies the write about to become visible, and no other. -/
theorem reg_beginStep_of_commit {r : Reg} {v : Word} (h : s.ldCommit = some ⟨r, v⟩) (x : Reg) :
    s.beginStep.reg x = if x = r ∧ r ≠ 0#5 then v else s.reg x := by
  rw [reg_beginStep, reg_commitPending, ageMarker_ldCommit, h]
  rfl

theorem reg_beginStep_of_no_commit (h : s.ldCommit = none) (x : Reg) : s.beginStep.reg x = s.reg x := by
  rw [reg_beginStep, reg_commitPending, ageMarker_ldCommit, h]
  rfl

theorem sameOutside_beginStep : SameOutside s s.beginStep := by
  simp [SameOutside, SameIo]

/-- A register that phase 1 does not write keeps its value. -/
theorem reg_beginStep_of_not_commit {r : Reg} (h : ∀ v, s.ldCommit ≠ some ⟨r, v⟩) : s.beginStep.reg r = s.reg r := by
  cases hc : s.ldCommit with
  | none => exact reg_beginStep_of_no_commit s hc r
  | some p =>
    rw [reg_beginStep_of_commit s hc, if_neg]
    rintro ⟨rfl, -⟩
    exact h p.value hc

end

/-- Settles O12: the laws of phases 0 to 2, field by field. -/
theorem ageingMovesTheDelayBufferAndMarker : Obligations.AgeingMovesTheDelayBufferAndMarker := by
  intro s t
  exact ⟨beginStep_dsCur s, beginStep_dsNext s, beginStep_ldCommit s, beginStep_ldArmed s,
    fun _ _ => reg_beginStep_of_commit s, reg_beginStep_of_no_commit s, beginStep_pc s, beginStep_npc s,
    beginStep_curPc s, c0Get_beginStep s, ⟨beginStep_hi s, beginStep_lo s⟩,
    fun a => congrArg (Memory.read · a) (beginStep_mem s), sameOutside_beginStep s⟩

/-! ### The poll (R235, R236) -/

/-- Settles O15: with the level copied in, the poll either enters Int, when the enabled and the pending bits meet, or leaves
the rest alone. -/
theorem pollTakesAnEnabledPendingInterrupt : Obligations.PollTakesAnEnabledPendingInterrupt := by
  constructor
  · intro s
    have hlevel : s.irqLevel = s.irqIn.headD false := by
      unfold State.irqLevel
      cases s.irqIn <;> rfl
    rw [← hlevel]
    rfl
  intro s irq c takes
  have hc : c = s.c0Set causeNum (causeWithIrq s.cause irq) := by rw [causeWithIrq_eq]; rfl
  have hsr : c.sr = s.sr := (c0Get_c0Set s 13#5 srNum _).trans (if_neg (by decide))
  have hcause : c.cause = causeWithIrq s.cause irq := by
    rw [hc]; exact (c0Get_c0Set s causeNum causeNum _).trans (if_pos rfl)
  have htakes : interruptTaken s.sr (causeWithIrq s.cause irq) = true ↔ takes := by
    rw [← hcause, ← hsr]
    exact interruptTaken_iff c.sr c.cause
  constructor
  · intro h
    rw [poll_taken s irq (htakes.2 h), ← hc]
    exact ⟨enteredFrom_enter { c with dsNext := false } .int s.pc s.dsNext,
      sameOutside_enter { c with dsNext := false } .int s.pc s.dsNext⟩
  · intro h
    rw [poll_not_taken s irq (mt htakes.1 h), hc]

/-! ### A word fetched from a memory of the core -/

section
variable {s t : State} {w : Word} {i : Instr}

/-- The word at an aligned `pc` in a memory is the one that runs (R103 to R105). -/
theorem stepOnly_of_memory (hpc : s.pc.toNat % 4 = 0)
    (hm : target s.params (physical s.pc) = .storage ∨ target s.params (physical s.pc) = .firmware)
    (hd : decode (s.mem.readLE (physical s.pc) 4) = .instr i) : stepOnly s = exec i (inStep s.beginStep) := by
  have hfetch := fetch_memory s.beginStep
  simp only [beginStep_pc, beginStep_params, beginStep_mem] at hfetch
  exact stepOnly_word (hfetch hpc hm) hd

theorem stepOnly_of_wordAtPc (ho : MapOrdered s) (hw : WordAtPc s.beginStep w) (hd : decode w = .instr i) :
    stepOnly s = exec i (inStep s.beginStep) := by
  obtain ⟨hpc, hm, hword⟩ := hw
  rw [beginStep_pc] at hpc
  simp only [inScratch_congr (beginStep_params s), inFirmware_congr (beginStep_params s), beginStep_pc] at hm
  refine stepOnly_of_memory hpc (target_memory s ho hm) ?_
  rw [← hd, hword, Memory.readLE_four, beginStep_mem, beginStep_pc]
  rfl

end

/-! ### A call on a handler -/

theorem sameCore_of_sameInside {s t : State} (h : SameInside s t) : SameCore s t :=
  ⟨⟨reg_congr h.gpr, c0Get_congr h.c0, ⟨h.hi, h.lo⟩, ⟨h.ldArmed, h.ldCommit⟩, h.pc, h.npc, h.curPc, h.dsCur, h.dsNext⟩,
    fun a => by rw [h.mem]⟩

section
variable (s : State)

/-- A call made after `cur_pc` was latched is a call made before. -/
theorem latch_callHandler (c : IoCall) : s.latch.callHandler c = (s.callHandler c).latch := by
  unfold State.callHandler
  cases h : s.ioIn <;> simp [State.latch, h]

/-- Entry after a call adds no call. -/
theorem calledOnce_raise {s t : State} {c : IoCall} (h : CalledOnce s t c) (e : Exc) : CalledOnce s (t.raise e) c := by
  simpa [CalledOnce] using h

end

/-! ### The fetch -/

/-- The poll and phases 0 to 2 keep the parameters. -/
theorem params_pollInput_beginStep (s : State) : s.pollInput.beginStep.params = s.params := by simp

/-- Settles O11: the fetch from a memory of the core, and the fetch through a handler that answers a value. -/
theorem stepRunsTheDecodedInstruction : Obligations.StepRunsTheDecodedInstruction := by
  constructor
  · intro s w i b ho hw hd
    exact stepOnly_of_wordAtPc ((mapOrdered_congr (pollInput_params s)).2 ho) hw hd
  · intro s w i b ho hpc hh hr hd
    have hob : MapOrdered b := (mapOrdered_congr (params_pollInput_beginStep s)).2 ho
    have hfetch := fetch_handler_value b hpc (target_handler b hob hh) hr
    refine ⟨_, ?_, sameCore_of_sameInside (sameInside_callHandler b _), calledOnce_callHandler b _⟩
    rw [latch_callHandler] at hfetch
    exact stepOnly_word hfetch hd

/-- Settles O13: the three ways a fetch ends in an exception; each skips phases 4 and 5. -/
theorem faultingFetchRaisesAndExecutesNothing : Obligations.FaultingFetchRaisesAndExecutesNothing := by
  intro s b c
  refine ⟨fun hpc => ?misaligned, fun hpc hu => ?nobody, fun ho hpc hh hr => ?fault⟩
  case misaligned =>
    exact ⟨_, stepOnly_raised (fetch_misaligned b hpc), enteredFrom_raise c _, sameOutside_raise c _⟩
  case nobody =>
    exact ⟨_, stepOnly_raised (fetch_nobody b hpc (target_nobody b hu)), enteredFrom_raise c _, sameOutside_raise c _⟩
  case fault =>
    have hob : MapOrdered b := (mapOrdered_congr (params_pollInput_beginStep s)).2 ho
    have hfetch := fetch_handler_fault b hpc (target_handler b hob hh) hr
    exact ⟨_, stepOnly_raised hfetch, (sameInside_callHandler c _).raise .ibe, calledOnce_raise (calledOnce_callHandler c _) .ibe⟩

/-! ### The program counters (10_state.md R13, R14) -/

/-- Where entry for the instruction at `at'` leaves the program counters, and what it records of them. -/
def VectoredFor (p : Config.Params) (at' : Word) (bd : Bool) (t : State) : Prop :=
  (t.pc = p.vecBoot ∨ t.pc = p.vecGeneral) ∧ t.npc = t.pc + 4#32 ∧ t.dsNext = false ∧
    t.epc = (if bd then at' - 4#32 else at') ∧ t.cause.getLsbD 31 = bd

theorem vectoredFor_of_enteredFrom {s t : State} {e : Exc} {at' : Word} {bd : Bool} (h : EnteredFrom s t e at' bd)
    (hds : s.dsNext = false) : VectoredFor s.params at' bd t := by
  obtain ⟨hpc, hnpc, -, hcause, hepc, -, -, -, -, -, -, -, -, hdsNext⟩ := h
  refine ⟨?_, hnpc, hdsNext.trans hds, hepc, hcause 31 (by decide)⟩
  rw [hpc]
  split
  · exact .inl rfl
  · exact .inr rfl

section
variable {i : Instr} {s t : State}

/-- An instruction enters an exception, or leaves `pc` alone; only a transfer then writes `npc`, and it sets the marker. -/
theorem flow_of_execEnd (h : ExecEnd i s t) :
    t.curPc = s.curPc ∧ t.dsCur = s.dsCur ∧
      ((∃ e, EnteredFrom s t e s.curPc s.dsCur) ∨
        (t.pc = s.pc ∧ ((t.npc = s.npc ∧ t.dsNext = s.dsNext) ∨ (t.dsNext = true ∧ transfers i = true)))) := by
  cases h with
  | raised hu e => exact ⟨(raise_curPc _ e).trans hu.curPc, (raise_dsCur _ e).trans hu.dsCur, .inl ⟨e, hu.raise e⟩⟩
  | wrote => simp
  | scheduled hu => simp [hu.curPc, hu.dsCur, hu.pc, hu.npc, hu.dsNext]
  | nothing | accumulated | moved | returned => exact ⟨rfl, rfl, .inr ⟨rfl, .inl ⟨rfl, rfl⟩⟩⟩
  | jumped a h => exact ⟨rfl, rfl, .inr ⟨rfl, .inr ⟨rfl, h⟩⟩⟩
  | linked rd v a h => simp [h]
  | stored hu => simp [hu.curPc, hu.dsCur, hu.pc, hu.npc, hu.dsNext]

/-- What an instruction leaves in the program counters, in terms of those before the latch, the fetch and the advance. -/
theorem flow_of_exec_advance {b u : State} (hu : SameInside b.latch u) (hb : b.dsNext = false)
    (h : exec i u.advance = .next t) :
    t.curPc = b.pc ∧ t.dsCur = b.dsCur ∧
      (VectoredFor b.params b.pc b.dsCur t ∨
        (t.pc = b.npc ∧ ((t.npc = b.npc + 4#32 ∧ t.dsNext = false) ∨ (t.dsNext = true ∧ transfers i = true)))) := by
  have hcur : u.advance.curPc = b.pc := hu.curPc
  have hds : u.advance.dsCur = b.dsCur := hu.dsCur
  have hnext : u.advance.dsNext = false := hu.dsNext.trans hb
  have hpc : u.advance.pc = b.npc := hu.npc
  have hnpc : u.advance.npc = b.npc + 4#32 := congrArg (· + 4#32) hu.npc
  have hparams : u.advance.params = b.params := hu.params
  rw [← hcur, ← hds, ← hpc, ← hparams, hpc, ← hnpc, ← hpc]
  obtain ⟨hcur', hds', ⟨e, he⟩ | ⟨hpc', hnpc'⟩⟩ := flow_of_execEnd (exec_end i _ t h)
  · exact ⟨hcur', hds', .inl (vectoredFor_of_enteredFrom he hnext)⟩
  · exact ⟨hcur', hds', .inr ⟨hpc', hnpc'.imp_left fun ⟨h1, h2⟩ => ⟨h1, h2.trans hnext⟩⟩⟩

/-- Entry inside a step, in terms of the state before the latch, the fetch and the advance. -/
theorem vectoredFor_raise {b v : State} {e : Exc} (hcur : v.curPc = b.pc) (hds : v.dsCur = b.dsCur)
    (hnext : v.dsNext = false) (hparams : v.params = b.params) :
    (v.raise e).curPc = b.pc ∧ (v.raise e).dsCur = b.dsCur ∧ VectoredFor b.params b.pc b.dsCur (v.raise e) := by
  rw [← hcur, ← hds, ← hparams]
  exact ⟨raise_curPc v e, raise_dsCur v e, vectoredFor_of_enteredFrom (enteredFrom_raise v e) hnext⟩

/-- Where a step leaves the program counters. -/
theorem flow_of_stepOnly (h : stepOnly s = .next t) :
    t.curPc = s.pc ∧ t.dsCur = s.dsNext ∧
      (VectoredFor s.params s.pc s.dsNext t ∨ (t.pc = s.npc ∧ (t.dsNext = false → t.npc = s.npc + 4#32))) := by
  rw [← beginStep_pc, ← beginStep_npc, ← beginStep_dsCur, ← beginStep_params]
  obtain ⟨u, hu, ⟨e, rfl⟩ | ⟨e, v, hv, rfl⟩ | ⟨i, hi⟩⟩ := stepOnly_cases h
  · obtain ⟨h1, h2, h3⟩ := vectoredFor_raise (e := e) hu.curPc hu.dsCur
      (hu.dsNext.trans (beginStep_dsNext s)) hu.params
    exact ⟨h1, h2, .inl h3⟩
  · obtain ⟨h1, h2, h3⟩ := vectoredFor_raise (e := e) (hv.curPc.trans hu.curPc) (hv.dsCur.trans hu.dsCur)
      (hv.dsNext.trans (hu.dsNext.trans (beginStep_dsNext s))) (hv.params.trans hu.params)
    exact ⟨h1, h2, .inl h3⟩
  · obtain ⟨h1, h2, h3⟩ := flow_of_exec_advance hu (beginStep_dsNext s) hi
    refine ⟨h1, h2, h3.imp_right fun ⟨hpc, hnpc⟩ => ⟨hpc, fun hds => ?_⟩⟩
    rcases hnpc with ⟨hnpc, -⟩ | ⟨hnext, -⟩
    · exact hnpc
    · rw [hds] at hnext; contradiction

end

/-- Settles O16: an exception, of the fetch or of the instruction, vectors; anything else keeps the in-step `pc`. -/
theorem programCounterFlow : Obligations.ProgramCounterFlow := by
  intro s t h
  obtain ⟨hcur, hds, hflow⟩ := flow_of_stepOnly h
  exact ⟨hds, hcur, hflow⟩

/-- Settles O17: an instruction that is no transfer leaves `npc` four further, or vectors with `BD` and the branch's
address, because phase 0 moved the pending marker to `ds_cur`. -/
theorem delaySlotRunsBeforeTheTarget : Obligations.DelaySlotRunsBeforeTheTarget := by
  intro s t w i ho hds hw hd htransfer h
  rw [stepOnly_of_wordAtPc ho hw hd] at h
  obtain ⟨hcur, hdsCur, hflow⟩ := flow_of_exec_advance (.refl s.beginStep.latch) (beginStep_dsNext s) h
  simp only [beginStep_pc, beginStep_npc, beginStep_dsCur, beginStep_params, hds] at hcur hdsCur hflow
  rcases hflow with ⟨hpc, hnpc, hnext, hepc, hbd⟩ | ⟨hpc, ⟨hnpc, hnext⟩ | ⟨-, htransfer'⟩⟩
  · exact ⟨hdsCur, hcur, hnext, .inr ⟨hpc, hnpc, hepc, hbd⟩⟩
  · exact ⟨hdsCur, hcur, hnext, .inl ⟨hpc, hnpc⟩⟩
  · rw [htransfer] at htransfer'; contradiction

/-! ### The delay buffer (R111) -/

/-- The write about to become visible stays, or is discarded by an instruction that writes or schedules its register. -/
theorem ldCommit_of_execEnd {i : Instr} {s t : State} (h : ExecEnd i s t) {r : Reg} {v : Word}
    (hc : s.ldCommit = some ⟨r, v⟩) :
    t.ldCommit = some ⟨r, v⟩ ∨ (t.ldCommit = none ∧ (writesReg i = some r ∨ schedules i = some r)) := by
  have hwrite (rd : Reg) (x : Word) (hw : writesReg i = some rd) :
      (s.writeReg rd x).ldCommit = some ⟨r, v⟩ ∨
        ((s.writeReg rd x).ldCommit = none ∧ (writesReg i = some r ∨ schedules i = some r)) := by
    rw [ldCommit_writeReg]
    split
    case isTrue hcancel =>
      obtain ⟨-, hpends, -⟩ := hcancel
      rw [hc, pendsOn_some, beq_iff_eq] at hpends
      exact .inr ⟨rfl, .inl (hpends ▸ hw)⟩
    case isFalse => exact .inl hc
  cases h with
  | raised hu e => exact .inl ((raise_ldCommit _ e).trans (hu.ldCommit.trans hc))
  | wrote rd x hw => exact hwrite rd x hw
  | @scheduled u hu rt x hs =>
    rw [ldCommit_armReg, hu.ldCommit]
    split
    case isTrue hcancel =>
      obtain ⟨-, hpends⟩ := hcancel
      rw [hc, pendsOn_some, beq_iff_eq] at hpends
      exact .inr ⟨rfl, .inr (hpends ▸ hs)⟩
    case isFalse => exact .inl hc
  | nothing | jumped | accumulated | moved | returned => exact .inl hc
  | linked rd x a _ hw => exact hwrite rd x hw
  | stored hu a w x => exact .inl ((memWrite_ldCommit _ a w x).trans (hu.ldCommit.trans hc))

/-- Settles O18: the armed write is in `ld_commit` while the next instruction runs, so that one reads the old value; phase 1
of the step after applies it unless it was discarded. -/
theorem loadedValueIsSeenTwoStepsLater : Obligations.LoadedValueIsSeenTwoStepsLater := by
  intro s t r v w i ho hr harmed hfree hw hd h
  rw [stepOnly_of_wordAtPc ho hw hd] at h
  have hc : (inStep s.beginStep).ldCommit = some ⟨r, v⟩ := (beginStep_ldCommit s).trans harmed
  refine ⟨h, reg_beginStep_of_not_commit s hfree, ?_⟩
  rcases ldCommit_of_execEnd (exec_end i _ t h) hc with hc' | ⟨hc', hwrites⟩
  · refine .inl ⟨hc', ?_⟩
    rw [reg_beginStep_of_commit t hc', if_pos ⟨rfl, hr⟩]
  · exact .inr ⟨hc', reg_beginStep_of_no_commit t hc' r, hwrites⟩

/-! ### Firmware (20_memory.md R45) -/

/-- Settles O42: around the instruction no phase touches memory, and the instruction changes main and scratch memory only,
which no ordered map lets overlap firmware. -/
theorem firmwareIsImmutable : Obligations.FirmwareIsImmutable := by
  intro s t ho h p hp
  have hmem : s.pollInput.beginStep.latch.mem = s.mem := by simp
  have hparams : s.pollInput.beginStep.latch.params = s.params := by simp
  obtain ⟨u, hu, ⟨e, rfl⟩ | ⟨e, v, hv, rfl⟩ | ⟨i, hi⟩⟩ := stepOnly_cases h
  · rw [raise_mem, hu.mem, hmem]
  · rw [raise_mem, hv.mem, advance_mem, hu.mem, hmem]
  · have huparams : u.advance.params = s.params := hu.params.trans hparams
    have humem : u.advance.mem = s.mem := hu.mem.trans hmem
    by_contra hne
    rw [← humem] at hne
    have hin := inStorage_of_execEnd (exec_end i _ t hi) ((mapOrdered_congr huparams).2 ho) hne
    rw [inScratch_congr huparams] at hin
    unfold MapOrdered at ho
    unfold InMain InScratch at hin
    unfold InFirmware at hp
    omega

/-! ### An instruction placed for the coming fetch (log 18) -/

/-- A word of 32 bits is the table's word of that width. -/
theorem tableWord_toNat (w : Word) : tableWord 32 w.toNat = w := by
  rw [tableWord, Nat.mod_eq_of_lt w.isLt, BitVec.ofNat_toNat, BitVec.setWidth_eq]

/-- Memory has no part in where the step fetches. -/
theorem fetchAddr_withMem (s : State) (m : Memory) : { s with mem := m }.fetchAddr = s.fetchAddr := by
  by_cases h : s.pollTakes = true
  · exact (pollInput_pc_taken { s with mem := m } h).trans (pollInput_pc_taken s h).symm
  · exact (pollInput_pc_not_taken { s with mem := m } h).trans (pollInput_pc_not_taken s h).symm

/-- In a memory of the core the word is placed by writing it. -/
theorem placeAt_memory {s : State} {a : Word}
    (hm : target s.params (physical a) = .storage ∨ target s.params (physical a) = .firmware) (w : Word) :
    s.placeAt a w = { s with mem := s.mem.writeLE (physical a) 4 w } := by
  rcases hm with h | h <;> simp only [State.placeAt, ← physical_eq_translateAddr, h]

/-- A word placed in a memory of the core where the step fetches is the one that runs. -/
theorem step_placeAt {s : State} {a w : Word} {i : Instr} (haddr : s.fetchAddr = a) (haligned : a.toNat % 4 = 0)
    (hm : target s.params (physical a) = .storage ∨ target s.params (physical a) = .firmware)
    (hd : decode w = .instr i) : step (s.placeAt a w) = exec i (inStep (s.placeAt a w).pollInput.beginStep) := by
  rw [placeAt_memory hm]
  have hpc : { s with mem := s.mem.writeLE (physical a) 4 w }.pollInput.pc = a := (fetchAddr_withMem s _).trans haddr
  apply stepOnly_of_memory
  · rw [hpc]; exact haligned
  · rw [hpc, pollInput_params]; exact hm
  · rw [hpc, pollInput_mem, Memory.readLE_writeLE 4 (by decide), ← hd]
    congr 1
    simp

/-- Settles O57: where the fetch can read a memory, the word is written there; else the fetch moves to main memory and
the word with it. -/
theorem placedInstructionIsRun : Obligations.PlacedInstructionIsRun := by
  intro s w i hd hh
  rw [State.withFetchWord, tableWord_toNat, State.placeNext]
  split
  case isTrue hfetch =>
    simp only [State.fetchable, Bool.and_eq_true, beq_iff_eq, bne_iff_ne, lowBits_eq_zero,
      ← physical_eq_translateAddr] at hfetch
    obtain ⟨haligned, hsome⟩ := hfetch
    refine step_placeAt rfl haligned ?_ hd
    rcases target_cases s (physical s.fetchAddr) with ⟨h, -⟩ | ⟨h, -⟩ | ⟨-, h⟩ | ⟨h, -⟩
    · exact .inl h
    · exact .inr h
    · exact absurd h hh
    · exact absurd h hsome
  case isFalse =>
    have hmain : physical mainStart < 0x200000 := by decide
    exact step_placeAt (fetchAddr_toMainMemory s) (by decide) (.inl (target_storage s.toMainMemory (.inl hmain))) hd

end Sys2Proof.Proofs
end

section
/-! SUPPORT. The invariant (10_state.md R11, R13, R18, R28): it holds after construction, and every phase of a step keeps what
it says. -/

namespace Sys2Proof.Proofs

open Sys2Proof Sys2Proof.Machine Sys2Proof.Claims

/-! ### The part of the invariant that holds inside a step too -/

/-- The invariant but for its clause on `npc`, which the middle of a step breaks. -/
structure Sound (s : State) : Prop where
  memWf : s.mem.wf = true
  memPlace : ∀ c ∈ s.mem, InMain c.1 ∨ InScratch s c.1 ∨ InFirmware s c.1
  zeroReg : s.gpr[0] = 0#32
  armedReg : ∀ v, s.ldArmed ≠ some ⟨0#5, v⟩
  commitReg : ∀ v, s.ldCommit ≠ some ⟨0#5, v⟩
  oneWrite : ∀ r v w, ¬ (s.ldArmed = some ⟨r, v⟩ ∧ s.ldCommit = some ⟨r, w⟩)
  paramsWf : s.params.wellFormed = true

section
variable {s t : State}

/-- The order of the map follows from the parameters. -/
theorem invariant_iff : Invariant s ↔ Sound s ∧ (s.dsNext = false → s.npc = s.pc + 4#32) where
  mp h := ⟨⟨h.memWf, h.memPlace, h.zeroReg, h.armedReg, h.commitReg, h.oneWrite, h.paramsWf⟩, h.lookAhead⟩
  mpr := fun ⟨h, hnpc⟩ => ⟨h.memWf, h.memPlace, h.zeroReg, h.armedReg, h.commitReg, h.oneWrite, hnpc,
    mapOrdered_of_wellFormed s h.paramsWf, h.paramsWf⟩

/-- A state with the same register file, buffer, memory and parameters is as sound. -/
theorem Sound.congr (h : Sound s) (hgpr : t.gpr = s.gpr) (harmed : t.ldArmed = s.ldArmed)
    (hcommit : t.ldCommit = s.ldCommit) (hmem : t.mem = s.mem) (hparams : t.params = s.params) : Sound t := by
  obtain ⟨h1, h2, h3, h4, h5, h6, h7⟩ := h
  constructor <;>
    simpa only [hgpr, harmed, hcommit, hmem, hparams, inScratch_congr hparams, inFirmware_congr hparams]

theorem Sound.sameInside (h : Sound s) (hu : SameInside s t) : Sound t :=
  h.congr hu.gpr hu.ldArmed hu.ldCommit hu.mem hu.params

/-! ### The operations of a step keep it -/

theorem Sound.raise (h : Sound s) (e : Exc) : Sound (s.raise e) := by
  apply h.congr <;> simp

/-- A register-file write leaves register 0 alone. -/
theorem gpr_zero_setReg (s : State) (i : Reg) (v : Word) : (s.setReg i v).gpr[0] = s.gpr[0] := by
  unfold State.setReg
  split
  · rfl
  · rename_i hi
    have hne : i.toNat ≠ 0 := fun h => hi (BitVec.eq_of_toNat_eq h)
    simp [hne]

theorem gpr_writeReg (s : State) (i : Reg) (v : Word) : (s.writeReg i v).gpr = (s.setReg i v).gpr := by
  unfold State.writeReg
  split
  case isTrue hi => simp [State.setReg, hi]
  case isFalse => split <;> rfl

/-- An immediate write keeps the pending write or discards it. -/
theorem ldCommit_writeReg_cases (s : State) (i : Reg) (v : Word) :
    (s.writeReg i v).ldCommit = none ∨ (s.writeReg i v).ldCommit = s.ldCommit := by
  rw [ldCommit_writeReg]
  split
  · exact .inl rfl
  · exact .inr rfl

theorem Sound.writeReg (h : Sound s) (i : Reg) (v : Word) : Sound (s.writeReg i v) where
  memWf := by rw [writeReg_mem]; exact h.memWf
  memPlace := by
    simpa only [writeReg_mem, inScratch_congr (writeReg_params s i v), inFirmware_congr (writeReg_params s i v)]
      using h.memPlace
  zeroReg := by simpa only [gpr_writeReg, gpr_zero_setReg] using h.zeroReg
  armedReg := by rw [writeReg_ldArmed]; exact h.armedReg
  commitReg := by
    rcases ldCommit_writeReg_cases s i v with hc | hc <;> rw [hc]
    · exact fun _ => nofun
    · exact h.commitReg
  oneWrite := by
    rw [writeReg_ldArmed]
    rcases ldCommit_writeReg_cases s i v with hc | hc <;> rw [hc]
    · exact fun _ _ _ h => nomatch h.2
    · exact h.oneWrite
  paramsWf := by rw [writeReg_params]; exact h.paramsWf

/-- A deferred write of another register than 0 discards a pending one of its own (R109), so no two target one register. -/
theorem Sound.armReg (h : Sound s) (i : Reg) (v : Word) : Sound (s.armReg i v) where
  memWf := by rw [armReg_mem]; exact h.memWf
  memPlace := by
    simpa only [armReg_mem, inScratch_congr (armReg_params s i v), inFirmware_congr (armReg_params s i v)]
      using h.memPlace
  zeroReg := by simpa only [armReg_gpr] using h.zeroReg
  armedReg x := by
    rw [ldArmed_armReg]
    split
    · exact h.armedReg x
    · simp [*]
  commitReg x := by
    rw [ldCommit_armReg]
    split
    · nofun
    · exact h.commitReg x
  oneWrite r x y := by
    rw [ldArmed_armReg, ldCommit_armReg]
    by_cases hi : i = 0#5
    · simpa [hi] using h.oneWrite r x y
    by_cases hp : pendsOn s.ldCommit i = true
    · simp [hi, hp]
    · rintro ⟨harmed, hcommit⟩
      obtain rfl : i = r := by simp_all
      exact hp ((pendsOn_iff _ _).2 ⟨y, by simpa [hp] using hcommit⟩)
  paramsWf := by rw [armReg_params]; exact h.paramsWf

theorem Sound.memWrite (h : Sound s) {a : Word} {w : Width} (v : Word) (ha : w.aligned a = true) :
    Sound (s.memWrite a w v).state where
  memWf := memWrite_wf s a w v h.memWf
  memPlace := by
    simpa only [inScratch_congr (memWrite_params s a w v), inFirmware_congr (memWrite_params s a w v)]
      using memWrite_place s a w v ha (mapOrdered_of_wellFormed s h.paramsWf) h.memPlace
  zeroReg := by simpa only [memWrite_gpr] using h.zeroReg
  armedReg := by simpa only [memWrite_ldArmed] using h.armedReg
  commitReg := by simpa only [memWrite_ldCommit] using h.commitReg
  oneWrite := by simpa only [memWrite_ldArmed, memWrite_ldCommit] using h.oneWrite
  paramsWf := by simpa only [memWrite_params] using h.paramsWf

/-- Every instruction keeps it, whichever way it ends. -/
theorem Sound.execEnd {i : Instr} (h : Sound s) (hend : ExecEnd i s t) : Sound t := by
  cases hend with
  | raised hu e => exact (h.sameInside hu).raise e
  | wrote rd v => exact h.writeReg rd v
  | scheduled hu rt v => exact (h.sameInside hu).armReg rt v
  | nothing => exact h
  | jumped | accumulated | moved | returned => exact h.congr rfl rfl rfl rfl rfl
  | linked rd v => exact (h.writeReg rd v).congr rfl rfl rfl rfl rfl
  | stored hu a w v _ ha => exact (h.sameInside hu).memWrite v ha

/-- Phases 0 to 2 keep it: the armed write moves on, and phase 1 never writes register 0. -/
theorem Sound.beginStep (h : Sound s) : Sound s.beginStep where
  memWf := by rw [beginStep_mem]; exact h.memWf
  memPlace := by
    simpa only [beginStep_mem, inScratch_congr (beginStep_params s), inFirmware_congr (beginStep_params s)]
      using h.memPlace
  zeroReg := by
    change s.ageMarker.commitPending.gpr[0] = 0#32
    unfold State.commitPending
    split
    · exact (gpr_zero_setReg _ _ _).trans h.zeroReg
    · exact h.zeroReg
  armedReg := fun _ => nofun
  commitReg := by rw [beginStep_ldCommit]; exact h.armedReg
  oneWrite := fun _ _ _ h => nomatch h.1
  paramsWf := by rw [beginStep_params]; exact h.paramsWf

theorem Sound.pollInput (h : Sound s) : Sound s.pollInput := by
  apply h.congr <;> simp

theorem Sound.stepOnly (h : Sound s) (hstep : stepOnly s = .next t) : Sound t := by
  obtain ⟨u, hu, ⟨e, rfl⟩ | ⟨e, v, hv, rfl⟩ | ⟨i, hi⟩⟩ := stepOnly_cases hstep
  all_goals have hlatch : Sound u := (h.beginStep.congr rfl rfl rfl rfl rfl : Sound s.beginStep.latch).sameInside hu
  · exact hlatch.raise e
  · exact ((hlatch.congr rfl rfl rfl rfl rfl : Sound u.advance).sameInside hv).raise e
  · exact (hlatch.congr rfl rfl rfl rfl rfl : Sound u.advance).execEnd (exec_end i _ t hi)

end

/-- Settles O4: the poll and the step keep the sound part; the clause on `npc` holds after every step, from any state. -/
theorem everyStepKeepsInvariant : Obligations.EveryStepKeepsInvariant := by
  intro s t h hstep
  obtain ⟨hsound, -⟩ := invariant_iff.1 h
  refine invariant_iff.2 ⟨hsound.pollInput.stepOnly hstep, ?_⟩
  obtain ⟨-, -, ⟨-, hnpc, -⟩ | ⟨hpc, hnpc⟩⟩ := flow_of_stepOnly hstep
  · exact fun _ => hnpc
  · rw [hpc]; exact hnpc

/-! ### Reset (70_reset_and_hazards.md R260) -/

section
variable (s : State)

theorem reg_resetCall (r : Reg) : s.resetCall.reg r = 0#32 := by
  simp [State.reg, State.resetCall]

/-- The bank after reset: `SR` and `PRID` from the parameters, 0 elsewhere. -/
theorem c0Get_resetCall (n : Reg) :
    s.resetCall.c0Get n = if n = 12#5 then s.params.srReset else if n = 15#5 then s.params.pridValue else 0#32 := by
  have hset := vector_get_set ((Vector.replicate 32 0#32).set 12 s.params.srReset) 15#5 n s.params.pridValue
  have hset' := vector_get_set (Vector.replicate 32 0#32) 12#5 n s.params.srReset
  change (((Vector.replicate 32 0#32).set 12 s.params.srReset).set 15 s.params.pridValue)[n.toNat] = _
  refine hset.trans ?_
  by_cases h12 : n = 12#5
  · subst h12; exact hset'.trans (if_pos rfl)
  by_cases h15 : n = 15#5
  · simp [h15]
  · rw [if_neg h15, if_neg h12, if_neg h15]
    refine hset'.trans ?_
    simp [h12]

theorem sameOutside_resetCall : SameOutside s s.resetCall := ⟨⟨rfl, rfl, rfl, rfl, rfl⟩, rfl⟩

/-- Reset leaves a sound state where memory and parameters were so. -/
theorem invariant_resetCall (hwf : s.mem.wf = true)
    (hplace : ∀ c ∈ s.mem, InMain c.1 ∨ InScratch s c.1 ∨ InFirmware s c.1) (hparams : s.params.wellFormed = true) :
    Invariant s.resetCall :=
  invariant_iff.2 ⟨⟨hwf, hplace, by simp [State.resetCall], fun _ => nofun, fun _ => nofun,
    by simp [State.resetCall], hparams⟩, fun _ => rfl⟩

end

/-! ### Construction (R260, R261) -/

section
variable {p : Config.Params} {firmware : List Byte}

/-- The core before its reset: the parameters, the image, nothing else. -/
def unreset (p : Config.Params) (firmware : List Byte) : State :=
  { State.reset with params := p, mem := Memory.ofBytes p.fwBase firmware }

theorem construct_of_wellFormed (hlen : firmware.length = 524288) (hp : p.wellFormed = true) :
    State.construct p firmware = some (unreset p firmware).resetCall := by
  have himage : Config.firmwareWellFormed firmware = true := decide_eq_true hlen
  rw [State.construct, himage, hp]
  rfl

theorem construct_of_not_wellFormed (h : firmware.length ≠ 524288 ∨ p.wellFormed = false) :
    State.construct p firmware = none := by
  rw [State.construct, if_neg]
  rw [Bool.and_eq_true]
  rintro ⟨himage, hp⟩
  rcases h with hlen | hp'
  · exact hlen (of_decide_eq_true himage)
  · rw [hp'] at hp; contradiction

theorem eq_of_construct {t : State} (h : State.construct p firmware = some t) :
    firmware.length = 524288 ∧ p.wellFormed = true ∧ t = (unreset p firmware).resetCall := by
  by_cases hlen : firmware.length = 524288
  · cases hp : p.wellFormed with
    | true => exact ⟨hlen, rfl, Option.some.inj (h.symm.trans (construct_of_wellFormed hlen hp))⟩
    | false => rw [construct_of_not_wellFormed (.inr hp)] at h; contradiction
  · rw [construct_of_not_wellFormed (.inl hlen)] at h; contradiction

/-- Interrupts are disabled at reset in a well-formed configuration (92_eei_decisions.md). -/
theorem srReset_bit_of_wellFormed (hp : p.wellFormed = true) : p.srReset.getLsbD 0 = false := by
  simp only [Config.Params.wellFormed, Bool.and_eq_true, Bool.not_eq_true'] at hp
  exact hp.2

/-- The image stands from the firmware base on. -/
theorem read_image {k : Nat} : (Memory.ofBytes p.fwBase firmware).read (p.fwBase + k) = firmware.getD k 0#8 := by
  rw [Memory.read_ofBytes, if_pos (by omega), Nat.add_sub_cancel_left]

/-- Outside firmware every byte is 0. -/
theorem read_outside_image (hlen : firmware.length = 524288) {a : Nat}
    (ha : ¬ (p.fwBase ≤ a ∧ a < p.fwBase + 0x80000)) : (Memory.ofBytes p.fwBase firmware).read a = 0#8 := by
  rw [Memory.read_ofBytes]
  split
  case isTrue hle => exact List.getD_eq_default _ _ (by omega)
  case isFalse => rfl

end

/-- Settles O1: the laws of the reset call, and construction as a reset of the state that holds the image. -/
theorem constructAndResetLeaveBootState : Obligations.ConstructAndResetLeaveBootState := by
  refine ⟨fun s => ?reset, fun p firmware hlen hp => ?core, fun p firmware => construct_of_not_wellFormed⟩
  case reset =>
    have hc0 := c0Get_resetCall s
    exact ⟨rfl, rfl, rfl, reg_resetCall s, rfl, rfl, rfl, rfl, rfl, rfl, hc0,
      fun h => ⟨h, congrArg (· + 4#32) h⟩, fun h => (hc0 srNum).trans h, fun h => (hc0 prIdNum).trans h,
      fun _ => rfl, sameOutside_resetCall s⟩
  case core =>
    refine ⟨_, construct_of_wellFormed hlen hp, rfl, rfl, ?_, fun k _ => read_image, fun a => read_outside_image hlen⟩
    rw [State.sr, c0Get_resetCall]
    exact srReset_bit_of_wellFormed hp

/-- Settles O2: `State.reset` is the reset of itself, with nothing in memory. -/
theorem resetMeetsInvariant : Obligations.ResetMeetsInvariant :=
  invariant_resetCall State.reset rfl nofun (by decide)

/-- Settles O3: a core is the reset of a state that holds nothing but a firmware image, which is canonical and in its place. -/
theorem constructedCoreMeetsInvariant : Obligations.ConstructedCoreMeetsInvariant := by
  intro p firmware t h
  obtain ⟨hlen, hp, rfl⟩ := eq_of_construct h
  refine invariant_resetCall _ (Memory.wf_ofBytes firmware _) (fun c hc => .inr (.inr ?_)) hp
  have hin := Memory.mem_ofBytes firmware hc
  rw [hlen] at hin
  exact hin

/-! ### The default configuration (00_scope.md R4, 20_memory.md R42) -/

/-- Settles O58: the defaults are the numbers, and with the default bases the regions of `region_eq` are R42's rows. -/
theorem defaultConfigurationIsThatOfTheSpec : Obligations.DefaultConfigurationIsThatOfTheSpec := by
  refine ⟨rfl, rfl, rfl, rfl, rfl, rfl, rfl, rfl, rfl, by decide, rfl, fun c p hscratch hio hfw => ?_⟩
  have hregion := region_eq { State.reset with params := c } p
  have hmain : p < 0x200000 ↔ p ≤ 0x001FFFFF := by omega
  have hscratch' : p < 0x1F800000 + 0x400 ↔ p ≤ 0x1F8003FF := by omega
  have hio' : p < 0x1F801000 + 0x1000 ↔ p ≤ 0x1F801FFF := by omega
  have hfw' : p < 0x1FC00000 + 0x80000 ↔ p ≤ 0x1FC7FFFF := by omega
  simp only [hscratch, hio, hfw, Config.defaults, hmain, hscratch', hio', hfw'] at hregion
  exact hregion

end Sys2Proof.Proofs
end

section
/-! SUPPORT. Two states that differ in the log and in `SR` only: every instruction does the same to both. The log is a side
channel because nothing reads it (70_reset_and_hazards.md R272), the privilege bit has no effect because only the vector bit
of `SR` is read (60_exceptions.md R242, R246). -/

namespace Sys2Proof.Proofs

open Sys2Proof Sys2Proof.Machine Sys2Proof.Claims

/-! ### Twins -/

/-- What two values of `SR` may differ in so that no instruction but MFC0 tells them apart: not in the vector bit, and their
difference stays allowed when the mode stack is pushed or popped. -/
structure Unread (S : Word → Word → Prop) : Prop where
  refl : ∀ a, S a a
  vector : ∀ {a b}, S a b → srBEV b = srBEV a
  push : ∀ {a b}, S a b → S (pushModes a) (pushModes b)
  pop : ∀ {a b}, S a b → S (popModes a) (popModes b)

theorem unread_eq : Unread (· = ·) where
  refl _ := rfl
  vector h := by rw [h]
  push h := by rw [h]
  pop h := by rw [h]

theorem unread_vectorBit : Unread (fun a b => srBEV b = srBEV a) where
  refl _ := rfl
  vector h := h
  push h := by
    unfold srBEV
    rw [getLsbD_pushModes _ 22 (by decide), getLsbD_pushModes _ 22 (by decide)]
    exact h
  pop h := by
    unfold srBEV
    rw [getLsbD_popModes _ 22 (by decide), getLsbD_popModes _ 22 (by decide)]
    exact h

/-- `s'` is `s` but for the log, which grew by the same events from `l` as that of `s` did from `old`, and for `SR`, where
the two are in the relation `S`. -/
def Twin (S : Word → Word → Prop) (old l : List LogEvent) (s s' : State) : Prop :=
  ∃ (new : List LogEvent) (bank : Vector Word 32), s.log = old ++ new ∧
    s' = { s with log := l ++ new, c0 := bank } ∧ (∀ n : Reg, n ≠ srNum → bank[n.toNat] = s.c0Get n) ∧
    S s.sr bank[srNum.toNat]

/-- The operation neither reads nor writes the log and the system-control bank. -/
def Blind (f : State → State) : Prop :=
  ∀ s l bank, f { s with log := l, c0 := bank } = { f s with log := l, c0 := bank }

theorem blind_writeReg (i : Reg) (v : Word) : Blind (·.writeReg i v) := by
  intro s l bank
  by_cases hi : i = 0#5
  · simp only [State.writeReg, hi, if_true]
  · cases hp : s.params.precedence <;> simp only [State.writeReg, hi, hp, if_false] <;> rfl

theorem blind_armReg (i : Reg) (v : Word) : Blind (·.armReg i v) := by
  intro s l bank
  by_cases hi : i = 0#5 <;> simp only [State.armReg, hi, if_true, if_false]
  rfl

theorem blind_jumpTo (a : Word) : Blind (·.jumpTo a) := fun _ _ _ => rfl

theorem blind_setAccumulators (hi lo : Word) : Blind ({ · with hi := hi, lo := lo }) := fun _ _ _ => rfl

theorem blind_setMem (m : Memory) : Blind ({ · with mem := m }) := fun _ _ _ => rfl

theorem blind_advance : Blind State.advance := fun _ _ _ => rfl

theorem blind_callHandler (call : IoCall) : Blind (·.callHandler call) := by
  intro s l bank
  cases hio : s.ioIn <;> simp only [State.callHandler, hio]

/-! ### The operations keep twins -/

section
variable {S : Word → Word → Prop} {old l : List LogEvent} {s s' : State}

theorem Twin.blind (h : Twin S old l s s') {f : State → State} (hf : Blind f) : Twin S old l (f s) (f s') := by
  obtain ⟨new, bank, hlog, rfl, hbank, hsr⟩ := h
  have hown : f s = { f s with log := s.log, c0 := s.c0 } := hf s s.log s.c0
  have hc0 : (f s).c0 = s.c0 := by rw [hown]
  have hflog : (f s).log = s.log := by rw [hown]
  refine ⟨new, bank, hflog.trans hlog, hf s _ bank, fun n hn => ?_, ?_⟩
  · rw [hbank n hn, c0Get_congr hc0 n]
  · rw [State.sr, c0Get_congr hc0]; exact hsr

theorem Twin.logEvent (h : Twin S old l s s') (e : LogEvent) : Twin S old l (s.logEvent e) (s'.logEvent e) := by
  obtain ⟨new, bank, hlog, rfl, hbank, hsr⟩ := h
  refine ⟨new ++ [e], bank, ?_, ?_, hbank, hsr⟩
  · simp [State.logEvent, hlog]
  · simp [State.logEvent]

/-- A write of the same value to the bank. -/
theorem Twin.c0Set (h : Twin S old l s s') (hS : Unread S) (n : Reg) (v : Word) :
    Twin S old l (s.c0Set n v) (s'.c0Set n v) := by
  obtain ⟨new, bank, hlog, rfl, hbank, hsr⟩ := h
  refine ⟨new, bank.set n.toNat v, hlog, rfl, fun m hm => ?_, ?_⟩
  · rw [vector_get_set, c0Get_c0Set, hbank m hm]
  · rw [vector_get_set, State.sr, c0Get_c0Set]
    split
    · exact hS.refl v
    · exact hsr

theorem Twin.popModeStack (h : Twin S old l s s') (hS : Unread S) : Twin S old l s.popModeStack s'.popModeStack := by
  obtain ⟨new, bank, hlog, rfl, hbank, hsr⟩ := h
  refine ⟨new, bank.set srNum.toNat (popModes bank[srNum.toNat]), hlog, rfl, fun m hm => ?_, ?_⟩
  · rw [vector_get_set, if_neg hm, hbank m hm, c0Get_popModeStack_of_ne s hm]
  · rw [vector_get_set, if_pos rfl, popModeStack_sr]
    exact hS.pop hsr

/-- Entry with another log and bank, the vector bit the same: the same but for the log and the bank. -/
theorem raise_with (s : State) (e : Exc) {l : List LogEvent} {bank : Vector Word 32}
    (hv : srBEV bank[srNum.toNat] = srBEV s.sr) :
    { s with log := l, c0 := bank }.raise e =
      { s.raise e with log := l, c0 := ({ s with log := l, c0 := bank }.raise e).c0 } := by
  have hvec : vector s.params bank[srNum.toNat] = vector s.params s.sr := by simp only [vector, hv]
  have hpc : ({ s with log := l, c0 := bank }.raise e).pc = (s.raise e).pc := hvec
  have hnpc : ({ s with log := l, c0 := bank }.raise e).npc = (s.raise e).npc := congrArg (· + 4#32) hvec
  apply State.ext <;> simp [hpc, hnpc]

theorem Twin.raise (h : Twin S old l s s') (hS : Unread S) (e : Exc) : Twin S old l (s.raise e) (s'.raise e) := by
  obtain ⟨new, bank, hlog, rfl, hbank, hsr⟩ := h
  refine ⟨new, _, (raise_log s e).trans hlog, raise_with s e (hS.vector hsr), fun n hn => ?_, ?_⟩
  · have hother (m : Reg) (hm : m ≠ srNum) : State.c0Get { s with log := l ++ new, c0 := bank } m = s.c0Get m := hbank m hm
    change (State.enter _ _ _ _).c0Get n = (State.enter _ _ _ _).c0Get n
    rw [c0Get_enter, c0Get_enter, hother n hn]
    simp only [State.cause, State.badVAddr, hother causeNum (by decide), hother badVAddrNum (by decide), if_neg hn]
  · change S (State.enter _ _ _ _).sr (State.enter _ _ _ _).sr
    rw [enter_sr, enter_sr]
    exact hS.push hsr

/-! ### What twins have in common -/

theorem Twin.exists_eq (h : Twin S old l s s') : ∃ l' bank, s' = { s with log := l', c0 := bank } := by
  obtain ⟨new, bank, -, hs', -⟩ := h
  exact ⟨_, bank, hs'⟩

theorem Twin.reg (h : Twin S old l s s') (r : Reg) : s'.reg r = s.reg r := by
  obtain ⟨_, _, rfl⟩ := h.exists_eq; rfl

theorem Twin.inFlight (h : Twin S old l s s') (r : Reg) : s'.inFlight r = s.inFlight r := by
  obtain ⟨_, _, rfl⟩ := h.exists_eq; rfl

theorem Twin.ea (h : Twin S old l s s') (rs : Reg) (imm : Half) : s'.ea rs imm = s.ea rs imm := by
  obtain ⟨_, _, rfl⟩ := h.exists_eq; rfl

theorem Twin.pc (h : Twin S old l s s') : s'.pc = s.pc := by
  obtain ⟨_, _, rfl⟩ := h.exists_eq; rfl

theorem Twin.npc (h : Twin S old l s s') : s'.npc = s.npc := by
  obtain ⟨_, _, rfl⟩ := h.exists_eq; rfl

theorem Twin.curPc (h : Twin S old l s s') : s'.curPc = s.curPc := by
  obtain ⟨_, _, rfl⟩ := h.exists_eq; rfl

theorem Twin.hi (h : Twin S old l s s') : s'.hi = s.hi := by
  obtain ⟨_, _, rfl⟩ := h.exists_eq; rfl

theorem Twin.lo (h : Twin S old l s s') : s'.lo = s.lo := by
  obtain ⟨_, _, rfl⟩ := h.exists_eq; rfl

theorem Twin.mem (h : Twin S old l s s') : s'.mem = s.mem := by
  obtain ⟨_, _, rfl⟩ := h.exists_eq; rfl

theorem Twin.target (h : Twin S old l s s') (p : Nat) : Machine.target s'.params p = Machine.target s.params p := by
  obtain ⟨_, _, rfl⟩ := h.exists_eq; rfl

theorem Twin.nextReply (h : Twin S old l s s') : s'.nextReply = s.nextReply := by
  obtain ⟨_, _, rfl⟩ := h.exists_eq; rfl

/-! ### The bus -/

/-- A read of twins gives the same value and leaves twins. -/
def TwinRead (S : Word → Word → Prop) (old l : List LogEvent) (r r' : BusRead) : Prop :=
  r'.value = r.value ∧ Twin S old l r.state r'.state

/-- A write to twins is accepted by both or by neither and leaves twins. -/
def TwinWrite (S : Word → Word → Prop) (old l : List LogEvent) (r r' : BusWrite) : Prop :=
  r'.ok = r.ok ∧ Twin S old l r.state r'.state

theorem Twin.readHandler (h : Twin S old l s s') (a : Word) (w : Width) :
    TwinRead S old l (s.readHandler a w) (s'.readHandler a w) := by
  cases hr : s.nextReply with
  | value v =>
    rw [readHandler_value s w hr, readHandler_value s' w (h.nextReply.trans hr)]
    exact ⟨rfl, h.blind (blind_callHandler _)⟩
  | fault =>
    rw [readHandler_fault s w hr, readHandler_fault s' w (h.nextReply.trans hr)]
    exact ⟨rfl, h.blind (blind_callHandler _)⟩

theorem Twin.memRead (h : Twin S old l s s') (a : Word) (w : Width) :
    TwinRead S old l (s.memRead a w) (s'.memRead a w) := by
  have ht' := h.target (physical a)
  cases ht : Machine.target s.params (physical a) <;> rw [ht] at ht'
  case storage => rw [memRead_storage s w ht, memRead_storage s' w ht', h.mem]; exact ⟨rfl, h⟩
  case firmware => rw [memRead_firmware s w ht, memRead_firmware s' w ht', h.mem]; exact ⟨rfl, h⟩
  case handler => rw [memRead_handler s w ht, memRead_handler s' w ht']; exact h.readHandler a w
  case nobody => rw [memRead_nobody s w ht, memRead_nobody s' w ht']; exact ⟨rfl, h.logEvent _⟩

theorem Twin.memFetch (h : Twin S old l s s') (a : Word) : TwinRead S old l (s.memFetch a) (s'.memFetch a) := by
  have ht' := h.target (physical a)
  cases ht : Machine.target s.params (physical a) <;> rw [ht] at ht'
  case storage => rw [memFetch_storage s ht, memFetch_storage s' ht', h.mem]; exact ⟨rfl, h⟩
  case firmware => rw [memFetch_firmware s ht, memFetch_firmware s' ht', h.mem]; exact ⟨rfl, h⟩
  case handler => rw [memFetch_handler s ht, memFetch_handler s' ht']; exact h.readHandler a .word
  case nobody => rw [memFetch_nobody s ht, memFetch_nobody s' ht']; exact ⟨rfl, h⟩

theorem Twin.memWrite (h : Twin S old l s s') (a : Word) (w : Width) (v : Word) :
    TwinWrite S old l (s.memWrite a w v) (s'.memWrite a w v) := by
  have ht' := h.target (physical a)
  cases ht : Machine.target s.params (physical a) <;> rw [ht] at ht'
  case storage =>
    rw [memWrite_storage s w v ht, memWrite_storage s' w v ht', h.mem]; exact ⟨rfl, h.blind (blind_setMem _)⟩
  case firmware => rw [memWrite_firmware s w v ht, memWrite_firmware s' w v ht']; exact ⟨rfl, h.logEvent _⟩
  case handler =>
    cases hr : s.nextReply with
    | value u =>
      rw [memWrite_handler_value s w v ht hr, memWrite_handler_value s' w v ht' (h.nextReply.trans hr)]
      exact ⟨rfl, h.blind (blind_callHandler _)⟩
    | fault =>
      rw [memWrite_handler_fault s w v ht hr, memWrite_handler_fault s' w v ht' (h.nextReply.trans hr)]
      exact ⟨rfl, h.blind (blind_callHandler _)⟩
  case nobody => rw [memWrite_nobody s w v ht, memWrite_nobody s' w v ht']; exact ⟨rfl, h.logEvent _⟩

/-! ### Loads and stores -/

theorem TwinRead.deliver {r r' : BusRead} (h : TwinRead S old l r r') (hS : Unread S) (rt : Reg) (f : Word → Word) :
    Twin S old l (r.deliver rt f) (r'.deliver rt f) := by
  obtain ⟨hvalue, hstate⟩ := h
  cases hr : r.value with
  | none => rw [deliver_none hr, deliver_none (hvalue.trans hr)]; exact hstate.raise hS _
  | some v => rw [deliver_some hr, deliver_some (hvalue.trans hr)]; exact hstate.blind (blind_armReg _ _)

theorem TwinWrite.finish {r r' : BusWrite} (h : TwinWrite S old l r r') (hS : Unread S) :
    Twin S old l r.finish r'.finish := by
  obtain ⟨hok, hstate⟩ := h
  unfold BusWrite.finish
  rw [hok]
  split
  · exact hstate
  · exact hstate.raise hS _

theorem Twin.load (h : Twin S old l s s') (hS : Unread S) (w : Width) (f : Word → Word) (rt rs : Reg) (imm : Half) :
    Twin S old l (s.load w f rt imm rs) (s'.load w f rt imm rs) := by
  unfold State.load
  rw [h.ea]
  split
  · exact (h.memRead _ w).deliver hS rt f
  · exact h.raise hS _

theorem Twin.loadMerge (h : Twin S old l s s') (hS : Unread S) (f : BitVec 2 → Word → Word → Word) (rt rs : Reg)
    (imm : Half) : Twin S old l (s.loadMerge f rt imm rs) (s'.loadMerge f rt imm rs) := by
  unfold State.loadMerge
  rw [h.ea, h.inFlight]
  exact (h.memRead _ .word).deliver hS rt _

theorem Twin.store (h : Twin S old l s s') (hS : Unread S) (w : Width) (rt rs : Reg) (imm : Half) :
    Twin S old l (s.store w rt imm rs) (s'.store w rt imm rs) := by
  unfold State.store
  rw [h.ea, h.reg]
  split
  · exact (h.memWrite _ w _).finish hS
  · exact h.raise hS _

theorem Twin.storeMerge (h : Twin S old l s s') (hS : Unread S) (f : BitVec 2 → Word → Word → Word) (rt rs : Reg)
    (imm : Half) : Twin S old l (s.storeMerge f rt imm rs) (s'.storeMerge f rt imm rs) := by
  obtain ⟨hvalue, hstate⟩ := h.memRead (alignedWord (s.ea rs imm)) .word
  unfold State.storeMerge
  rw [h.ea, h.reg]
  simp only [hvalue]
  split
  · exact (hstate.memWrite _ .word _).finish hS
  · exact hstate.raise hS _

/-! ### Every instruction -/

/-- Both results are next states, and these are twins. -/
def TwinResult (S : Word → Word → Prop) (old l : List LogEvent) (r r' : Result) : Prop :=
  ∃ t t', r = .next t ∧ r' = .next t' ∧ Twin S old l t t'

theorem Twin.next (h : Twin S old l s s') : TwinResult S old l (.next s) (.next s') := ⟨s, s', rfl, rfl, h⟩

theorem Twin.writes (h : Twin S old l s s') {rd : Reg} {v v' : Word} (hv : v' = v) :
    TwinResult S old l (.next (s.writeReg rd v)) (.next (s'.writeReg rd v')) :=
  hv ▸ (h.blind (blind_writeReg rd v)).next

theorem Twin.checkedWrites (h : Twin S old l s s') (hS : Unread S) {o o' : Bool} {rd : Reg} {v v' : Word} (ho : o' = o)
    (hv : v' = v) : TwinResult S old l (checkedWrite o rd v s) (checkedWrite o' rd v' s') := by
  subst ho hv
  cases o'
  · exact h.writes rfl
  · exact (h.raise hS .ov).next

theorem Twin.branchIf (h : Twin S old l s s') {c c' : Bool} (hc : c' = c) (imm : Half) :
    Twin S old l (s.branchIf c imm) (s'.branchIf c' imm) := by
  subst hc
  cases c'
  · exact h
  · simp only [State.branchIf, State.branchTarget, h.pc, if_true]
    exact h.blind (blind_jumpTo _)

theorem Twin.sets (h : Twin S old l s s') {hi lo hi' lo' : Word} (hhi : hi' = hi) (hlo : lo' = lo) :
    TwinResult S old l (.next { s with hi := hi, lo := lo }) (.next { s' with hi := hi', lo := lo' }) := by
  subst hhi hlo
  exact (h.blind (blind_setAccumulators _ _)).next

/-- Every instruction does the same to twins; only MFC0 of `SR` could tell them apart. -/
theorem Twin.exec (h : Twin S old l s s') (hS : Unread S) (i : Instr)
    (hread : ∀ rt, i = .mfc0 rt srNum → s'.sr = s.sr) : TwinResult S old l (exec i s) (exec i s') := by
  have hreg := h.reg
  cases i
  case add | sub | addi => exact h.checkedWrites hS (by simp only [hreg]) (by simp only [hreg])
  case beq | bne | blez | bgtz | bltz | bgez => exact (h.branchIf (by simp only [hreg]) _).next
  case bltzal | bgezal =>
    have hlink := h.blind (blind_writeReg linkReg s.npc)
    simp only [Machine.exec, execBltzal, execBgezal, branchLink, hreg, h.npc]
    exact (hlink.branchIf rfl _).next
  case j => simp only [Machine.exec, execJ, h.curPc]; exact (h.blind (blind_jumpTo _)).next
  case jr => simp only [Machine.exec, execJr, hreg]; exact (h.blind (blind_jumpTo _)).next
  case jal =>
    simp only [Machine.exec, execJal, h.curPc, h.npc]
    exact ((h.blind (blind_writeReg _ _)).blind (blind_jumpTo _)).next
  case jalr =>
    simp only [Machine.exec, execJalr, hreg, h.npc]
    exact ((h.blind (blind_writeReg _ _)).blind (blind_jumpTo _)).next
  case lb | lbu | lh | lhu | lw => exact (h.load hS _ _ _ _ _).next
  case lwl | lwr => exact (h.loadMerge hS _ _ _ _).next
  case sb | sh | sw => exact (h.store hS _ _ _ _).next
  case swl | swr => exact (h.storeMerge hS _ _ _ _).next
  case mult | multu | div | divu => exact h.sets (by simp only [hreg]) (by simp only [hreg])
  case mthi => exact h.sets (hreg _) h.lo
  case mtlo => exact h.sets h.hi (hreg _)
  case mfhi => exact h.writes h.hi
  case mflo => exact h.writes h.lo
  case mfc0 rt rd =>
    have hc0 : s'.c0Get rd = s.c0Get rd := by
      by_cases hrd : rd = srNum
      · exact hrd ▸ hread rt (hrd ▸ rfl)
      · obtain ⟨new, bank, -, rfl, hbank, -⟩ := h
        exact hbank rd hrd
    simp only [Machine.exec, execMfc0, hc0]
    exact (h.blind (blind_armReg _ _)).next
  case mtc0 => simp only [Machine.exec, execMtc0, hreg]; exact (h.c0Set hS _ _).next
  case rfe => exact (h.popModeStack hS).next
  case syscall | brk | cop1 | cop2 | cop3 | lwc0 | lwc1 | lwc2 | lwc3 | swc0 | swc1 | swc2 | swc3 =>
    exact (h.raise hS _).next
  all_goals exact h.writes (by simp only [hreg])

end

/-! ### The privilege bit -/

/-- Two banks with the same 32 registers are equal. -/
theorem eq_of_forall_reg {v w : Vector Word 32} (h : ∀ n : Reg, v[n.toNat] = w[n.toNat]) : v = w := by
  refine Vector.ext fun k hk => ?_
  have hn : (BitVec.ofNat 5 k).toNat = k := by simp [BitVec.toNat_ofNat]; omega
  simpa only [hn] using h (BitVec.ofNat 5 k)

/-- Flipping bit 1 of `SR` leaves the vector bit. -/
theorem srBEV_flip (a : Word) : srBEV (a ^^^ 2#32) = srBEV a := by
  simp [srBEV]

theorem twin_flipMode (s : State) : Twin (fun a b => srBEV b = srBEV a) s.log s.log s (flipMode s) := by
  refine ⟨[], s.c0.set srNum.toNat (s.sr ^^^ 2#32), by simp, ?_, fun n hn => ?_, ?_⟩
  · simp only [List.append_nil]; rfl
  · rw [vector_get_set, if_neg hn]; rfl
  · rw [vector_get_set, if_pos rfl]; exact srBEV_flip s.sr

/-- Settles O55: a state and the one with the bit flipped are twins, so every instruction but MFC0 of `SR` takes them to
twins, which differ in `SR` only, both having logged the same. -/
theorem privilegeBitHasNoEffect : Obligations.PrivilegeBitHasNoEffect := by
  intro i s t hmfc0 h
  obtain ⟨u, t', hu, ht', new, bank, hlog, htwin, hbank, -⟩ :=
    (twin_flipMode s).exec unread_vectorBit i fun rt hi => absurd hi (hmfc0 rt)
  obtain rfl : u = t := Host.Outcome.next.inj (hu.symm.trans h)
  have hc0 : bank = u.c0.set srNum.toNat bank[srNum.toNat] := by
    refine eq_of_forall_reg fun n => ?_
    rw [vector_get_set]
    split
    case isTrue hn => rw [hn]
    case isFalse hn => exact hbank n hn
  refine ⟨t', ht', ?_⟩
  rw [htwin, ← hlog]
  exact congrArg (fun b => { u with c0 := b }) hc0

/-! ### The log -/

/-- The state with another log. -/
def withLog (s : State) (l : List LogEvent) : State := { s with log := l }

section
variable {old l : List LogEvent} {s s' : State}

/-- Twins with the same `SR` differ in the log only. -/
theorem twin_eq_iff :
    Twin (· = ·) old l s s' ↔ ∃ new, s.log = old ++ new ∧ s' = withLog s (l ++ new) := by
  constructor
  · rintro ⟨new, bank, hlog, rfl, hbank, hsr⟩
    have hc0 : bank = s.c0 := by
      refine eq_of_forall_reg fun n => ?_
      by_cases hn : n = srNum
      · rw [hn]; exact hsr.symm
      · exact hbank n hn
    exact ⟨new, hlog, by rw [hc0]; rfl⟩
  · rintro ⟨new, hlog, rfl⟩
    exact ⟨new, s.c0, hlog, rfl, fun _ _ => rfl, rfl⟩

/-- An operation that has no part in the log keeps such twins. -/
theorem Twin.logBlind (h : Twin (· = ·) old l s s') {f : State → State} (hf : ∀ s l, f (withLog s l) = withLog (f s) l) :
    Twin (· = ·) old l (f s) (f s') := by
  rw [twin_eq_iff] at *
  obtain ⟨new, hlog, rfl⟩ := h
  have hown : f s = withLog (f s) s.log := hf s s.log
  have hflog : (f s).log = s.log := by rw [hown]; rfl
  exact ⟨new, hflog.trans hlog, hf s _⟩

theorem beginStep_withLog (s : State) (l : List LogEvent) : (withLog s l).beginStep = withLog s.beginStep l := by
  have hcommit : (withLog s l).ageMarker.commitPending = withLog s.ageMarker.commitPending l := by
    cases h : s.ldCommit <;> simp only [State.commitPending, ageMarker_ldCommit, withLog, h] <;> rfl
  rw [State.beginStep, hcommit]
  rfl

theorem poll_withLog (s : State) (l : List LogEvent) (irq : Bool) : (withLog s l).poll irq = withLog (s.poll irq) l := by
  by_cases h : interruptTaken s.sr (causeWithIrq s.cause irq) = true
  · rw [poll_taken s irq h, poll_taken (withLog s l) irq h]; rfl
  · rw [poll_not_taken s irq h, poll_not_taken (withLog s l) irq h]; rfl

theorem pollInput_withLog (s : State) (l : List LogEvent) : (withLog s l).pollInput = withLog s.pollInput l :=
  poll_withLog { s with irqIn := s.irqIn.tail } l s.irqLevel

/-- Phases 4 and 5 of a fetched word do the same to twins, the reserved word's event included. -/
theorem Twin.runWord (h : Twin (· = ·) old l s s') (w : Word) :
    TwinResult (· = ·) old l (runWord w s) (runWord w s') := by
  have hadvance := h.blind blind_advance
  unfold Machine.runWord
  cases decode w with
  | instr i =>
    refine hadvance.exec unread_eq i fun _ _ => ?_
    obtain ⟨new, -, hs'⟩ := twin_eq_iff.1 hadvance
    rw [hs']; rfl
  | reserved why =>
    simp only [execReserved, hadvance.curPc]
    exact ((hadvance.logEvent _).raise unread_eq _).next

theorem Twin.stepOnly (h : Twin (· = ·) old l s s') : TwinResult (· = ·) old l (stepOnly s) (stepOnly s') := by
  have hlatch : Twin (· = ·) old l s.beginStep.latch s'.beginStep.latch :=
    (h.logBlind beginStep_withLog).logBlind (f := State.latch) fun _ _ => rfl
  have hpc : s'.beginStep.pc = s.beginStep.pc := by rw [beginStep_pc, beginStep_pc, h.pc]
  obtain ⟨hvalue, hstate⟩ := hlatch.memFetch s.beginStep.pc
  unfold Machine.stepOnly State.fetch
  rw [hpc]
  split_ifs
  · unfold BusRead.fetched
    rw [hvalue]
    cases (s.beginStep.latch.memFetch s.beginStep.pc).value with
    | some w => exact hstate.runWord w
    | none => exact (hstate.raise unread_eq _).next
  · exact (hlatch.raise unread_eq _).next

theorem Twin.step (h : Twin (· = ·) old l s s') : TwinResult (· = ·) old l (step s) (step s') :=
  (h.logBlind pollInput_withLog).stepOnly

end

/-- Settles O56: a state and the one with another log are twins, and every phase of the step keeps twins. -/
theorem logIsASideChannel : Obligations.LogIsASideChannel := by
  intro s t l h
  have htwin : Twin (· = ·) s.log l s (withLog s l) := twin_eq_iff.2 ⟨[], by simp, by simp⟩
  obtain ⟨u, t', hu, ht', htwin'⟩ := htwin.step
  obtain rfl : u = t := Host.Outcome.next.inj (hu.symm.trans h)
  obtain ⟨new, hlog, rfl⟩ := twin_eq_iff.1 htwin'
  exact ⟨new, hlog, ht'⟩

end Sys2Proof.Proofs
end

section
/-! SUPPORT. Loads (47_load_store.md R180 to R187, 20_memory.md R46 to R56): the five loads and the two merges as one load and
one merge each, and what each answer of the bus makes of them. -/

namespace Sys2Proof.Proofs

open Sys2Proof Sys2Proof.Machine Sys2Proof.Claims

/-! ### Addresses and widths in the words of the statements -/

theorem ea_eq_address (s : State) (offset : Half) (rs : Reg) : s.ea rs offset = address s offset rs := rfl

theorem alignedWord_eq_wordOf (a : Word) : alignedWord a = wordOf a := rfl

/-- The segment a handler is told is that of the word's address too. -/
theorem segmentOf_wordOf (a : Word) : segmentOf (wordOf a) = a.extractLsb' 29 3 := segmentOf_alignedWord a

/-- The low bits of a word, cut out or truncated to. -/
theorem extractLsb'_zero_eq_setWidth {n : Nat} (hn : n ≤ 32) (v : Word) : v.extractLsb' 0 n = v.setWidth n :=
  (BitVec.setWidth_eq_extractLsb' hn).symm

def loadWidth : LoadOp → Width
  | .lb => .byte | .lbu => .byte | .lh => .half | .lhu => .half | .lw => .word

theorem bytes_loadWidth (op : LoadOp) : (loadWidth op).bytes = op.bytes := by cases op <;> rfl

/-- A widened value depends on the bits the access moves only. -/
theorem widen_truncate (op : LoadOp) (v : Word) : op.widen ((loadWidth op).truncate v) = op.widen v := by
  cases op <;> simp [loadWidth, Width.truncate, LoadOp.widen, zextByte, zextHalf, extractLsb'_zero_eq_setWidth]

/-- Each of the five loads is the load of its width and widening. -/
theorem exec_load (op : LoadOp) (s : State) (rt rs : Reg) (offset : Half) :
    exec (op.instr rt offset rs) s = .next (s.load (loadWidth op) op.widen rt offset rs) := by
  have hlb : sextByte = LoadOp.widen .lb := by
    funext v; simp [sextByte, LoadOp.widen, extractLsb'_zero_eq_setWidth]
  have hlbu : zextByte = LoadOp.widen .lbu := by
    funext v; simp [zextByte, LoadOp.widen, extractLsb'_zero_eq_setWidth]
  have hlh : sextHalf = LoadOp.widen .lh := by
    funext v; simp [sextHalf, LoadOp.widen, extractLsb'_zero_eq_setWidth]
  have hlhu : zextHalf = LoadOp.widen .lhu := by
    funext v; simp [zextHalf, LoadOp.widen, extractLsb'_zero_eq_setWidth]
  cases op
  case lb => rw [← hlb]; rfl
  case lbu => rw [← hlbu]; rfl
  case lh => rw [← hlh]; rfl
  case lhu => rw [← hlhu]; rfl
  case lw => rfl

/-- An aligned load is the end of one bus read. -/
theorem exec_load_aligned {op : LoadOp} {s : State} {rs : Reg} {offset : Half}
    (ha : (address s offset rs).toNat % op.bytes = 0) (rt : Reg) :
    exec (op.instr rt offset rs) s =
      .next ((s.memRead (address s offset rs) (loadWidth op)).deliver rt op.widen) := by
  rw [exec_load, load_aligned]
  · rfl
  · rw [bytes_loadWidth]; exact ha

/-! ### The merges -/

/-- LWL's or LWR's merge. -/
def loadMergeOf (left : Bool) : BitVec 2 → Word → Word → Word := if left then lwlMerge else lwrMerge

theorem inFlight_eq {s : State} {rt : Reg} {cur : Word} (h : InFlight s rt cur) : s.inFlight rt = cur := by
  unfold State.inFlight
  rcases h with h | ⟨h, rfl⟩
  · simp only [h, if_true]
  · cases hc : s.ldCommit with
    | none => rfl
    | some p =>
      have hp : p.reg ≠ rt := fun hp => h p.value (by rw [hc, ← hp])
      exact if_neg hp

/-- LWL and LWR are the end of one bus read of the aligned word. -/
theorem exec_mergeLoad {left : Bool} {s : State} {rt : Reg} {cur : Word} (hcur : InFlight s rt cur) (rs : Reg)
    (offset : Half) :
    exec (mergeLoad left rt offset rs) s =
      .next ((s.memRead (wordOf (address s offset rs)) .word).deliver rt
        fun wv => loadMergeOf left (lowBits (address s offset rs)) wv cur) := by
  rw [← inFlight_eq hcur]
  cases left <;> rfl

/-- The merge's bytes are those of the tables. -/
theorem mergedLoad_loadMergeOf (left : Bool) {k : Nat} {a wv cur : Word} {mem : Nat → Byte} (hk : k = a.toNat % 4)
    (hmem : ∀ j, j < 4 → byteOf wv j = mem j) : MergedLoad left k mem cur (loadMergeOf left (lowBits a) wv cur) := by
  intro j hj
  rw [hk, ← toNat_lowBits]
  have hlow := (lowBits a).isLt
  cases left with
  | true =>
    refine (byte_lwlMerge _ wv cur j hj).trans ?_
    rw [← hmem (j - (3 - (lowBits a).toNat)) (by omega)]
    rfl
  | false =>
    refine (byte_lwrMerge _ wv cur j hj).trans ?_
    simp only [Bool.false_eq_true, if_false]
    split
    · exact hmem _ (by omega)
    · rfl

/-- A byte of a word in memory. -/
theorem byteOf_readLE (m : Memory) (p : Nat) {j : Nat} (hj : j < 4) : byteOf (m.readLE p 4) j = m.read (p + j) := by
  apply BitVec.eq_of_getLsbD_eq
  intro i hi
  rw [byteOf, BitVec.getLsbD_extractLsb', Memory.getLsbD_readLE 4 m p j i (by decide) hi]
  simp [hi, hj]

theorem byteOf_zero (j : Nat) : byteOf 0#32 j = 0#8 := by
  simp [byteOf]

/-! ### How a load ends, answer by answer -/

section
variable {s : State} {a : Word}

/-- A bus read of a memory of the core. -/
theorem memRead_memory (w : Width) (ho : MapOrdered s)
    (hp : InMain (physical a) ∨ InScratch s (physical a) ∨ InFirmware s (physical a)) :
    s.memRead a w = ⟨some (s.mem.readLE (physical a) w.bytes), s⟩ := by
  rcases target_memory s ho hp with h | h
  · exact memRead_storage s w h
  · exact memRead_firmware s w h

/-- The load is scheduled after at most a logged event. -/
theorem armedFrom_logEvent (s : State) (e : LogEvent) (rt : Reg) (v : Word) :
    ArmedFrom s ((s.logEvent e).armReg rt v) rt v ∧ Logged s ((s.logEvent e).armReg rt v) [e] :=
  ⟨(sameInside_logEvent s e).arm rt v, sameOutside_armReg (s.logEvent e) rt v⟩

theorem calledOnce_armReg {t : State} {c : IoCall} (h : CalledOnce s t c) (rt : Reg) (v : Word) :
    CalledOnce s (t.armReg rt v) c := by
  simpa [CalledOnce] using h

/-- A read through a handler: one call; the value's low bits are scheduled, a fault enters DBE. -/
theorem deliver_handler (ht : target s.params (physical a) = .handler) (w : Width) (rt : Reg) (f : Word → Word) :
    CalledOnce s ((s.memRead a w).deliver rt f) (.read w.bits (physical a) (segmentOf a)) ∧
      (∀ v, s.nextReply = .value v → ArmedFrom s ((s.memRead a w).deliver rt f) rt (f (w.truncate v))) ∧
      (s.nextReply = .fault → EnteredFrom s ((s.memRead a w).deliver rt f) .dbe s.curPc s.dsCur) := by
  have hcall := calledOnce_callHandler s (.read w.bits (physical a) (segmentOf a))
  have hinside := sameInside_callHandler s (.read w.bits (physical a) (segmentOf a))
  rw [memRead_handler s w ht]
  cases hr : s.nextReply with
  | value u =>
    rw [readHandler_value s w hr, deliver_some rfl]
    refine ⟨calledOnce_armReg hcall _ _, ?_, nofun⟩
    rintro v ⟨⟩
    exact hinside.arm _ _
  | fault =>
    rw [readHandler_fault s w hr, deliver_none rfl]
    exact ⟨calledOnce_raise hcall _, nofun, fun _ => hinside.raise _⟩

end

/-! ### The statements -/

/-- Settles O30: the bus reads the little-endian value in memory, and the load schedules it widened. -/
theorem loadsDeliverMemoryLater : Obligations.LoadsDeliverMemoryLater := by
  intro op s rt rs offset a p ho ha hp
  refine ⟨_, exec_load_aligned ha rt, ?_⟩
  rw [memRead_memory _ ho hp, deliver_some rfl, bytes_loadWidth, readLE_eq_leValue]
  exact ⟨armedFrom_armReg s rt _, sameOutside_armReg s rt _⟩

/-- Settles O31: the bus reads the aligned word in memory, and the load schedules the merge. -/
theorem unalignedLoadsMergeMemoryLater : Obligations.UnalignedLoadsMergeMemoryLater := by
  intro left s rt rs offset cur a p ho hp hcur
  refine ⟨_, _, exec_mergeLoad hcur rs offset, mergedLoad_loadMergeOf left rfl fun j => byteOf_readLE s.mem p, ?_⟩
  rw [memRead_memory _ ho hp, deliver_some rfl]
  exact ⟨armedFrom_armReg s rt _, sameOutside_armReg s rt _⟩

/-- Settles O32: where nobody answers the bus reads 0 and logs it, and the load goes on as any other. -/
theorem unclaimedLoadsReadZeroAndLog : Obligations.UnclaimedLoadsReadZeroAndLog := by
  constructor
  · intro op s rt rs offset a ha hu
    refine ⟨_, exec_load_aligned ha rt, ?_⟩
    rw [memRead_nobody s _ (target_nobody s hu), deliver_some rfl, bytes_loadWidth]
    have hzero : op.widen 0#32 = 0#32 := by cases op <;> rfl
    rw [hzero]
    exact armedFrom_logEvent s _ rt _
  · intro left s rt rs offset cur a hu hcur
    refine ⟨_, _, exec_mergeLoad hcur rs offset, mergedLoad_loadMergeOf left rfl fun j _ => byteOf_zero j, ?_⟩
    rw [memRead_nobody s _ (target_nobody s hu), deliver_some rfl]
    exact armedFrom_logEvent s _ rt _

/-- Settles O33: a handler's answer decides between the scheduled value and DBE, after the one call. -/
theorem handlerLoadsDeliverOrRaiseDBE : Obligations.HandlerLoadsDeliverOrRaiseDBE := by
  constructor
  · intro op s rt rs offset a call ho ha hh
    obtain ⟨hcall, hvalue, hfault⟩ := deliver_handler (target_handler s ho hh) (loadWidth op) rt op.widen
    rw [Width.bits, bytes_loadWidth] at hcall
    simp only [widen_truncate] at hvalue
    exact ⟨_, exec_load_aligned ha rt, hcall, hvalue, hfault⟩
  · intro left s rt rs offset cur a call ho hh hcur
    obtain ⟨hcall, hvalue, hfault⟩ := deliver_handler (target_handler s ho hh) .word rt
      fun wv => loadMergeOf left (lowBits a) wv cur
    rw [segmentOf_wordOf] at hcall
    exact ⟨_, exec_mergeLoad hcur rs offset, hcall,
      fun v hv => ⟨_, mergedLoad_loadMergeOf left rfl fun _ _ => rfl, hvalue v hv⟩, hfault⟩

end Sys2Proof.Proofs
end

section
/-! SUPPORT. Stores (47_load_store.md R188 to R192, 20_memory.md R45 to R56): the three stores and the two merges as one store
and one merge each, and what each answer of the bus makes of them. -/

namespace Sys2Proof.Proofs

open Sys2Proof Sys2Proof.Machine Sys2Proof.Claims

/-! ### The stores as bus writes -/

def storeWidth : StoreOp → Width
  | .sb => .byte | .sh => .half | .sw => .word

theorem bytes_storeWidth (op : StoreOp) : (storeWidth op).bytes = op.bytes := by cases op <;> rfl

/-- The value a call and an event name is the register's, truncated. -/
theorem truncate_storeWidth (op : StoreOp) (v : Word) : (storeWidth op).truncate v = op.value v := by
  cases op <;> simp [storeWidth, Width.truncate, StoreOp.value, zextByte, zextHalf, extractLsb'_zero_eq_setWidth]

theorem exec_store (op : StoreOp) (s : State) (rt rs : Reg) (offset : Half) :
    exec (op.instr rt offset rs) s = .next (s.store (storeWidth op) rt offset rs) := by
  cases op <;> rfl

/-- An aligned store is the end of one bus write. -/
theorem exec_store_aligned {op : StoreOp} {s : State} {rs : Reg} {offset : Half}
    (ha : (address s offset rs).toNat % op.bytes = 0) (rt : Reg) :
    exec (op.instr rt offset rs) s =
      .next (s.memWrite (address s offset rs) (storeWidth op) (s.reg rt)).finish := by
  rw [exec_store, store_aligned]
  · rfl
  · rw [bytes_storeWidth]; exact ha

/-- SWL's or SWR's merge. -/
def storeMergeOf (left : Bool) : BitVec 2 → Word → Word → Word := if left then swlMerge else swrMerge

theorem exec_mergeStore (left : Bool) (s : State) (rt rs : Reg) (offset : Half) :
    exec (mergeStore left rt offset rs) s = .next (s.storeMerge (storeMergeOf left) rt offset rs) := by
  cases left <;> rfl

section
variable {left : Bool} {s u : State} {rt rs : Reg} {offset : Half}

/-- After a read that answers a value SWL and SWR are the end of one bus write of the merge. -/
theorem exec_mergeStore_value {wv : Word} (hread : s.memRead (wordOf (address s offset rs)) .word = ⟨some wv, u⟩) :
    exec (mergeStore left rt offset rs) s =
      .next (u.memWrite (wordOf (address s offset rs)) .word
        (storeMergeOf left (lowBits (address s offset rs)) wv (s.reg rt))).finish := by
  rw [exec_mergeStore, State.storeMerge, ea_eq_address, alignedWord_eq_wordOf, hread]

/-- A read that faults ends them (60_exceptions.md R238). -/
theorem exec_mergeStore_fault (hread : s.memRead (wordOf (address s offset rs)) .word = ⟨none, u⟩) :
    exec (mergeStore left rt offset rs) s = .next (u.raise .dbe) := by
  rw [exec_mergeStore, State.storeMerge, ea_eq_address, alignedWord_eq_wordOf, hread]

end

/-- The merge's bytes are those of the tables. -/
theorem mergedStore_storeMergeOf (left : Bool) {k : Nat} {a wv reg : Word} {mem after : Nat → Byte} (hk : k = a.toNat % 4)
    (hmem : ∀ j, j < 4 → byteOf wv j = mem j)
    (hafter : ∀ j, j < 4 → after j = byteOf (storeMergeOf left (lowBits a) wv reg) j) :
    MergedStore left k mem reg after := by
  intro j hj
  rw [hk, ← toNat_lowBits, hafter j hj, ← hmem j hj]
  cases left with
  | true => exact byte_swlMerge _ wv reg j hj
  | false => exact byte_swrMerge _ wv reg j hj

/-! ### How a store ends, answer by answer -/

section
variable {s : State} {a : Word}

/-- A write of memory changes nothing else. -/
theorem onlyMemory_withMem (s : State) (m : Memory) :
    OnlyMemory s { s with mem := m } ∧ SameOutside s { s with mem := m } :=
  ⟨⟨fun _ => rfl, fun _ => rfl, ⟨rfl, rfl⟩, ⟨rfl, rfl⟩, rfl, rfl, rfl, rfl, rfl⟩, ⟨rfl, rfl, rfl, rfl, rfl⟩, rfl⟩

theorem finish_storage (h : InMain (physical a) ∨ InScratch s (physical a)) (w : Width) (v : Word) :
    (s.memWrite a w v).finish = { s with mem := s.mem.writeLE (physical a) w.bytes v } := by
  rw [memWrite_storage s w v (target_storage s h)]
  rfl

theorem finish_firmware (ho : MapOrdered s) (h : InFirmware s (physical a)) (w : Width) (v : Word) :
    (s.memWrite a w v).finish = s.logEvent (.firmwareWrite a w.bytes (w.truncate v)) := by
  rw [memWrite_firmware s w v (target_firmware s ho h)]
  rfl

theorem finish_unclaimed (h : Unclaimed s (physical a)) (w : Width) (v : Word) :
    (s.memWrite a w v).finish = s.logEvent (.unmappedWrite a w.bytes (w.truncate v)) := by
  rw [memWrite_nobody s w v (target_nobody s h)]
  rfl

/-- A write to a handler: one call; a fault enters DBE. -/
theorem finish_handler (ho : MapOrdered s) (h : Handled s (physical a)) (w : Width) (v : Word) :
    (s.memWrite a w v).finish =
      match s.nextReply with
      | .value _ => s.callHandler (.write w.bits (physical a) (segmentOf a) (w.truncate v))
      | .fault => (s.callHandler (.write w.bits (physical a) (segmentOf a) (w.truncate v))).raise .dbe := by
  have ht := target_handler s ho h
  cases hr : s.nextReply with
  | value u => rw [memWrite_handler_value s w v ht hr]; rfl
  | fault => rw [memWrite_handler_fault s w v ht hr]; rfl

theorem sameCore_logEvent (s : State) (e : LogEvent) : SameCore s (s.logEvent e) :=
  sameCore_of_sameInside (sameInside_logEvent s e)

theorem logged_logEvent (s : State) (e : LogEvent) : Logged s (s.logEvent e) [e] :=
  ⟨⟨rfl, rfl, rfl, rfl, rfl⟩, rfl⟩

theorem logged_logEvent_logEvent (s : State) (e e' : LogEvent) : Logged s ((s.logEvent e).logEvent e') [e, e'] :=
  ⟨⟨rfl, rfl, rfl, rfl, rfl⟩, by simp [State.logEvent]⟩

end

/-! ### Two calls on a handler (R191) -/

/-- The answer to the second call. -/
theorem nextReply_callHandler (s : State) (c : IoCall) : (s.callHandler c).nextReply = secondReply s := by
  unfold State.callHandler secondReply
  match h : s.ioIn with
  | [] => simp [State.nextReply]
  | [_] => simp [State.nextReply]
  | _ :: _ :: _ => simp [State.nextReply]

theorem calledTwice_callHandler (s : State) (c d : IoCall) : CalledTwice s ((s.callHandler c).callHandler d) c d := by
  unfold CalledTwice State.callHandler
  match h : s.ioIn with
  | [] => simp
  | [_] => simp
  | _ :: _ :: _ => simp

theorem calledTwice_raise {s t : State} {c d : IoCall} (h : CalledTwice s t c d) (e : Exc) :
    CalledTwice s (t.raise e) c d := by
  simpa [CalledTwice] using h

/-! ### The statements -/

/-- Settles O34: alignment is tested before the bus is touched. -/
theorem misalignedAccessRaisesAddressError : Obligations.MisalignedAccessRaisesAddressError := by
  intro s rt rs offset a
  refine ⟨fun op ha => raises_of ?_, fun op ha => raises_of ?_⟩
  · rw [exec_load, load_misaligned _ _ _ _ _ _ (by rw [bytes_loadWidth]; exact ha)]; rfl
  · rw [exec_store, store_misaligned _ _ _ _ _ (by rw [bytes_storeWidth]; exact ha)]; rfl

/-- Settles O35: the bus writes the register's low bytes, and no other byte. -/
theorem storesWriteExactlyTheirBytes : Obligations.StoresWriteExactlyTheirBytes := by
  intro op s rt rs offset a p ha hp
  refine ⟨_, exec_store_aligned ha rt, ?_⟩
  rw [finish_storage hp, bytes_storeWidth]
  exact ⟨fun j => Memory.read_writeLE_inside _ _ _ _ j, fun x => Memory.read_writeLE_outside _ _ _ _ x,
    onlyMemory_withMem s _⟩

/-- Settles O36: the bus reads the word and writes back its merge with the register. -/
theorem unalignedStoresWriteTheSelectedBytes : Obligations.UnalignedStoresWriteTheSelectedBytes := by
  intro left s rt rs offset a p hp
  have hread := memRead_storage s .word (target_storage s hp)
  refine ⟨_, exec_mergeStore_value hread, ?_⟩
  rw [finish_storage hp]
  exact ⟨mergedStore_storeMergeOf left rfl (fun j => byteOf_readLE s.mem p)
      (fun j => Memory.read_writeLE_inside _ _ _ _ j),
    fun x => Memory.read_writeLE_outside _ _ _ _ x, onlyMemory_withMem s _⟩

/-- Settles O37: where the bus drops a write it logs it, after SWL's and SWR's read, which logs itself where nobody
answers. -/
theorem discardedStoresChangeNothingAndLog : Obligations.DiscardedStoresChangeNothingAndLog := by
  constructor
  · intro op s rt rs offset a ha
    have hexec := exec_store_aligned ha rt
    refine ⟨fun ho hp => ⟨_, hexec, ?_⟩, fun hu => ⟨_, hexec, ?_⟩⟩
    · rw [finish_firmware ho hp, bytes_storeWidth, truncate_storeWidth]
      exact ⟨sameCore_logEvent s _, logged_logEvent s _⟩
    · rw [finish_unclaimed hu, bytes_storeWidth, truncate_storeWidth]
      exact ⟨sameCore_logEvent s _, logged_logEvent s _⟩
  · intro left s rt rs offset a p
    refine ⟨fun ho hp => ?firmware, fun hu => ?nobody⟩
    case firmware =>
      have hread := memRead_memory .word ho (.inr (.inr hp))
      refine ⟨storeMergeOf left (lowBits a) (s.mem.readLE p 4) (s.reg rt), _, exec_mergeStore_value hread, ?_⟩
      rw [finish_firmware ho hp]
      exact ⟨sameCore_logEvent s _,
        mergedStore_storeMergeOf left rfl (fun j => byteOf_readLE s.mem p) (fun _ _ => rfl), logged_logEvent s _⟩
    case nobody =>
      have hread := memRead_nobody s .word (target_nobody s hu)
      refine ⟨storeMergeOf left (lowBits a) 0#32 (s.reg rt), _, exec_mergeStore_value hread, ?_⟩
      rw [finish_unclaimed (s := s.logEvent _) hu]
      exact ⟨sameCore_of_sameInside ((sameInside_logEvent s _).trans (sameInside_logEvent _ _)),
        mergedStore_storeMergeOf left rfl (fun j _ => byteOf_zero j) (fun _ _ => rfl), logged_logEvent_logEvent s _ _⟩

/-- Settles O38: the handler's answer to the one call decides whether DBE is entered. -/
theorem handlerStoresCallOrRaiseDBE : Obligations.HandlerStoresCallOrRaiseDBE := by
  intro op s rt rs offset a call ho ha hh
  have hcall := calledOnce_callHandler s call
  have hinside := sameInside_callHandler s call
  refine ⟨_, exec_store_aligned ha rt, ?_⟩
  rw [finish_handler ho hh, Width.bits, bytes_storeWidth, truncate_storeWidth]
  cases s.nextReply with
  | value u => exact ⟨hcall, fun _ _ => sameCore_of_sameInside hinside, nofun⟩
  | fault => exact ⟨calledOnce_raise hcall _, nofun, fun _ => hinside.raise _⟩

/-- Settles O39: the read is a call; if it answers a value the write is another, whose answer decides whether DBE is
entered. -/
theorem unalignedHandlerStoresReadThenWrite : Obligations.UnalignedHandlerStoresReadThenWrite := by
  intro left s rt rs offset a p seg ho hh
  have hseg : segmentOf (wordOf a) = seg := segmentOf_wordOf a
  have hread := memRead_handler s .word (target_handler s ho hh)
  have hinside := sameInside_callHandler s (.read 32 p seg)
  constructor
  · intro hr
    rw [readHandler_fault s .word hr, hseg] at hread
    exact ⟨_, exec_mergeStore_fault hread, calledOnce_raise (calledOnce_callHandler s _) _, hinside.raise _⟩
  · intro v hr
    rw [readHandler_value s .word hr, hseg] at hread
    have ho' := (mapOrdered_congr hinside.params).2 ho
    have hh' := (handled_congr hinside.params p).2 hh
    have hexec : exec (mergeStore left rt offset rs) s = .next ((s.callHandler (.read 32 p seg)).memWrite (wordOf a) .word
        (storeMergeOf left (lowBits a) v (s.reg rt))).finish := exec_mergeStore_value hread
    rw [finish_handler ho' hh', nextReply_callHandler, hseg] at hexec
    refine ⟨_, _, hexec, mergedStore_storeMergeOf left rfl (fun _ _ => rfl) (fun _ _ => rfl), ?_⟩
    have hcalls := calledTwice_callHandler s (.read 32 p seg)
    have hinside' := fun d => hinside.trans (sameInside_callHandler _ d)
    cases secondReply s with
    | value u => exact ⟨hcalls _, fun _ _ => sameCore_of_sameInside (hinside' _), nofun⟩
    | fault => exact ⟨calledTwice_raise (hcalls _) _, nofun, fun _ => (hinside' _).raise _⟩

/-! ### Mirrors (20_memory.md R41, R44) -/

/-- The low 29 bits are the physical address. -/
theorem physical_eq_toNat_low (a : Word) : physical a = (a.extractLsb' 0 29).toNat := by
  rw [physical_eq_translateAddr, translateAddr_eq, BitVec.extractLsb'_toNat, Nat.shiftRight_zero]

/-- Two addresses with one physical address that no handler answers are read alike. -/
theorem memRead_value_congr {s : State} {a b : Word} (hab : physical a = physical b) (hh : ¬ Handled s (physical a))
    (w : Width) : (s.memRead a w).value = (s.memRead b w).value := by
  rcases target_cases s (physical a) with ⟨h, -⟩ | ⟨h, -⟩ | ⟨-, h⟩ | ⟨h, -⟩
  · rw [memRead_storage s w h, memRead_storage s w (hab ▸ h), hab]
  · rw [memRead_firmware s w h, memRead_firmware s w (hab ▸ h), hab]
  · exact absurd h hh
  · rw [memRead_nobody s w h, memRead_nobody s w (hab ▸ h)]

/-- They are written alike, whoever answers. -/
theorem memWrite_mem_congr (s : State) {a b : Word} (hab : physical a = physical b) (w : Width) (v : Word) :
    (s.memWrite a w v).state.mem = (s.memWrite b w v).state.mem := by
  rcases memWrite_mem_cases s a w v with ⟨hp, hm⟩ | ⟨hp, hm⟩ <;> rw [hab] at hp <;> rw [hm]
  · rw [memWrite_storage s w v (target_storage s hp), hab]
  · rcases memWrite_mem_cases s b w v with ⟨hp', -⟩ | ⟨-, hm'⟩
    · exact absurd hp' hp
    · exact hm'.symm

/-- Settles O40: routing and memory go by the physical address, which is the low 29 bits. -/
theorem mirroredAddressesNameTheSameByte : Obligations.MirroredAddressesNameTheSameByte := by
  intro s a b w v hlow
  have hab : physical a = physical b := by rw [physical_eq_toNat_low, hlow, physical_eq_toNat_low]
  refine ⟨hab, ?_, rfl, fun hh => memRead_value_congr hab hh w, fun _ => memWrite_mem_congr s hab w v⟩
  rw [physical_eq_toNat_low]
  exact BitVec.isLt _

/-- Settles O41: the write and the two reads go to the same bytes of memory. -/
theorem writtenWordIsReadBackAndFetched : Obligations.WrittenWordIsReadBackAndFetched := by
  intro s a b v _ hab hp t
  have ht : t = { s with mem := s.mem.writeLE (physical a) 4 v } := by
    show (s.memWrite a .word v).state = _
    rw [memWrite_storage s .word v (target_storage s hp)]
    rfl
  have hword : t.mem.readLE (physical b) 4 = v := by
    rw [ht, ← hab, Memory.readLE_writeLE 4 (by decide)]
    simp
  have htarget : target t.params (physical b) = .storage := by
    rw [ht, ← hab]
    exact target_storage s hp
  rw [memRead_storage t .word htarget, memFetch_storage t htarget]
  exact ⟨congrArg some hword, congrArg some hword, rfl⟩

end Sys2Proof.Proofs
end
